-- ==== Sys2Proof/Word.lean ====
section
/-! DEFINITION. The word types and the fixed sets of sizes of the 65GZ032. -/

namespace Sys2Proof

/-- A 32 bit register value or address (00_scope.md R6). -/
abbrev Word := BitVec 32

/-- A 16 bit value: the Flags register, an operand word, `hw` (00_scope.md R9). -/
abbrev Half := BitVec 16

/-- One byte of memory. -/
abbrev Byte := BitVec 8

/-- The two bit width code `ww` (00_scope.md R10): `.B`, `.W`, `.H`, `.L`. -/
inductive Width where
  | byte
  | word
  | high
  | long
deriving DecidableEq, Repr

/-- The one bit width of JSR, RET, RETI, TRAP, TRAPB (30_encoding.md R110): `.W`, `.L`. -/
inductive TransferWidth where
  | word
  | long
deriving DecidableEq, Repr, Inhabited

/-- The one bit width of LCNTR and SCNTR (30_encoding.md R110), named by the code of `hw[0]`. -/
inductive CntrWidth where
  | byte
  | word
deriving DecidableEq, Repr

/-- How many bytes one data access moves (20_memory.md R76). -/
inductive Size where
  | one
  | two
  | four
deriving DecidableEq, Repr

end Sys2Proof
end

