-- ==== Sys2Proof/Config.lean ====
section
/-! DEFINITION. What the spec leaves to an implementation: the parameters that have a default (00_scope.md R7), as the
structure `Params` whose chosen value stands in Machine/Params.lean, and the open parameters and free values, as opaque
constants that no proof can evaluate. -/

namespace Sys2Proof

/-! ### Parameters with a default (00_scope.md R7) -/

/-- `DATA_ENDIAN` (92_eei_decisions.md D1). -/
inductive Endian where
  | little
  | big
deriving DecidableEq, Repr

/-- `MISALIGNED` (D2): what a data access of n bytes at an address that n does not divide does. The spec names `bytewise`
only; `lowBitsZero`, the low address bits taken as 0, is what log 16 names as would disprove it. -/
inductive Misaligned where
  | bytewise
  | lowBitsZero
deriving DecidableEq, Repr

/-- `OFFSET16_EXT` (D4). -/
inductive OffsetExt where
  | zero
  | sign
deriving DecidableEq, Repr

/-- `SUB_ORDER` (D9). -/
inductive SubOrder where
  | sourceMinusDestination
  | destinationMinusSource
deriving DecidableEq, Repr

/-- `SUB_CARRY_SENSE` (D10): what C = 1 means after a subtraction. -/
inductive CarrySense where
  | borrow
  | noBorrow
deriving DecidableEq, Repr

/-- `STACK_BASE_RULE` (D15): the lowest byte of an n byte stack access, SP itself or SP − n + 1. -/
inductive StackBase where
  | atSp
  | itemBelow
deriving DecidableEq, Repr

/-- `TRAP_PUSHED_FLAGS` (D18): the Flags image pushed, from before or after I and B change. -/
inductive PushedFlags where
  | before
  | after
deriving DecidableEq, Repr

/-- `FLUSH_BITS_SELF_CLEAR` (D28): what FDC, FIC, FTL read back as after being set. -/
inductive FlushReadback where
  | unspecified
  | selfClearing
  | sticky
deriving DecidableEq, Repr

/-- The parameter table of 00_scope.md R7, for the parameters that have a default, and the three of reset. -/
structure Params where
  dataEndian : Endian
  misaligned : Misaligned
  offset16Ext : OffsetExt
  r7ReadBias : Word
  subOrder : SubOrder
  subCarrySense : CarrySense
  stSetsZN : Bool
  /-- `CNTR_WIDTHS`: bytes moved by LCNTR and SCNTR for width bit 0 and 1 (D13). -/
  cntrWidths : Size × Size
  shiftMemWriteback : Bool
  stackBaseRule : StackBase
  trapPushedFlags : PushedFlags
  flushBits : FlushReadback
  icacheCoherent : Bool
  resetPc : Word
  resetSp : Word
  resetFlags : Half
deriving DecidableEq, Repr

/-! ### The vocabulary of the open parameters -/

/-- What an access is for (60_exceptions.md R251: "kind is fetch, read or write"). -/
inductive AccessKind where
  | fetch
  | read
  | write
deriving DecidableEq, Repr

/-- The three kinds of bus routing of 20_memory.md R82 (b). -/
inductive Routing where
  | ioBus
  | sdram
  | writeBothReadSdram
deriving DecidableEq, Repr

/-- What the MMU's setting for a 1 KB block answers to one kind of access (R82): a physical block with a routing, or a
trap (R84). -/
inductive BlockMapping where
  | mapped (block : BitVec 22) (routing : Routing)
  | trap
deriving DecidableEq, Repr, Inhabited

/-- The MMU's whole setting for a 1 KB block (R82): its answer to each kind of access (R84 leaves open whether they
differ). This is what a translation entry holds (R85). -/
structure BlockSetting where
  fetch : BlockMapping
  read : BlockMapping
  write : BlockMapping
deriving DecidableEq, Repr

/-- A translation entry the TLB holds (20_memory.md R85): the setting of `block` that an access of any kind has used since
the last FTL request. -/
structure TlbEntry where
  block : BitVec 22
  setting : BlockSetting
deriving DecidableEq, Repr

/-- What the MMU adds to what an answer may depend on while Flags.MMU = 1 (20_memory.md R86): M0, M1 and the TLB. -/
structure MmuView where
  m0 : Word
  m1 : Word
  tlb : List TlbEntry
deriving DecidableEq, Repr

/-- An interrupt source (60_exceptions.md R254, R255): the MMU interrupt, or one the platform names by a number. -/
inductive IntSource where
  | mmu
  | external (n : Nat)
deriving DecidableEq, Repr

/-- `IntEntry(source)` of 60_exceptions.md R256: the frame's width and the vector's address. -/
structure VectorEntry where
  width : TransferWidth
  vector : Word
deriving DecidableEq, Repr, Inhabited

/-- `MmuTrapEntry` of 60_exceptions.md R258: `IntEntry`'s shape, the address to push, and what becomes of the instruction's
partial effects. The model's choice where R253 and R258 leave it open (log 7): all of them are undone or none is. -/
structure MmuTrapEntry where
  width : TransferWidth
  vector : Word
  returnTo : Word
  undo : Bool
deriving DecidableEq, Repr, Inhabited

/-! ### Open parameters and free values (opaque: no value can be proved of them) -/

/-- FREE VALUE. `draw` of 00_scope.md R15: the k-th value under no law; a narrower draw takes its low bits. -/
opaque Config.freeWord : Nat → Word

/-- OPEN PARAMETER `TrapVectorAddr(t, w)` (43_control_system.md R192, D19). -/
opaque Config.trapVectorAddr : BitVec 5 → TransferWidth → Word

/-- OPEN PARAMETER `IntEntry(source)` (60_exceptions.md R256, D20). -/
opaque Config.intEntry : IntSource → VectorEntry

/-- OPEN PARAMETER `Translate` (20_memory.md R86, D29), by blocks of 1 KB (R79): from M0, M1, the two memories, the
virtual block and the access kind. -/
opaque Config.translate :
  (m0 m1 : Word) → (io sdram : List Host.Cell) → (block : BitVec 22) → AccessKind → BlockMapping

/-- OPEN PARAMETER `MmuTrapEntry(va, kind)` (60_exceptions.md R258, D29); it may also read the instruction's address. -/
opaque Config.mmuTrapEntry : (va ia : Word) → AccessKind → MmuTrapEntry

/-- OPEN PARAMETER of the platform, the MMU interrupt request of `Translate` (20_memory.md R83, R86, 60_exceptions.md R255):
does writing the byte `new` at $0000 or $0001, by a store to `va` that reaches `pa` with this routing, change the C-64 ROM
control signals? It is given what R86 names, as it stands when the access begins: every byte of the two memories (that of
the other control location among them), and, while Flags.MMU = 1 only (`State.mmuView`), M0, M1 and the TLB.
The spec does not say which byte is the old value of the signals when a block reaches SDRAM, nor whether a write that does
not reach the I/O bus counts, nor whether the signals depend on both control locations: the platform decides (log 13). A
platform without those signals answers false. -/
opaque Config.romSignalsChange (mmu : Option MmuView) (io sdram : Word → Byte) (va pa : Word) (routing : Routing)
  (new : Byte) : Bool

end Sys2Proof
end

