-- ==== Sys2Proof/Machine/Params.lean ====
section
/-! DEFINITION. The value this model takes for each parameter of 00_scope.md R7: the spec's default, and for the three
reset parameters, which have none, zero (log 2). -/

namespace Sys2Proof.Machine

/-- The defaults of the table in 00_scope.md R7. -/
def params : Params where
  dataEndian := .little
  misaligned := .bytewise
  offset16Ext := .zero
  r7ReadBias := 2
  subOrder := .sourceMinusDestination
  subCarrySense := .borrow
  stSetsZN := true
  cntrWidths := (.one, .two)
  shiftMemWriteback := false
  stackBaseRule := .atSp
  trapPushedFlags := .before
  flushBits := .unspecified
  icacheCoherent := false
  resetPc := 0
  resetSp := 0
  resetFlags := 0

end Sys2Proof.Machine
end

