-- ==== Sys2Proof/Syntax.lean ====
section
/-! DEFINITION. The instructions of the 65GZ032, one constructor per row of spec/opcode_table.json: the 46 extended
instructions and the 12 reserved patterns. -/

namespace Sys2Proof

/-- A three bit register field (30_encoding.md R104). R6 is SP, R7 is PC, R0 the implicit register. -/
inductive Reg where
  | r0 | r1 | r2 | r3 | r4 | r5 | r6 | r7
deriving DecidableEq, Repr

/-- The MMU register selected by `hw[0]` of LMMU and SMMU (10_state.md R49). -/
inductive MmuReg where
  | m0 | m1
deriving DecidableEq, Repr

/-- The ALU column of the addressing modes (30_encoding.md R105). -/
inductive AluSrc where
  | indirect (base : Reg)
  | indexed (base : Reg) (offset : Half)
  | reg (r : Reg)
  | imm (value : Half)
deriving DecidableEq, Repr

/-- The ALU column without the immediate: the operand of the shifts and the one-operand instructions (R105). -/
inductive UnOp where
  | indirect (base : Reg)
  | indexed (base : Reg) (offset : Half)
  | reg (r : Reg)
deriving DecidableEq, Repr

/-- The Load/Store column of the addressing modes (R105); with base R6 the last two are `[++SP]` and `[SP--]` (R107). -/
inductive MemOp where
  | indirect (base : Reg)
  | indexed (base : Reg) (offset : Half)
  | autoInc (base : Reg)
  | autoDec (base : Reg)
deriving DecidableEq, Repr

/-- The two modes of MOV and MOVX (Table 2-3, R105). -/
inductive MovSrc where
  | reg (r : Reg)
  | imm (value : Half)
deriving DecidableEq, Repr

/-- The shift amount (R112). -/
inductive Amount where
  | one | two | three | four
deriving DecidableEq, Repr

/-- One constructor per row of the opcode table. The reserved rows (30_encoding.md R118) carry the bits the row leaves
free, in the order of the fields mm, a = `hw[7:5]`, b = `hw[4:2]`, c = `hw[1:0]`. -/
inductive Instr where
  | or (src : AluSrc) (rd : Reg) (w : Width)
  | and (src : AluSrc) (rd : Reg) (w : Width)
  | eor (src : AluSrc) (rd : Reg) (w : Width)
  | add (src : AluSrc) (rd : Reg) (w : Width)
  | addc (src : AluSrc) (rd : Reg) (w : Width)
  | sub (src : AluSrc) (rd : Reg) (w : Width)
  | subc (src : AluSrc) (rd : Reg) (w : Width)
  | cmp (src : AluSrc) (rd : Reg) (w : Width)
  | ld (src : MemOp) (rd : Reg) (w : Width)
  | st (dst : MemOp) (data : Reg) (w : Width)
  | mov (src : MovSrc) (rd : Reg) (w : Width)
  | movx (src : MovSrc) (rd : Reg) (w : Width)
  | jsr (target : AluSrc) (w : TransferWidth)
  | ret (w : TransferWidth)
  | trap (t : BitVec 5) (w : TransferWidth)
  | trapb (t : BitVec 5) (w : TransferWidth)
  | reti (w : TransferWidth)
  | lcntr (src : MemOp) (w : CntrWidth)
  | scntr (dst : MemOp) (w : CntrWidth)
  | cflag (k : BitVec 4)
  | sflag (k : BitVec 4)
  | lmmu (src : MemOp) (n : MmuReg)
  | smmu (dst : MemOp) (n : MmuReg)
  | shl (op : UnOp) (k : Amount) (w : Width)
  | shlc (op : UnOp) (k : Amount) (w : Width)
  | shr (op : UnOp) (k : Amount) (w : Width)
  | shrc (op : UnOp) (k : Amount) (w : Width)
  | inc (op : UnOp) (w : Width)
  | dec (op : UnOp) (w : Width)
  | swap (op : UnOp) (w : Width)
  | mirror (op : UnOp) (w : Width)
  | bit (op : UnOp) (w : Width)
  | bpl (taken : Bool) (disp : BitVec 20)
  | bmi (taken : Bool) (disp : BitVec 20)
  | bvc (taken : Bool) (disp : BitVec 20)
  | bvs (taken : Bool) (disp : BitVec 20)
  | bcc (taken : Bool) (disp : BitVec 20)
  | bcs (taken : Bool) (disp : BitVec 20)
  | bne (taken : Bool) (disp : BitVec 20)
  | beq (taken : Bool) (disp : BitVec 20)
  | bge (taken : Bool) (disp : BitVec 20)
  | blt (taken : Bool) (disp : BitVec 20)
  | bgt (taken : Bool) (disp : BitVec 20)
  | ble (taken : Bool) (disp : BitVec 20)
  | bpo (taken : Bool) (disp : BitVec 20)
  | bra (taken : Bool) (disp : BitVec 20)
  | reserved1011x111 (mm : BitVec 2) (a : BitVec 3) (c : BitVec 2)
  | reserved1110x101 (mm : BitVec 2) (a : BitVec 3) (c : BitVec 2)
  | reserved1110x110 (mm : BitVec 2) (a : BitVec 3) (c : BitVec 2)
  | reserved1110x111 (mm : BitVec 2) (a : BitVec 3) (c : BitVec 2)
  | reservedShlMode11 (a : BitVec 3) (b : BitVec 3) (c : BitVec 2)
  | reservedShrMode11 (a : BitVec 3) (b : BitVec 3) (c : BitVec 2)
  | reservedUnaryMode11 (a : BitVec 3) (b : BitVec 3) (c : BitVec 2)
  | reservedSwapB (mm : BitVec 2) (a : BitVec 3)
  | reservedMirrorHL (mm : BitVec 2) (a : BitVec 3) (c0 : Bool)
  | reservedBranchTest1101 (taken : Bool) (b : BitVec 3) (c : BitVec 2)
  | reservedBranchTest1111 (taken : Bool) (b : BitVec 3) (c : BitVec 2)
  | reservedBranchExtend0 (mm : BitVec 2) (a : BitVec 3) (d : BitVec 2) (c : BitVec 2)
deriving DecidableEq, Repr

end Sys2Proof
end

