-- ==== Sys2Proof/Machine/State.lean ====
section
/-! DEFINITION. The machine's state as plain data (10_state.md R30, R52), why a step can stop, and the state after reset.
INVENTORY.md's '## State' names the rule and the reset value of every field. -/

namespace Sys2Proof.Machine

/-- One of the two memories a bus reaches, as a list of address and byte pairs in canonical form (Ops.lean,
`Memory.wf`): the whole space of 2^32 bytes, an unlisted address reading as `Memory.unlisted`. -/
abbrev Memory := List Host.Cell

/-- The two buses of 20_memory.md R82: the I/O bus, which carries every access while Flags.MMU = 0 (R80), and SDRAM. -/
inductive Bus where
  | io
  | sdram
deriving DecidableEq, Repr

/-- A byte that a fetch with Flags.ICA = 1 may still return: `old` stood at `addr` on `bus` when a store replaced it,
and no FIC request has come since (20_memory.md R91). -/
structure StaleByte where
  bus : Bus
  addr : Word
  old : Byte
deriving DecidableEq, Repr

/-- The state of the machine. `pc` is R7 between two instructions and the address `ia` inside one; R0 is no field
(10_state.md R33): it reads `ri` while `riValid`, and zero otherwise. `nextPc`, `riWritten` and `riHoldNext` live inside
one instruction (00_scope.md R15). `riHold`, `riHoldNext` and `draws` are the model's own (log 11, log 12). -/
structure State where
  r1 : Word
  r2 : Word
  r3 : Word
  r4 : Word
  r5 : Word
  r6 : Word
  pc : Word
  nextPc : Word
  ri : Word
  riValid : Bool
  riWritten : Bool
  riHold : Bool
  riHoldNext : Bool
  flags : Half
  m0 : Word
  m1 : Word
  mem : Memory
  sdram : Memory
  stale : List StaleByte
  tlb : List TlbEntry
  pending : List IntSource
  draws : Nat
deriving DecidableEq, Repr

/-- Why the machine stops. The extended set has no halt and no fatal error of its own (60_exceptions.md R250, R252), so
there is one reason. -/
inductive Fault where
  /-- Raised by an MMU access trap entry whose own frame push or vector read asks for an MMU access trap: the spec has no
  double-fault rule and leaves a trap raised there open (60_exceptions.md R258, R261). Safe: the model stops. -/
  | mmuTrapWhileEntering (va : Word) (kind : AccessKind)
deriving DecidableEq, Repr

/-- Why an instruction is given no meaning. Every one is safe: the model stops where the hardware may go on. -/
inductive Refusal where
  /-- Raised by `exec` for an instruction whose meaning is not written yet. Safe. -/
  | notModelled (mnemonic : String)
  /-- Raised by `step` when the first byte at `pc` does not end in binary 11 (30_encoding.md R121). Safe. -/
  | sixFiveOhTwoOpcode (byte0 : Byte)
  /-- Raised by `step` when fewer bytes were fetched than the decoder asks for; the fetch never does that. Safe. -/
  | truncatedInstruction
  /-- Raised by the four Expansion rows (R118 items 1 to 4, R119). Safe. -/
  | reservedExpansion
  /-- Raised by mode 11 of the shifts and of the one-operand instructions (R118 items 5, 6, R119). Safe. -/
  | reservedMode11
  /-- Raised by SWAP.B, MIRROR.H and MIRROR.L (R118 items 7, 8, R119). Safe. -/
  | reservedWidth
  /-- Raised by the branch tests 1101 and 1111 (R118 item 9, 46_branch.md R248). Safe. -/
  | reservedBranchTest
  /-- Raised by a branch with Extend = 0 (R118 item 10, 46_branch.md R247). Safe. -/
  | reservedExtend0
  /-- Raised by an autoincrement or autodecrement mode with base R0 (30_encoding.md R108 (a)). Safe. -/
  | autoModeBaseR0
  /-- Raised by LD with base = destination in an auto mode (R108 (b)). Safe. -/
  | autoModeBaseIsDestination
  /-- Raised by ST with base = data register in an auto mode (R108 (c)). Safe. -/
  | autoModeBaseIsData
deriving DecidableEq, Repr

/-- The machine right after reset: Flags.MMU = 0 and `ri_valid` = 0 as 10_state.md R53 says. The spec gives no other
value; registers, pc and the other flags are 0, or what Params.lean names (DESIGN CHOICE, log 2), the memories list nothing (log 1), the caches and
the pending set are empty. -/
def State.reset : State where
  r1 := 0
  r2 := 0
  r3 := 0
  r4 := 0
  r5 := 0
  r6 := params.resetSp
  pc := params.resetPc
  nextPc := params.resetPc
  ri := 0
  riValid := false
  riWritten := false
  riHold := false
  riHoldNext := false
  flags := params.resetFlags &&& 0x7FFF
  m0 := 0
  m1 := 0
  mem := []
  sdram := []
  stale := []
  tlb := []
  pending := []
  draws := 0

end Sys2Proof.Machine
end

