-- ==== Sys2Proof/Machine/Flags.lean ====
section
/-! DEFINITION. The Flags register's bits (10_state.md R42) and every flag computation of the spec: SetZN, the laws of
addition, subtraction and shifts, and the branch tests. -/

namespace Sys2Proof.Machine

/-! ### The sixteen bits (Table 2-6) -/

/-- The bits of Flags by name; 8 and 9 have none (10_state.md R45). -/
inductive Flag where
  | c | z | i | d | b | e | v | n | bit8 | bit9 | fdc | fic | dca | ica | ftl | mmu
deriving DecidableEq, Repr

/-- The bit position (10_state.md R42). -/
def flagIndex (k : Flag) : Nat :=
  match k with
  | .c => 0
  | .z => 1
  | .i => 2
  | .d => 3
  | .b => 4
  | .e => 5
  | .v => 6
  | .n => 7
  | .bit8 => 8
  | .bit9 => 9
  | .fdc => 10
  | .fic => 11
  | .dca => 12
  | .ica => 13
  | .ftl => 14
  | .mmu => 15

/-- The value of one flag in a Flags image. -/
def getFlag (f : Half) (k : Flag) : Bool := f.getLsbD (flagIndex k)

/-- A Flags image with bit `k` set to `v` and the other bits kept. -/
def setBit (f : Half) (k : Nat) (v : Bool) : Half :=
  if v then f ||| (1#16 <<< k) else f &&& ~~~(1#16 <<< k)

/-- A Flags image with one named flag set to `v`. -/
def setFlag (f : Half) (k : Flag) (v : Bool) : Half := setBit f (flagIndex k) v

/-- FDC, FIC and FTL, the three flush commands (10_state.md R46): bits 10, 11 and 14. -/
def flushMask : Half := 0x4C00

/-! ### Results to flags -/

/-- `SetZN(r, n)` (00_scope.md R13). -/
def setZN {n : Nat} (r : BitVec n) (f : Half) : Half :=
  setFlag (setFlag f .z (r == 0#n)) .n r.msb

/-- What an addition or subtraction gives: the result, the carry and the overflow. -/
structure ArithResult (n : Nat) where
  r : BitVec n
  c : Bool
  v : Bool
deriving DecidableEq, Repr

/-- The law of addition (40_alu2op.md R143): the exact sum, narrowed to n bits. -/
def addLaw {n : Nat} (a b : BitVec n) (cin : Bool) : ArithResult n :=
  let t := a.toNat + b.toNat + cin.toNat
  let r := BitVec.ofNat n t
  { r := r, c := decide (2 ^ n ≤ t), v := a.msb == b.msb && r.msb != a.msb }

/-- The exact law of x − y − borrow (40_alu2op.md R144): `c` is the borrow out of bit n−1. -/
def borrowLaw {n : Nat} (x y : BitVec n) (borrow : Bool) : ArithResult n :=
  let t : Int := (x.toNat : Int) - (y.toNat : Int) - (borrow.toNat : Int)
  let r := BitVec.ofInt n t
  { r := r, c := decide (t < 0), v := x.msb != y.msb && r.msb != x.msb }

/-- The law of SUB, SUBC and CMP (R144): `a` the source operand, `b` the destination; SUB_ORDER says which is the minuend,
SUB_CARRY_SENSE what C = 1 means. `borrow` is the borrow taken in. -/
def subLaw {n : Nat} (a b : BitVec n) (borrow : Bool) : ArithResult n :=
  let t := match params.subOrder with
    | .sourceMinusDestination => borrowLaw a b borrow
    | .destinationMinusSource => borrowLaw b a borrow
  match params.subCarrySense with
  | .borrow => t
  | .noBorrow => { t with c := !t.c }

/-- The borrow that SUBC takes from Flags.C (R144, SUB_CARRY_SENSE). -/
def borrowIn (f : Half) : Bool :=
  match params.subCarrySense with
  | .borrow => getFlag f .c
  | .noBorrow => !getFlag f .c

/-- Flags after an arithmetic result that writes C, Z, V and N. -/
def setCZVN {n : Nat} (t : ArithResult n) (f : Half) : Half :=
  setZN t.r (setFlag (setFlag f .c t.c) .v t.v)

/-- Flags after CMP, which writes C, Z and N and leaves V (40_alu2op.md R152). -/
def setCZN {n : Nat} (r : BitVec n) (c : Bool) (f : Half) : Half :=
  setZN r (setFlag f .c c)

/-! ### Shifts (44_shift.md R215) -/

/-- `ShlLaw(v, k, f)`: shift left, the k vacated low bits copies of `fill`; the carry is the last bit shifted out. -/
def shlLaw {n : Nat} (v : BitVec n) (k : Nat) (fill : Bool) : BitVec n × Bool :=
  ((v <<< k) ||| (if fill then BitVec.ofNat n (2 ^ k - 1) else 0#n), v.getLsbD (n - k))

/-- `ShrLaw(v, k, f)`: shift right, the k vacated high bits copies of `fill`. -/
def shrLaw {n : Nat} (v : BitVec n) (k : Nat) (fill : Bool) : BitVec n × Bool :=
  ((v >>> k) ||| (if fill then BitVec.allOnes n <<< (n - k) else 0#n), v.getLsbD (k - 1))

/-! ### Branch tests (46_branch.md R230, Table 2-7) -/

/-- N xor V. -/
def lessThan (f : Half) : Bool := getFlag f .n != getFlag f .v

end Sys2Proof.Machine
end

