-- ==== Sys2Proof/Machine/Ops.lean ====
section
/-! DEFINITION. The named operations every meaning is built from: the result of a part of an instruction, free values,
memory, translation, registers, the stack, the Flags register as a whole, taking an exception and returning from one, and
the frame of one instruction. -/

namespace Sys2Proof.Machine

/-! ### The result of a part of an instruction -/

/-- A part of an instruction gives a value and the state after it, or meets an MMU access trap in the state `s`
(20_memory.md R84, 60_exceptions.md R251), or has no meaning. -/
inductive Res (α : Type) where
  | ok (a : α) (s : State)
  | trap (va : Word) (kind : AccessKind) (s : State)
  | refused (r : Refusal)
deriving Repr

/-- Go on with the next part: the first trap or refusal ends the instruction (60_exceptions.md R259). -/
def Res.bind {α β : Type} (x : Res α) (k : α → State → Res β) : Res β :=
  match x with
  | .ok a s => k a s
  | .trap va kind s => .trap va kind s
  | .refused r => .refused r

/-! ### Flags and free values in the state -/

/-- One flag of the state. -/
def State.flag (s : State) (k : Flag) : Bool := getFlag s.flags k

/-- Flags replaced, with no flush requested. -/
def State.withFlags (s : State) (f : Half) : State := { s with flags := f }

/-- `next_pc` replaced: `pc <- target` of 00_scope.md R15. -/
def State.withNextPc (s : State) (target : Word) : State := { s with nextPc := target }

/-- The next free value (`draw`, 00_scope.md R15). -/
def State.drawn (s : State) : Word := Config.freeWord s.draws

/-- The state after one free value has been consumed. -/
def State.afterDraw (s : State) : State := { s with draws := s.draws + 1 }

/-! ### A memory as a list in canonical form -/

/-- What an address no entry lists reads as (DESIGN CHOICE, log 1). -/
def Memory.unlisted : Byte := 0

/-- The byte at an address. -/
def Memory.read (m : Memory) (a : Nat) : Byte :=
  match m with
  | [] => Memory.unlisted
  | (b, v) :: rest => if b = a then v else Memory.read rest a

/-- The memory without any entry for an address. -/
def Memory.erase (m : Memory) (a : Nat) : Memory :=
  match m with
  | [] => []
  | (b, u) :: rest => if b = a then Memory.erase rest a else (b, u) :: Memory.erase rest a

/-- The memory with an entry put before the first entry of a higher address. -/
def Memory.insert (m : Memory) (a : Nat) (v : Byte) : Memory :=
  match m with
  | [] => [(a, v)]
  | (b, u) :: rest => if a < b then (a, v) :: (b, u) :: rest else (b, u) :: Memory.insert rest a v

/-- The memory with one byte written; the byte an unlisted address reads as is written by erasing the entry, so that the
canonical form is kept. -/
def Memory.write (m : Memory) (a : Nat) (v : Byte) : Memory :=
  if v = Memory.unlisted then Memory.erase m a else Memory.insert (Memory.erase m a) a v

/-- Canonical form from an address on: addresses strictly rising, all below 2^32, no entry equal to what an unlisted
address reads as. -/
def Memory.wfFrom (lo : Nat) (m : Memory) : Bool :=
  match m with
  | [] => true
  | (a, v) :: rest => lo ≤ a && a < 2 ^ 32 && v != Memory.unlisted && Memory.wfFrom (a + 1) rest

/-- The canonical form of a memory. -/
def Memory.wf (m : Memory) : Bool := Memory.wfFrom 0 m

/-! ### The two buses -/

/-- The memory behind a bus. -/
def State.busMem (s : State) (bus : Bus) : Memory :=
  match bus with
  | .io => s.mem
  | .sdram => s.sdram

/-- One byte of the memory behind a bus. -/
def State.busByte (s : State) (bus : Bus) (addr : Word) : Byte := (s.busMem bus).read addr.toNat

/-- The stale bytes after a store has replaced `old` (20_memory.md R91); none when ICACHE_COHERENT. -/
def staleAfterStore (l : List StaleByte) (e : StaleByte) : List StaleByte :=
  if params.icacheCoherent || l.contains e then l else e :: l

/-- One byte written to the memory behind a bus. -/
def State.busWrite (s : State) (bus : Bus) (addr : Word) (v : Byte) : State :=
  let stale := staleAfterStore s.stale { bus := bus, addr := addr, old := s.busByte bus addr }
  match bus with
  | .io => { s with mem := s.mem.write addr.toNat v, stale := stale }
  | .sdram => { s with sdram := s.sdram.write addr.toNat v, stale := stale }

/-- The bus a routing reads from (20_memory.md R82 (b)). -/
def readBus (r : Routing) : Bus :=
  match r with
  | .ioBus => .io
  | .sdram => .sdram
  | .writeBothReadSdram => .sdram

/-- One byte written where a routing sends it. -/
def State.routedWrite (s : State) (r : Routing) (addr : Word) (v : Byte) : State :=
  match r with
  | .ioBus => s.busWrite .io addr v
  | .sdram => s.busWrite .sdram addr v
  | .writeBothReadSdram => (s.busWrite .io addr v).busWrite .sdram addr v

/-- An interrupt source becomes pending (60_exceptions.md R255); the host's act between two steps, or the MMU's. -/
def State.request (s : State) (src : IntSource) : State :=
  if s.pending.contains src then s else { s with pending := s.pending ++ [src] }

/-- What the MMU adds to what an answer may depend on. While Flags.MMU = 0 that is nothing: M0 and M1 are not consulted
(70_reset_and_hazards.md R281), nor is the TLB, as nothing is translated (20_memory.md R80; DEDUCED, log 13). -/
def State.mmuView (s : State) : Option MmuView :=
  if s.flag .mmu then some { m0 := s.m0, m1 := s.m1, tlb := s.tlb } else none

/-- Does the byte `new`, written by a store that begins in `s`, change the ROM control signals (20_memory.md R83, R86,
60_exceptions.md R255)? Only a write that covers $0000 or $0001 does, and what it changes is the platform's. The model's
choice (log 13): the virtual and the physical address both count, and each byte of an access is asked about by itself. -/
def State.romSignals (s : State) (va pa : Word) (routing : Routing) (new : Byte) : Bool :=
  (va.toNat < 2 || pa.toNat < 2) &&
    Config.romSignalsChange s.mmuView (s.busByte .io) (s.busByte .sdram) va pa routing new

/-- The MMU interrupt (20_memory.md R83): a change of the ROM control signals makes it pending. -/
def State.noteRomWrite (s : State) (changed : Bool) : State := if changed then s.request .mmu else s

/-! ### Translation (20_memory.md R79 to R86) -/

/-- The answer of a block's setting to one kind of access. -/
def settingMapping (b : BlockSetting) (kind : AccessKind) : BlockMapping :=
  match kind with
  | .fetch => b.fetch
  | .read => b.read
  | .write => b.write

/-- The setting of a block that the table in memory gives now (R81), `Translate` asked for every kind of access. -/
def State.tableSetting (s : State) (block : BitVec 22) : BlockSetting where
  fetch := Config.translate s.m0 s.m1 s.mem s.sdram block .fetch
  read := Config.translate s.m0 s.m1 s.mem s.sdram block .read
  write := Config.translate s.m0 s.m1 s.mem s.sdram block .write

/-- The settings the TLB holds for a block, whichever kind of access brought them in. -/
def tlbSettings (tlb : List TlbEntry) (block : BitVec 22) : List BlockSetting :=
  (tlb.filter (fun e => e.block == block)).map TlbEntry.setting

/-- The TLB after an entry has been used. -/
def tlbAfterUse (tlb : List TlbEntry) (e : TlbEntry) : List TlbEntry :=
  if tlb.contains e then tlb else e :: tlb

/-- The setting a translated access uses: the table's, or one the TLB still holds (R85), as a free value says. -/
def State.blockSetting (s : State) (block : BitVec 22) : BlockSetting :=
  ((tlbSettings s.tlb block)[s.drawn.toNat]?).getD (s.tableSetting block)

/-- The mapping of a translated access. -/
def State.blockMapping (s : State) (block : BitVec 22) (kind : AccessKind) : BlockMapping :=
  settingMapping (s.blockSetting block) kind

/-- The state after a translation of `va`: the setting it used stands in the TLB (R85), and a free value is consumed. -/
def State.translatedBy (s : State) (va : Word) : State :=
  { s.afterDraw with
    tlb := tlbAfterUse s.tlb { block := va.extractLsb' 10 22, setting := s.blockSetting (va.extractLsb' 10 22) } }

/-- The physical address and routing of a byte access: the virtual address on the I/O bus while Flags.MMU = 0 (R80);
otherwise by 1 KB block, the offset within the block kept (R79), or an access trap (R84). The model's choices (log 7),
where R84 and 60_exceptions.md R251, R253 are silent. A byte access that traps is not made: nothing is read or written
by it, then or after the trap's entry. An access of several bytes, or a fetch, that traps reports the address of
the first byte that traps, not the address the access starts at. -/
def translate (kind : AccessKind) (va : Word) (s : State) : Res (Routing × Word) :=
  if s.flag .mmu then
    match s.blockMapping (va.extractLsb' 10 22) kind with
    | .mapped block routing => .ok (routing, block ++ va.extractLsb' 0 10) (s.translatedBy va)
    | .trap => .trap va kind (s.translatedBy va)
  else .ok (.ioBus, va) s

/-! ### Data accesses (00_scope.md R12) -/

/-- The number of bytes of an access. -/
def Size.bytes (n : Size) : Nat :=
  match n with
  | .one => 1
  | .two => 2
  | .four => 4

/-- One byte read for a data access. -/
def loadByte (va : Word) (s : State) : Res Byte :=
  (translate .read va s).bind fun p s => .ok (s.busByte (readBus p.1) p.2) s

/-- One byte written for a data access. What becomes of the ROM control signals is asked of the state before it (log 13). -/
def storeByte (va : Word) (v : Byte) (s : State) : Res Unit :=
  (translate .write va s).bind fun p t =>
    .ok () ((t.routedWrite p.1 p.2 v).noteRomWrite (s.romSignals va p.2 p.1 v))

/-- `n` consecutive bytes read, lowest address first, addresses modulo 2^32 (20_memory.md R71, R75). -/
def loadBytes (n : Nat) (va : Word) (s : State) : Res (List Byte) :=
  match n with
  | 0 => .ok [] s
  | n + 1 =>
    (loadByte va s).bind fun b s =>
      (loadBytes n (va + 1) s).bind fun bs s => .ok (b :: bs) s

/-- Consecutive bytes written, lowest address first. -/
def storeBytes (va : Word) (bs : List Byte) (s : State) : Res Unit :=
  match bs with
  | [] => .ok () s
  | b :: bs => (storeByte va b s).bind fun _ s => storeBytes (va + 1) bs s

/-- The number whose least significant byte comes first. -/
def littleValue (bs : List Byte) : Word :=
  match bs with
  | [] => 0
  | b :: bs => (littleValue bs <<< 8) ||| b.setWidth 32

/-- The value of bytes in address order (20_memory.md R74, DATA_ENDIAN). -/
def bytesValue (bs : List Byte) : Word :=
  match params.dataEndian with
  | .little => littleValue bs
  | .big => littleValue bs.reverse

/-- The low `n` bytes of a value, least significant first. -/
def littleBytes (n : Nat) (v : Word) : List Byte :=
  match n with
  | 0 => []
  | n + 1 => v.setWidth 8 :: littleBytes n (v >>> 8)

/-- The bytes of a value in address order (20_memory.md R74, DATA_ENDIAN). -/
def valueBytes (n : Size) (v : Word) : List Byte :=
  match params.dataEndian with
  | .little => littleBytes (Size.bytes n) v
  | .big => (littleBytes (Size.bytes n) v).reverse

/-- The lowest byte address of an n byte access at `addr` (20_memory.md R75, MISALIGNED). -/
def accessAddr (n : Size) (addr : Word) : Word :=
  match params.misaligned with
  | .bytewise => addr
  | .lowBitsZero => addr &&& ~~~BitVec.ofNat 32 (Size.bytes n - 1)

/-- `MemRead(addr, n)` (00_scope.md R12), zero-extended to 32 bits. -/
def memRead (n : Size) (addr : Word) (s : State) : Res Word :=
  (loadBytes (Size.bytes n) (accessAddr n addr) s).bind fun bs s => .ok (bytesValue bs) s

/-- `MemWrite(addr, n, v)` (00_scope.md R12): the low n bytes of `v`. -/
def memWrite (n : Size) (addr : Word) (v : Word) (s : State) : Res Unit :=
  storeBytes (accessAddr n addr) (valueBytes n v) s

/-! ### Registers (00_scope.md R11) -/

/-- `RegRead(i)`: R0 reads Ri while `ri_valid` and zero otherwise (10_state.md R33), R7 reads `ia` + R7_READ_BIAS (R40). -/
def State.regRead (s : State) (i : Reg) : Word :=
  match i with
  | .r0 => if s.riValid then s.ri else 0
  | .r1 => s.r1
  | .r2 => s.r2
  | .r3 => s.r3
  | .r4 => s.r4
  | .r5 => s.r5
  | .r6 => s.r6
  | .r7 => s.pc + params.r7ReadBias

/-- `RegWrite(i, v)`: a write to R0 goes to Ri and holds interrupts off for the next boundary (10_state.md R34, R35), a
write to R7 is a jump (R40). -/
def State.regWrite (s : State) (i : Reg) (v : Word) : State :=
  match i with
  | .r0 => { s with ri := v, riWritten := true, riHoldNext := true }
  | .r1 => { s with r1 := v }
  | .r2 => { s with r2 := v }
  | .r3 => { s with r3 := v }
  | .r4 => { s with r4 := v }
  | .r5 => { s with r5 := v }
  | .r6 => { s with r6 := v }
  | .r7 => { s with nextPc := v }

/-- The value of an MMU register (10_state.md R49). -/
def State.mmuReg (s : State) (n : MmuReg) : Word :=
  match n with
  | .m0 => s.m0
  | .m1 => s.m1

/-- An MMU register written. -/
def State.withMmuReg (s : State) (n : MmuReg) (v : Word) : State :=
  match n with
  | .m0 => { s with m0 := v }
  | .m1 => { s with m1 := v }

/-! ### The stack (00_scope.md R14) -/

/-- The lowest byte address of an n byte access through SP (STACK_BASE_RULE, 30_encoding.md R107). DESIGN CHOICE (the
spec's D15, log 27; against sentences of R193 and R289 on mismatched widths, log 41; unsafe): the item begins at SP. -/
def stackAddr (n : Size) (sp : Word) : Word :=
  match params.stackBaseRule with
  | .atSp => sp
  | .itemBelow => sp - BitVec.ofNat 32 (Size.bytes n) + 1

/-- `Push(n, v)`: write at SP, then lower SP. -/
def push (n : Size) (v : Word) (s : State) : Res Unit :=
  (memWrite n (stackAddr n (s.regRead .r6)) v s).bind fun _ s =>
    .ok () (s.regWrite .r6 (s.regRead .r6 - BitVec.ofNat 32 (Size.bytes n)))

/-- `Pop(n)`: raise SP, then read at the new SP, whatever the width of the item pushed there (log 41). -/
def pop (n : Size) (s : State) : Res Word :=
  let sp := s.regRead .r6 + BitVec.ofNat 32 (Size.bytes n)
  memRead n (stackAddr n sp) (s.regWrite .r6 sp)

/-! ### Flags as a whole -/

/-- `FlagsRead()` (43_control_system.md R180): a flush bit that is set reads back as a free value (10_state.md R46). -/
def State.flagsImage (s : State) : Half :=
  match params.flushBits with
  | .unspecified =>
    if s.flags &&& flushMask = 0 then s.flags
    else s.flags &&& (~~~flushMask ||| s.drawn.setWidth 16)
  | .selfClearing => s.flags &&& ~~~flushMask
  | .sticky => s.flags

/-- The state after `FlagsRead()`: a free value is consumed when a flush bit is set. -/
def State.afterFlagsRead (s : State) : State :=
  match params.flushBits with
  | .unspecified => if s.flags &&& flushMask = 0 then s else s.afterDraw
  | .selfClearing => s
  | .sticky => s

/-- Flags written with the flush requests of `req` (20_memory.md R92): FIC discards the stale bytes (R91), FTL the TLB
(R85); the data cache is transparent, so FDC changes nothing else. -/
def State.writeFlags (s : State) (f : Half) (req : Half) : State :=
  { s with
    flags := f
    stale := if getFlag req .fic then [] else s.stale
    tlb := if getFlag req .ftl then [] else s.tlb }

/-! ### Taking an exception and returning from one -/

/-- The bytes of an address moved by `.W` and `.L` (43_control_system.md R180). -/
def transferSize (w : TransferWidth) : Size :=
  match w with
  | .word => .two
  | .long => .four

/-- Flags.I <- 1 and Flags.B <- `brk`. -/
def enteredFlags (brk : Bool) (f : Half) : Half := setFlag (setFlag f .i true) .b brk

/-- Trap entry (60_exceptions.md R260; TRAP R183, TRAPB R184, interrupts R256): push the return address at the entry's
width, push the Flags image as two bytes, set I, set or clear B, and go on at the address read from the vector, zero
extended. -/
def takeException (w : TransferWidth) (returnTo vector : Word) (brk : Bool) (s : State) : Res Unit :=
  let image := match params.trapPushedFlags with
    | .before => s.flagsImage
    | .after => enteredFlags brk s.flagsImage
  (push (transferSize w) returnTo s.afterFlagsRead).bind fun _ s =>
    (push .two (image.setWidth 32) s).bind fun _ s =>
      (memRead (transferSize w) vector (s.withFlags (enteredFlags brk s.flags))).bind fun target s =>
        .ok () (s.withNextPc target)

/-- Return from interrupt (43_control_system.md R187): pop the Flags image, pop the return address, load all sixteen
flags (R195: after both reads), continue there. The width is not checked against the TRAP's: log 41. -/
def returnFromException (w : TransferWidth) (s : State) : Res Unit :=
  (pop .two s).bind fun f s =>
    (pop (transferSize w) s).bind fun target s =>
      .ok () ((s.writeFlags (f.setWidth 16) (f.setWidth 16)).withNextPc target)

/-! ### The frame of one instruction (00_scope.md R15) -/

/-- The start of an instruction of `len` bytes: `next_pc = ia + len`, R0 not written yet. -/
def State.startInstr (s : State) (len : Word) : State :=
  { s with nextPc := s.pc + len, riWritten := false, riHoldNext := false }

/-- The end of an instruction: `pc <- next_pc`, `ri_valid <- ri_written`, `ri_written <- false`. -/
def State.endInstr (s : State) : State :=
  { s with
    pc := s.nextPc
    riValid := s.riWritten
    riWritten := false
    riHold := s.riHoldNext
    riHoldNext := false }

/-- The entry of an MMU access trap met by an instruction that began in `s0` and had reached `s1`
(60_exceptions.md R258): the open parameter `MmuTrapEntry` gives the frame's width, the vector, the address to push and
whether the partial effects are undone; the shape is the interrupt's (R256). The model's choices where R253, R258 and R260
are silent (log 7). The partial effects are undone all together (registers, Flags, stored bytes, the bytes a fetch may
still see, the pending set) or not at all: a mix, such as the base register restored and stored bytes kept, is excluded.
The TLB keeps what the accesses brought in, and free values stay used up, in both cases. The entry leaves `ri_valid` 0 and
no interrupt held off, so that an Ri which the instruction before the trap wrote is lost, even with `undo`; a reader of R0
that is started again after the handler reads zero. -/
def takeMmuTrap (va : Word) (kind : AccessKind) (s0 s1 : State) : Host.Outcome State Fault Refusal :=
  let e := Config.mmuTrapEntry va s0.pc kind
  let s := if e.undo then { s0 with tlb := s1.tlb, draws := s1.draws } else s1
  match takeException e.width e.returnTo e.vector false s with
  | .ok _ s => .next s.endInstr
  | .trap va kind _ => .fault (.mmuTrapWhileEntering va kind)
  | .refused r => .refused r

/-- Run the body of an instruction of `len` bytes between its start and its end. -/
def run (len : Word) (body : State → Res Unit) (s : State) : Host.Outcome State Fault Refusal :=
  match body (s.startInstr len) with
  | .ok _ s' => .next s'.endInstr
  | .trap va kind s' => takeMmuTrap va kind (s.startInstr len) s'
  | .refused r => .refused r

end Sys2Proof.Machine
end

