-- ==== Sys2Proof/Machine/Operands.lean ====
section
/-! DEFINITION. Every operand form: lanes (00_scope.md R10), immediates (30_encoding.md R111), effective addresses (R106
to R108), source operands and result places. -/

namespace Sys2Proof.Machine

/-! ### Widths and lanes (00_scope.md R10) -/

/-- `nbits(ww)`. -/
def widthBitCount (w : Width) : Nat :=
  match w with
  | .byte => 8
  | .word => 16
  | .high => 16
  | .long => 32

/-- `nbytes(ww)`. -/
def widthSize (w : Width) : Size :=
  match w with
  | .byte => .one
  | .word => .two
  | .high => .two
  | .long => .four

/-- The lowest register bit of `lane(ww)`. -/
def laneLow (w : Width) : Nat :=
  match w with
  | .byte => 0
  | .word => 0
  | .high => 16
  | .long => 0

/-- The bits of a 32 bit value in the lane of a width. -/
def laneOf (w : Width) (t : Word) : BitVec (widthBitCount w) := t.extractLsb' (laneLow w) (widthBitCount w)

/-- The mask of a lane. -/
def laneMask (w : Width) : Word := (BitVec.allOnes (widthBitCount w)).setWidth 32 <<< laneLow w

/-- A 32 bit value with its lane replaced and the other bits kept (D6). -/
def laneMerge (w : Width) (t : Word) (v : BitVec (widthBitCount w)) : Word :=
  (t &&& ~~~laneMask w) ||| (v.setWidth 32 <<< laneLow w)

/-- `LaneRead(i, ww)` (00_scope.md R11). -/
def State.laneRead (s : State) (i : Reg) (w : Width) : BitVec (widthBitCount w) := laneOf w (s.regRead i)

/-- `LaneWrite(i, ww, v)` (00_scope.md R11; for R0 10_state.md R36). -/
def State.laneWrite (s : State) (i : Reg) (w : Width) (v : BitVec (widthBitCount w)) : State :=
  s.regWrite i (laneMerge w (s.regRead i) v)

/-! ### Immediates and offsets -/

/-- `{RegRead(0)[31:16], opnd16}`: a 16 bit constant in a 32 bit operation (30_encoding.md R111). -/
def State.longImmediate (s : State) (opnd : Half) : Word := (s.regRead .r0).extractLsb' 16 16 ++ opnd

/-- `Imm(ww)` (30_encoding.md R111). -/
def State.immediate (s : State) (w : Width) (opnd : Half) : BitVec (widthBitCount w) :=
  match w with
  | .byte => opnd.extractLsb' 0 8
  | .word => opnd
  | .high => opnd
  | .long => s.longImmediate opnd

/-- `offset16` extended to 32 bits (30_encoding.md R106, OFFSET16_EXT). -/
def offsetWord (o : Half) : Word :=
  match params.offset16Ext with
  | .zero => o.setWidth 32
  | .sign => o.signExtend 32

/-! ### Effective addresses (30_encoding.md R106, R107) -/

/-- The base register of a load/store operand. -/
def memOpBase (m : MemOp) : Reg :=
  match m with
  | .indirect b => b
  | .indexed b _ => b
  | .autoInc b => b
  | .autoDec b => b

/-- Is the operand an autoincrement or autodecrement mode? -/
def isAuto (m : MemOp) : Bool :=
  match m with
  | .indirect _ => false
  | .indexed _ _ => false
  | .autoInc _ => true
  | .autoDec _ => true

/-- The address of an operand whose size is `n` bytes, from the values of the registers before it is formed; with base R6
the order of update and use is reversed (Table 1-4). -/
def State.memOpAddr (s : State) (m : MemOp) (n : Size) : Word :=
  match m with
  | .indirect b => s.regRead b
  | .indexed b o => s.regRead b + offsetWord o
  | .autoInc b =>
    if b = .r6 then stackAddr n (s.regRead .r6 + BitVec.ofNat 32 (Size.bytes n)) else s.regRead b
  | .autoDec b =>
    if b = .r6 then stackAddr n (s.regRead .r6) else s.regRead b - BitVec.ofNat 32 (Size.bytes n)

/-- The state after the base register's update, if the mode has one; the step is the size moved, on all 32 bits (R106). -/
def State.afterMemOp (s : State) (m : MemOp) (n : Size) : State :=
  match m with
  | .indirect _ => s
  | .indexed _ _ => s
  | .autoInc b => s.regWrite b (s.regRead b + BitVec.ofNat 32 (Size.bytes n))
  | .autoDec b => s.regWrite b (s.regRead b - BitVec.ofNat 32 (Size.bytes n))

/-- `EA(mm, b, n)` of the Load/Store column; an auto mode on R0 is refused (R108 (a)). -/
def effAddr (m : MemOp) (n : Size) (s : State) : Res Word :=
  if isAuto m && memOpBase m == .r0 then .refused .autoModeBaseR0
  else .ok (s.memOpAddr m n) (s.afterMemOp m n)

/-! ### Lengths (30_encoding.md R102) -/

/-- Length of an instruction with an ALU column source. -/
def aluSrcLen (src : AluSrc) : Word :=
  match src with
  | .indirect _ => 2
  | .indexed _ _ => 4
  | .reg _ => 2
  | .imm _ => 4

/-- Length of a shift or one-operand instruction. -/
def unOpLen (op : UnOp) : Word :=
  match op with
  | .indirect _ => 2
  | .indexed _ _ => 4
  | .reg _ => 2

/-- Length of an instruction with a load/store operand. -/
def memOpLen (m : MemOp) : Word :=
  match m with
  | .indirect _ => 2
  | .indexed _ _ => 4
  | .autoInc _ => 2
  | .autoDec _ => 2

/-- Length of MOV and MOVX. -/
def movSrcLen (src : MovSrc) : Word :=
  match src with
  | .reg _ => 2
  | .imm _ => 4

/-! ### Source operands -/

/-- `SrcOperand(mm, rs, ww)` of the two-operand instructions (40_alu2op.md R140). -/
def aluOperand (src : AluSrc) (w : Width) (s : State) : Res (BitVec (widthBitCount w)) :=
  match src with
  | .indirect b => (memRead (widthSize w) (s.regRead b) s).bind fun v s => .ok (v.setWidth _) s
  | .indexed b o => (memRead (widthSize w) (s.regRead b + offsetWord o) s).bind fun v s => .ok (v.setWidth _) s
  | .reg r => .ok (s.laneRead r w) s
  | .imm v => .ok (s.immediate w v) s

/-- `MovSource(m, rs, ww)` (42_move.md R170). -/
def State.movOperand (s : State) (src : MovSrc) (w : Width) : BitVec (widthBitCount w) :=
  match src with
  | .reg r => s.laneRead r w
  | .imm v => s.immediate w v

/-- The memory address of a one-operand form, if it has one (44_shift.md R210, 45_unary.md R220). -/
def State.unOpAddr (s : State) (op : UnOp) : Option Word :=
  match op with
  | .indirect b => some (s.regRead b)
  | .indexed b o => some (s.regRead b + offsetWord o)
  | .reg _ => none

/-- `ShiftOperand` and `UnOperand` (44_shift.md R210, 45_unary.md R220). -/
def unOperand (op : UnOp) (w : Width) (s : State) : Res (BitVec (widthBitCount w)) :=
  match op with
  | .indirect b => (memRead (widthSize w) (s.regRead b) s).bind fun v s => .ok (v.setWidth _) s
  | .indexed b o => (memRead (widthSize w) (s.regRead b + offsetWord o) s).bind fun v s => .ok (v.setWidth _) s
  | .reg r => .ok (s.laneRead r w) s

/-- The register a one-operand result goes to: the operand register, or R0 for a memory operand (10_state.md R37). -/
def unOpTarget (op : UnOp) : Reg :=
  match op with
  | .indirect _ => .r0
  | .indexed _ _ => .r0
  | .reg r => r

/-- `UnResult(mm, rs, ww, r)` (45_unary.md R220): memory is not written. -/
def State.unResult (s : State) (op : UnOp) (w : Width) (r : BitVec (widthBitCount w)) : State :=
  s.laneWrite (unOpTarget op) w r

/-- `ShiftResult(mm, rs, ww, r)` (44_shift.md R210): as `UnResult`, and to memory too if SHIFT_MEM_WRITEBACK. -/
def shiftResult (op : UnOp) (w : Width) (r : BitVec (widthBitCount w)) (s : State) : Res Unit :=
  if params.shiftMemWriteback then
    match s.unOpAddr op with
    | some addr => memWrite (widthSize w) addr (r.setWidth 32) (s.laneWrite .r0 w r)
    | none => .ok () (s.unResult op w r)
  else .ok () (s.unResult op w r)

end Sys2Proof.Machine
end

