-- ==== Sys2Proof/Machine/Alu2.lean ====
section
/-! DEFINITION. OR, AND, EOR, ADD, ADDC, SUB, SUBC, CMP (40_alu2op.md). -/

namespace Sys2Proof.Machine

/-- The common form of the seven instructions that write their destination (40_alu2op.md R140): `op` gives, for the source
operand `a`, the destination operand `b` and the old Flags, the result and the new Flags. -/
def execAlu2 (op : (n : Nat) → BitVec n → BitVec n → Half → BitVec n × Half) (src : AluSrc) (rd : Reg) (w : Width)
    (s : State) : Host.Outcome State Fault Refusal :=
  run (aluSrcLen src) (fun s =>
    (aluOperand src w s).bind fun a s =>
      let t := op (widthBitCount w) a (s.laneRead rd w) s.flags
      .ok () ((s.laneWrite rd w t.1).withFlags t.2)) s

/-- OR (R145). -/
def execOr (src : AluSrc) (rd : Reg) (w : Width) (s : State) : Host.Outcome State Fault Refusal :=
  execAlu2 (fun _ a b f => (a ||| b, setZN (a ||| b) f)) src rd w s

/-- AND (R146). -/
def execAnd (src : AluSrc) (rd : Reg) (w : Width) (s : State) : Host.Outcome State Fault Refusal :=
  execAlu2 (fun _ a b f => (a &&& b, setZN (a &&& b) f)) src rd w s

/-- EOR (R147; 90_conflicts.md C12: exclusive or). -/
def execEor (src : AluSrc) (rd : Reg) (w : Width) (s : State) : Host.Outcome State Fault Refusal :=
  execAlu2 (fun _ a b f => (a ^^^ b, setZN (a ^^^ b) f)) src rd w s

/-- ADD (R148): no carry in; D is not consulted. -/
def execAdd (src : AluSrc) (rd : Reg) (w : Width) (s : State) : Host.Outcome State Fault Refusal :=
  execAlu2 (fun _ a b f => ((addLaw a b false).r, setCZVN (addLaw a b false) f)) src rd w s

/-- ADDC (R149). -/
def execAddc (src : AluSrc) (rd : Reg) (w : Width) (s : State) : Host.Outcome State Fault Refusal :=
  execAlu2 (fun _ a b f => ((addLaw a b (getFlag f .c)).r, setCZVN (addLaw a b (getFlag f .c)) f)) src rd w s

/-- SUB (R150): source minus destination (R144). -/
def execSub (src : AluSrc) (rd : Reg) (w : Width) (s : State) : Host.Outcome State Fault Refusal :=
  execAlu2 (fun _ a b f => ((subLaw a b false).r, setCZVN (subLaw a b false) f)) src rd w s

/-- SUBC (R151). -/
def execSubc (src : AluSrc) (rd : Reg) (w : Width) (s : State) : Host.Outcome State Fault Refusal :=
  execAlu2 (fun _ a b f => ((subLaw a b (borrowIn f)).r, setCZVN (subLaw a b (borrowIn f)) f)) src rd w s

/-- After CMP with `rd` = 000 the next instruction's read of R0 and the interrupt inhibit are free values
(40_alu2op.md R152, 70_reset_and_hazards.md R287; log 11). -/
def State.afterCmpR0 (s : State) : State :=
  { s.afterDraw.afterDraw with
    ri := s.drawn, riWritten := true, riHoldNext := s.afterDraw.drawn.getLsbD 0 }

/-- CMP (R152): the difference to C, Z and N; V and the registers stay. -/
def execCmp (src : AluSrc) (rd : Reg) (w : Width) (s : State) : Host.Outcome State Fault Refusal :=
  run (aluSrcLen src) (fun s =>
    (aluOperand src w s).bind fun a s =>
      let t := subLaw a (s.laneRead rd w) false
      let s := s.withFlags (setCZN t.r t.c s.flags)
      .ok () (if rd = .r0 then s.afterCmpR0 else s)) s

end Sys2Proof.Machine
end

