-- ==== Sys2Proof/Machine/Branch.lean ====
section
/-! DEFINITION. The fourteen branches (46_branch.md). -/

namespace Sys2Proof.Machine

/-- The common form (R230): if the test holds of Flags, continue at `ia + 2` plus the sign-extended displacement, else
after the four bytes. The Taken hint has no effect (R232). -/
def execBranch (test : Half → Bool) (disp : BitVec 20) (s : State) : Host.Outcome State Fault Refusal :=
  run 4 (fun s => .ok () (if test s.flags then s.withNextPc (s.pc + 2 + disp.signExtend 32) else s)) s

/-- BPL: "Positive or Zero" (R233). -/
def execBpl (_taken : Bool) (disp : BitVec 20) (s : State) : Host.Outcome State Fault Refusal :=
  execBranch (fun f => !getFlag f .n) disp s

/-- BMI: "Negative" (R234). -/
def execBmi (_taken : Bool) (disp : BitVec 20) (s : State) : Host.Outcome State Fault Refusal :=
  execBranch (fun f => getFlag f .n) disp s

/-- BVC: "Overflow clear" (R235). -/
def execBvc (_taken : Bool) (disp : BitVec 20) (s : State) : Host.Outcome State Fault Refusal :=
  execBranch (fun f => !getFlag f .v) disp s

/-- BVS: "Overflow set" (R236). -/
def execBvs (_taken : Bool) (disp : BitVec 20) (s : State) : Host.Outcome State Fault Refusal :=
  execBranch (fun f => getFlag f .v) disp s

/-- BCC: "Carry cleared" (R237). -/
def execBcc (_taken : Bool) (disp : BitVec 20) (s : State) : Host.Outcome State Fault Refusal :=
  execBranch (fun f => !getFlag f .c) disp s

/-- BCS: "Carry set" (R238). -/
def execBcs (_taken : Bool) (disp : BitVec 20) (s : State) : Host.Outcome State Fault Refusal :=
  execBranch (fun f => getFlag f .c) disp s

/-- BNE: "Not equal / zero" (R239). -/
def execBne (_taken : Bool) (disp : BitVec 20) (s : State) : Host.Outcome State Fault Refusal :=
  execBranch (fun f => !getFlag f .z) disp s

/-- BEQ: "Equal or zero" (R240). -/
def execBeq (_taken : Bool) (disp : BitVec 20) (s : State) : Host.Outcome State Fault Refusal :=
  execBranch (fun f => getFlag f .z) disp s

/-- BGE: "Greater or Equal" (R241). -/
def execBge (_taken : Bool) (disp : BitVec 20) (s : State) : Host.Outcome State Fault Refusal :=
  execBranch (fun f => !lessThan f) disp s

/-- BLT: "Less than" (R242). -/
def execBlt (_taken : Bool) (disp : BitVec 20) (s : State) : Host.Outcome State Fault Refusal :=
  execBranch (fun f => lessThan f) disp s

/-- BGT: "Greater than" (R243). -/
def execBgt (_taken : Bool) (disp : BitVec 20) (s : State) : Host.Outcome State Fault Refusal :=
  execBranch (fun f => !(getFlag f .z || lessThan f)) disp s

/-- BLE: "Less or Equal" (R244). -/
def execBle (_taken : Bool) (disp : BitVec 20) (s : State) : Host.Outcome State Fault Refusal :=
  execBranch (fun f => getFlag f .z || lessThan f) disp s

/-- BPO: "Positive" (R245). -/
def execBpo (_taken : Bool) (disp : BitVec 20) (s : State) : Host.Outcome State Fault Refusal :=
  execBranch (fun f => !(getFlag f .n || getFlag f .z)) disp s

/-- BRA: "Always" (R246). -/
def execBra (_taken : Bool) (disp : BitVec 20) (s : State) : Host.Outcome State Fault Refusal :=
  execBranch (fun _ => true) disp s

end Sys2Proof.Machine
end

