-- ==== Sys2Proof/Machine/Control.lean ====
section
/-! DEFINITION. JSR, RET, TRAP, TRAPB, RETI, LCNTR, SCNTR, CFLAG, SFLAG, LMMU, SMMU (43_control_system.md). -/

namespace Sys2Proof.Machine

/-! ### Subroutine call and return -/

/-- A 16 bit address zero-extended, or a 32 bit one as it stands (R180). -/
def transferTarget (w : TransferWidth) (v : Word) : Word :=
  match w with
  | .word => (v.setWidth 16).setWidth 32
  | .long => v

/-- The target of JSR, evaluated before the push (R181). -/
def jsrTarget (target : AluSrc) (w : TransferWidth) (s : State) : Res Word :=
  match target with
  | .indirect b => memRead (transferSize w) (s.regRead b) s
  | .indexed b o => memRead (transferSize w) (s.regRead b + offsetWord o) s
  | .reg r => .ok (transferTarget w (s.regRead r)) s
  | .imm v =>
    match w with
    | .word => .ok (v.setWidth 32) s
    | .long => .ok (s.longImmediate v) s

/-- JSR (R181): pushes the address of the next instruction minus one. -/
def execJsr (target : AluSrc) (w : TransferWidth) (s : State) : Host.Outcome State Fault Refusal :=
  run (aluSrcLen target) (fun s =>
    (jsrTarget target w s).bind fun t s =>
      (push (transferSize w) (s.pc + aluSrcLen target - 1) s).bind fun _ s => .ok () (s.withNextPc t)) s

/-- RET (R182): the popped address plus one, added after the zero extension. Nothing checks that the width is the JSR's;
after a JSR of the other width the bytes popped are beside the pushed address, not its low half (DESIGN CHOICE: the spec's
R193 and R289 disagree with its D15 and R14; unsafe; log 41). -/
def execRet (w : TransferWidth) (s : State) : Host.Outcome State Fault Refusal :=
  run 2 (fun s => (pop (transferSize w) s).bind fun v s => .ok () (s.withNextPc (v + 1))) s

/-! ### Software traps -/

/-- TRAP (R183): the exception entry with B cleared, through the table entry of `t` (R192, an open parameter). -/
def execTrap (t : BitVec 5) (w : TransferWidth) (s : State) : Host.Outcome State Fault Refusal :=
  run 2 (fun s => takeException w (s.pc + 2) (Config.trapVectorAddr t w) false s) s

/-- TRAPB (R184): as TRAP, with B set. -/
def execTrapb (t : BitVec 5) (w : TransferWidth) (s : State) : Host.Outcome State Fault Refusal :=
  run 2 (fun s => takeException w (s.pc + 2) (Config.trapVectorAddr t w) true s) s

/-- RETI (R187); of the other width than its TRAP: log 41. -/
def execReti (w : TransferWidth) (s : State) : Host.Outcome State Fault Refusal :=
  run 2 (fun s => returnFromException w s) s

/-! ### The Flags register -/

/-- The bytes LCNTR and SCNTR move (30_encoding.md R110, CNTR_WIDTHS). -/
def cntrSize (w : CntrWidth) : Size :=
  match w with
  | .byte => params.cntrWidths.1
  | .word => params.cntrWidths.2

/-- Flags after LCNTR has loaded `v`: one byte replaces bits 7:0 and requests nothing; more replace all sixteen. -/
def State.loadFlags (s : State) (n : Size) (v : Word) : State :=
  match n with
  | .one => s.withFlags ((s.flags &&& 0xFF00) ||| v.setWidth 16)
  | .two => s.writeFlags (v.setWidth 16) (v.setWidth 16)
  | .four => s.writeFlags (v.setWidth 16) (v.setWidth 16)

/-- LCNTR (R185). -/
def execLcntr (src : MemOp) (w : CntrWidth) (s : State) : Host.Outcome State Fault Refusal :=
  run (memOpLen src) (fun s =>
    (effAddr src (cntrSize w) s).bind fun addr s =>
      (memRead (cntrSize w) addr s).bind fun v s => .ok () (s.loadFlags (cntrSize w) v)) s

/-- SCNTR (R186). -/
def execScntr (dst : MemOp) (w : CntrWidth) (s : State) : Host.Outcome State Fault Refusal :=
  run (memOpLen dst) (fun s =>
    (effAddr dst (cntrSize w) s).bind fun addr s =>
      memWrite (cntrSize w) addr (s.flagsImage.setWidth 32) s.afterFlagsRead) s

/-- CFLAG (R188). -/
def execCflag (k : BitVec 4) (s : State) : Host.Outcome State Fault Refusal :=
  run 2 (fun s => .ok () (s.withFlags (setBit s.flags k.toNat false))) s

/-- SFLAG (R189): setting a flush bit requests the flush. -/
def execSflag (k : BitVec 4) (s : State) : Host.Outcome State Fault Refusal :=
  run 2 (fun s => .ok () (s.writeFlags (setBit s.flags k.toNat true) (setBit 0 k.toNat true))) s

/-! ### The MMU registers -/

/-- LMMU (R190): always four bytes. -/
def execLmmu (src : MemOp) (n : MmuReg) (s : State) : Host.Outcome State Fault Refusal :=
  run (memOpLen src) (fun s =>
    (effAddr src .four s).bind fun addr s =>
      (memRead .four addr s).bind fun v s => .ok () ((s.withMmuReg n v).withFlags (setZN v s.flags))) s

/-- SMMU (R191). -/
def execSmmu (dst : MemOp) (n : MmuReg) (s : State) : Host.Outcome State Fault Refusal :=
  run (memOpLen dst) (fun s =>
    (effAddr dst .four s).bind fun addr s =>
      let v := s.mmuReg n
      (memWrite .four addr v s).bind fun _ s => .ok () (s.withFlags (setZN v s.flags))) s

end Sys2Proof.Machine
end

