-- ==== Sys2Proof/Machine/LoadStore.lean ====
section
/-! DEFINITION. LD and ST (41_load_store.md). -/

namespace Sys2Proof.Machine

/-- LD (R161). In an auto mode base = destination is refused (30_encoding.md R108 (b)). -/
def execLd (src : MemOp) (rd : Reg) (w : Width) (s : State) : Host.Outcome State Fault Refusal :=
  run (memOpLen src) (fun s =>
    (effAddr src (widthSize w) s).bind fun addr s =>
      if isAuto src && memOpBase src == rd then .refused .autoModeBaseIsDestination
      else
        (memRead (widthSize w) addr s).bind fun v s =>
          let r := v.setWidth (widthBitCount w)
          .ok () ((s.laneWrite rd w r).withFlags (setZN r s.flags))) s

/-- The address of ST with R0 as base and data (R162): the base reads as zero. -/
def stZeroBaseAddr (dst : MemOp) : Word :=
  match dst with
  | .indirect _ => 0
  | .indexed _ o => offsetWord o
  | .autoInc _ => 0
  | .autoDec _ => 0

/-- The effective address of ST (R163), with the rule of R162 for R0 in both fields. -/
def stAddr (dst : MemOp) (data : Reg) (n : Size) (s : State) : Res Word :=
  if memOpBase dst = .r0 ∧ data = .r0 ∧ isAuto dst = false then .ok (stZeroBaseAddr dst) s
  else effAddr dst n s

/-- ST (R163): the data is read before any base update; Z and N from the stored value if ST_SETS_ZN. In an auto mode
base = data is refused (30_encoding.md R108 (c)). -/
def execSt (dst : MemOp) (data : Reg) (w : Width) (s : State) : Host.Outcome State Fault Refusal :=
  run (memOpLen dst) (fun s =>
    let v := s.laneRead data w
    (stAddr dst data (widthSize w) s).bind fun addr s =>
      if isAuto dst && memOpBase dst == data then .refused .autoModeBaseIsData
      else
        (memWrite (widthSize w) addr (v.setWidth 32) s).bind fun _ s =>
          .ok () (if params.stSetsZN then s.withFlags (setZN v s.flags) else s)) s

end Sys2Proof.Machine
end

