-- ==== Sys2Proof/Machine/Move.lean ====
section
/-! DEFINITION. MOV and MOVX (42_move.md). -/

namespace Sys2Proof.Machine

/-- MOV (R171). -/
def execMov (src : MovSrc) (rd : Reg) (w : Width) (s : State) : Host.Outcome State Fault Refusal :=
  run (movSrcLen src) (fun s =>
    let v := s.movOperand src w
    .ok () ((s.laneWrite rd w v).withFlags (setZN v s.flags))) s

/-- MOVX (R172): the source at its width, sign-extended; all 32 bits of the destination are written. -/
def execMovx (src : MovSrc) (rd : Reg) (w : Width) (s : State) : Host.Outcome State Fault Refusal :=
  run (movSrcLen src) (fun s =>
    let r := (s.movOperand src w).signExtend 32
    .ok () ((s.regWrite rd r).withFlags (setZN r s.flags))) s

end Sys2Proof.Machine
end

