-- ==== Sys2Proof/Machine/Reserved.lean ====
section
/-! DEFINITION. The twelve reserved rows of the opcode table: the spec gives them no behaviour (30_encoding.md R118, R119),
so each is refused. -/

namespace Sys2Proof.Machine

/-- `1011 xx 11 xxx 111 xx`, Expansion (43_control_system.md R196). -/
def execReserved1011x111 (_mm : BitVec 2) (_a : BitVec 3) (_c : BitVec 2) (_s : State) :
    Host.Outcome State Fault Refusal :=
  .refused .reservedExpansion

/-- `1110 xx 11 xxx 101 xx`, Expansion (45_unary.md R227). -/
def execReserved1110x101 (_mm : BitVec 2) (_a : BitVec 3) (_c : BitVec 2) (_s : State) :
    Host.Outcome State Fault Refusal :=
  .refused .reservedExpansion

/-- `1110 xx 11 xxx 110 xx`, Expansion (45_unary.md R227). -/
def execReserved1110x110 (_mm : BitVec 2) (_a : BitVec 3) (_c : BitVec 2) (_s : State) :
    Host.Outcome State Fault Refusal :=
  .refused .reservedExpansion

/-- `1110 xx 11 xxx 111 xx`, Expansion (45_unary.md R227). -/
def execReserved1110x111 (_mm : BitVec 2) (_a : BitVec 3) (_c : BitVec 2) (_s : State) :
    Host.Outcome State Fault Refusal :=
  .refused .reservedExpansion

/-- Mode 11 of SHL and SHLC (44_shift.md R210). -/
def execReservedShlMode11 (_a : BitVec 3) (_b : BitVec 3) (_c : BitVec 2) (_s : State) :
    Host.Outcome State Fault Refusal :=
  .refused .reservedMode11

/-- Mode 11 of SHR and SHRC (44_shift.md R210). -/
def execReservedShrMode11 (_a : BitVec 3) (_b : BitVec 3) (_c : BitVec 2) (_s : State) :
    Host.Outcome State Fault Refusal :=
  .refused .reservedMode11

/-- Mode 11 of the one-operand instructions (45_unary.md R220). -/
def execReservedUnaryMode11 (_a : BitVec 3) (_b : BitVec 3) (_c : BitVec 2) (_s : State) :
    Host.Outcome State Fault Refusal :=
  .refused .reservedMode11

/-- SWAP.B (45_unary.md R223). -/
def execReservedSwapB (_mm : BitVec 2) (_a : BitVec 3) (_s : State) :
    Host.Outcome State Fault Refusal :=
  .refused .reservedWidth

/-- MIRROR.H and MIRROR.L (45_unary.md R224). -/
def execReservedMirrorHL (_mm : BitVec 2) (_a : BitVec 3) (_c0 : Bool) (_s : State) :
    Host.Outcome State Fault Refusal :=
  .refused .reservedWidth

/-- Branch test 1101, Future Expansion (46_branch.md R248). -/
def execReservedBranchTest1101 (_taken : Bool) (_b : BitVec 3) (_c : BitVec 2) (_s : State) :
    Host.Outcome State Fault Refusal :=
  .refused .reservedBranchTest

/-- Branch test 1111, Future Expansion (46_branch.md R248). -/
def execReservedBranchTest1111 (_taken : Bool) (_b : BitVec 3) (_c : BitVec 2) (_s : State) :
    Host.Outcome State Fault Refusal :=
  .refused .reservedBranchTest

/-- A branch with Extend = 0 (46_branch.md R247). -/
def execReservedBranchExtend0 (_mm : BitVec 2) (_a : BitVec 3) (_d : BitVec 2) (_c : BitVec 2) (_s : State) :
    Host.Outcome State Fault Refusal :=
  .refused .reservedExtend0

end Sys2Proof.Machine
end

