-- ==== Sys2Proof/Machine/Shift.lean ====
section
/-! DEFINITION. SHL, SHLC, SHR, SHRC (44_shift.md). -/

namespace Sys2Proof.Machine

/-- The number of positions (30_encoding.md R112). -/
def amountCount (k : Amount) : Nat :=
  match k with
  | .one => 1
  | .two => 2
  | .three => 3
  | .four => 4

/-- The common form of the shifts (R210): `law` gives, for the operand, the amount and the old carry, the result and the
carry out. -/
def execShift (law : (n : Nat) → BitVec n → Nat → Bool → BitVec n × Bool) (op : UnOp) (k : Amount) (w : Width)
    (s : State) : Host.Outcome State Fault Refusal :=
  run (unOpLen op) (fun s =>
    (unOperand op w s).bind fun v s =>
      let t := law (widthBitCount w) v (amountCount k) (s.flag .c)
      shiftResult op w t.1 (s.withFlags (setZN t.1 (setFlag s.flags .c t.2)))) s

/-- SHL (R211): zeros enter. -/
def execShl (op : UnOp) (k : Amount) (w : Width) (s : State) : Host.Outcome State Fault Refusal :=
  execShift (fun _ v k _ => shlLaw v k false) op k w s

/-- SHLC (R212): the old carry enters every vacated bit. -/
def execShlc (op : UnOp) (k : Amount) (w : Width) (s : State) : Host.Outcome State Fault Refusal :=
  execShift (fun _ v k c => shlLaw v k c) op k w s

/-- SHR (R213). -/
def execShr (op : UnOp) (k : Amount) (w : Width) (s : State) : Host.Outcome State Fault Refusal :=
  execShift (fun _ v k _ => shrLaw v k false) op k w s

/-- SHRC (R214). -/
def execShrc (op : UnOp) (k : Amount) (w : Width) (s : State) : Host.Outcome State Fault Refusal :=
  execShift (fun _ v k c => shrLaw v k c) op k w s

end Sys2Proof.Machine
end

