-- ==== Sys2Proof/Machine/Unary.lean ====
section
/-! DEFINITION. INC, DEC, SWAP, MIRROR, BIT (45_unary.md). -/

namespace Sys2Proof.Machine

/-- The common form of INC, DEC, SWAP and MIRROR (R220): Z and N from the result, which goes to the operand register or,
for a memory operand, to R0. -/
def execUnary (f : (w : Width) → BitVec (widthBitCount w) → BitVec (widthBitCount w)) (op : UnOp) (w : Width)
    (s : State) : Host.Outcome State Fault Refusal :=
  run (unOpLen op) (fun s =>
    (unOperand op w s).bind fun v s =>
      .ok () ((s.unResult op w (f w v)).withFlags (setZN (f w v) s.flags))) s

/-- INC (R221). -/
def execInc (op : UnOp) (w : Width) (s : State) : Host.Outcome State Fault Refusal :=
  execUnary (fun _ v => v + 1) op w s

/-- DEC (R222). -/
def execDec (op : UnOp) (w : Width) (s : State) : Host.Outcome State Fault Refusal :=
  execUnary (fun _ v => v - 1) op w s

/-- The exchange of SWAP (R223): the bytes of a word, or the words of a long. -/
def swapHalves (w : Width) (v : BitVec (widthBitCount w)) : BitVec (widthBitCount w) :=
  match w with
  | .byte => v
  | .word => (v.extractLsb' 0 8 ++ v.extractLsb' 8 8 : BitVec 16)
  | .high => (v.extractLsb' 0 8 ++ v.extractLsb' 8 8 : BitVec 16)
  | .long => (v.extractLsb' 0 16 ++ v.extractLsb' 16 16 : BitVec 32)

/-- SWAP (R223). `.B` is not listed: refused. -/
def execSwap (op : UnOp) (w : Width) (s : State) : Host.Outcome State Fault Refusal :=
  if w = .byte then .refused .reservedWidth else execUnary swapHalves op w s

/-- The low `k` bits of `v` in reverse order, bit 0 first (R224). -/
def mirrorBits {n : Nat} (v : BitVec n) (k : Nat) : BitVec n :=
  match k with
  | 0 => 0
  | k + 1 => mirrorBits v k <<< 1 ||| (if v.getLsbD k then 1#n else 0#n)

/-- The mirror image of all the bits of the operand (R224): bit i of the result is bit n−1−i of `v`. -/
def mirrorImage (w : Width) (v : BitVec (widthBitCount w)) : BitVec (widthBitCount w) :=
  mirrorBits v (widthBitCount w)

/-- MIRROR (R224). `.H` and `.L` are not listed: refused. -/
def execMirror (op : UnOp) (w : Width) (s : State) : Host.Outcome State Fault Refusal :=
  if w = .high ∨ w = .long then .refused .reservedWidth else execUnary mirrorImage op w s

/-- BIT (R226): Z from the operand and R1 at the same lane, N and V from bits 7 and 6 of the operand at every width. -/
def execBit (op : UnOp) (w : Width) (s : State) : Host.Outcome State Fault Refusal :=
  run (unOpLen op) (fun s =>
    (unOperand op w s).bind fun v s =>
      .ok () (s.withFlags
        (setFlag (setFlag (setFlag s.flags .z (v &&& s.laneRead .r1 w == 0)) .n (v.getLsbD 7)) .v (v.getLsbD 6)))) s

end Sys2Proof.Machine
end

