-- ==== Sys2Proof/Machine/Dispatch.lean ====
section
/-! DEFINITION. `exec`: one arm per instruction, each one call of its meaning. -/

namespace Sys2Proof.Machine

def exec (i : Instr) (s : State) : Host.Outcome State Fault Refusal :=
  match i with
  | .or src rd w => Sys2Proof.Machine.execOr src rd w s
  | .and src rd w => Sys2Proof.Machine.execAnd src rd w s
  | .eor src rd w => Sys2Proof.Machine.execEor src rd w s
  | .add src rd w => Sys2Proof.Machine.execAdd src rd w s
  | .addc src rd w => Sys2Proof.Machine.execAddc src rd w s
  | .sub src rd w => Sys2Proof.Machine.execSub src rd w s
  | .subc src rd w => Sys2Proof.Machine.execSubc src rd w s
  | .cmp src rd w => Sys2Proof.Machine.execCmp src rd w s
  | .ld src rd w => Sys2Proof.Machine.execLd src rd w s
  | .st dst data w => Sys2Proof.Machine.execSt dst data w s
  | .mov src rd w => Sys2Proof.Machine.execMov src rd w s
  | .movx src rd w => Sys2Proof.Machine.execMovx src rd w s
  | .jsr target w => Sys2Proof.Machine.execJsr target w s
  | .ret w => Sys2Proof.Machine.execRet w s
  | .trap t w => Sys2Proof.Machine.execTrap t w s
  | .trapb t w => Sys2Proof.Machine.execTrapb t w s
  | .reti w => Sys2Proof.Machine.execReti w s
  | .lcntr src w => Sys2Proof.Machine.execLcntr src w s
  | .scntr dst w => Sys2Proof.Machine.execScntr dst w s
  | .cflag k => Sys2Proof.Machine.execCflag k s
  | .sflag k => Sys2Proof.Machine.execSflag k s
  | .lmmu src n => Sys2Proof.Machine.execLmmu src n s
  | .smmu dst n => Sys2Proof.Machine.execSmmu dst n s
  | .shl op k w => Sys2Proof.Machine.execShl op k w s
  | .shlc op k w => Sys2Proof.Machine.execShlc op k w s
  | .shr op k w => Sys2Proof.Machine.execShr op k w s
  | .shrc op k w => Sys2Proof.Machine.execShrc op k w s
  | .inc op w => Sys2Proof.Machine.execInc op w s
  | .dec op w => Sys2Proof.Machine.execDec op w s
  | .swap op w => Sys2Proof.Machine.execSwap op w s
  | .mirror op w => Sys2Proof.Machine.execMirror op w s
  | .bit op w => Sys2Proof.Machine.execBit op w s
  | .bpl taken disp => Sys2Proof.Machine.execBpl taken disp s
  | .bmi taken disp => Sys2Proof.Machine.execBmi taken disp s
  | .bvc taken disp => Sys2Proof.Machine.execBvc taken disp s
  | .bvs taken disp => Sys2Proof.Machine.execBvs taken disp s
  | .bcc taken disp => Sys2Proof.Machine.execBcc taken disp s
  | .bcs taken disp => Sys2Proof.Machine.execBcs taken disp s
  | .bne taken disp => Sys2Proof.Machine.execBne taken disp s
  | .beq taken disp => Sys2Proof.Machine.execBeq taken disp s
  | .bge taken disp => Sys2Proof.Machine.execBge taken disp s
  | .blt taken disp => Sys2Proof.Machine.execBlt taken disp s
  | .bgt taken disp => Sys2Proof.Machine.execBgt taken disp s
  | .ble taken disp => Sys2Proof.Machine.execBle taken disp s
  | .bpo taken disp => Sys2Proof.Machine.execBpo taken disp s
  | .bra taken disp => Sys2Proof.Machine.execBra taken disp s
  | .reserved1011x111 mm a c => Sys2Proof.Machine.execReserved1011x111 mm a c s
  | .reserved1110x101 mm a c => Sys2Proof.Machine.execReserved1110x101 mm a c s
  | .reserved1110x110 mm a c => Sys2Proof.Machine.execReserved1110x110 mm a c s
  | .reserved1110x111 mm a c => Sys2Proof.Machine.execReserved1110x111 mm a c s
  | .reservedShlMode11 a b c => Sys2Proof.Machine.execReservedShlMode11 a b c s
  | .reservedShrMode11 a b c => Sys2Proof.Machine.execReservedShrMode11 a b c s
  | .reservedUnaryMode11 a b c => Sys2Proof.Machine.execReservedUnaryMode11 a b c s
  | .reservedSwapB mm a => Sys2Proof.Machine.execReservedSwapB mm a s
  | .reservedMirrorHL mm a c0 => Sys2Proof.Machine.execReservedMirrorHL mm a c0 s
  | .reservedBranchTest1101 taken b c => Sys2Proof.Machine.execReservedBranchTest1101 taken b c s
  | .reservedBranchTest1111 taken b c => Sys2Proof.Machine.execReservedBranchTest1111 taken b c s
  | .reservedBranchExtend0 mm a d c => Sys2Proof.Machine.execReservedBranchExtend0 mm a d c s

end Sys2Proof.Machine
end

