-- ==== Sys2Proof/WellFormed.lean ====
section
/-! DEFINITION. Which terms of `Instr` stand for an encoding: the width restrictions of SWAP and MIRROR, and for the
reserved rows that no earlier row of the table takes the same bits. -/

namespace Sys2Proof

/-- `i` is the meaning of some word. SWAP lists no `.B`, MIRROR only `.B` and `.W` (30_encoding.md R118 items 7, 8). A
reserved row's free bits must not fall under an earlier row of opcode_table.json, which is tried first (R120). -/
def Instr.wf (i : Instr) : Bool :=
  match i with
  | .or _ _ _ => true
  | .and _ _ _ => true
  | .eor _ _ _ => true
  | .add _ _ _ => true
  | .addc _ _ _ => true
  | .sub _ _ _ => true
  | .subc _ _ _ => true
  | .cmp _ _ _ => true
  | .ld _ _ _ => true
  | .st _ _ _ => true
  | .mov _ _ _ => true
  | .movx _ _ _ => true
  | .jsr _ _ => true
  | .ret _ => true
  | .trap _ _ => true
  | .trapb _ _ => true
  | .reti _ => true
  | .lcntr _ _ => true
  | .scntr _ _ => true
  | .cflag _ => true
  | .sflag _ => true
  | .lmmu _ _ => true
  | .smmu _ _ => true
  | .shl _ _ _ => true
  | .shlc _ _ _ => true
  | .shr _ _ _ => true
  | .shrc _ _ _ => true
  | .inc _ _ => true
  | .dec _ _ => true
  | .swap _ w => w != .byte
  | .mirror _ w => w == .byte || w == .word
  | .bit _ _ => true
  | .bpl _ _ => true
  | .bmi _ _ => true
  | .bvc _ _ => true
  | .bvs _ _ => true
  | .bcc _ _ => true
  | .bcs _ _ => true
  | .bne _ _ => true
  | .beq _ _ => true
  | .bge _ _ => true
  | .blt _ _ => true
  | .bgt _ _ => true
  | .ble _ _ => true
  | .bpo _ _ => true
  | .bra _ _ => true
  | .reserved1011x111 _ _ _ => true
  | .reserved1110x101 _ _ _ => true
  | .reserved1110x110 _ _ _ => true
  | .reserved1110x111 _ _ _ => true
  | .reservedShlMode11 _ _ _ => true
  | .reservedShrMode11 _ _ _ => true
  | .reservedUnaryMode11 _ b _ => b != 5#3 && b != 6#3 && b != 7#3
  | .reservedSwapB mm _ => mm != 3#2
  | .reservedMirrorHL mm _ _ => mm != 3#2
  | .reservedBranchTest1101 _ _ _ => true
  | .reservedBranchTest1111 _ _ _ => true
  | .reservedBranchExtend0 mm a _ _ => !(a.extractLsb' 1 2 == 3#2 && (mm == 1#2 || mm == 3#2))

/-- The check as a proposition. -/
abbrev Instr.WellFormed (i : Instr) : Prop := i.wf = true

end Sys2Proof
end

