-- ==== Sys2Proof/Decode.lean ====
section
/-! DEFINITION. Decoding of the extended opcodes, total on any bytes, and the encoder, both from the formats of
30_encoding.md R100 to R118. -/

namespace Sys2Proof

/-! ### The common frame of every format (R103): op(4) mm(2) 11 a(3) b(3) c(2) -/

/-- The fields every format of Table 2-1 divides `hw` into; `hw[9:8]` is always binary 11 (R100). -/
structure Fields where
  op : BitVec 4
  mm : BitVec 2
  a : BitVec 3
  b : BitVec 3
  c : BitVec 2
deriving DecidableEq, Repr

/-- `op = hw[15:12]`, `mm = hw[11:10]`, `a = hw[7:5]`, `b = hw[4:2]`, `c = hw[1:0]` (00_scope.md R9). -/
def fieldsOf (hw : Half) : Fields :=
  { op := hw.extractLsb' 12 4, mm := hw.extractLsb' 10 2, a := hw.extractLsb' 5 3,
    b := hw.extractLsb' 2 3, c := hw.extractLsb' 0 2 }

/-- The 16 bits of the given fields, with `hw[9:8]` = 11 (R101). -/
def packFields (f : Fields) : Half :=
  f.op ++ f.mm ++ 3#2 ++ f.a ++ f.b ++ f.c

/-! ### Codes of the operand fields -/

/-- A three bit register field (R104). -/
def regOfBits (v : BitVec 3) : Reg :=
  match v.toNat with
  | 0 => .r0
  | 1 => .r1
  | 2 => .r2
  | 3 => .r3
  | 4 => .r4
  | 5 => .r5
  | 6 => .r6
  | _ => .r7

/-- The code of a register (R104). -/
def regBits (r : Reg) : BitVec 3 :=
  match r with
  | .r0 => 0
  | .r1 => 1
  | .r2 => 2
  | .r3 => 3
  | .r4 => 4
  | .r5 => 5
  | .r6 => 6
  | .r7 => 7

/-- The two bit width field `ww` (R109). -/
def widthOfBits (v : BitVec 2) : Width :=
  match v.toNat with
  | 0 => .byte
  | 1 => .word
  | 2 => .high
  | _ => .long

/-- The code of a width (R109). -/
def widthBits (w : Width) : BitVec 2 :=
  match w with
  | .byte => 0
  | .word => 1
  | .high => 2
  | .long => 3

/-- The amount field `aa` (R112): 00 is four. -/
def amountOfBits (v : BitVec 2) : Amount :=
  match v.toNat with
  | 0 => .four
  | 1 => .one
  | 2 => .two
  | _ => .three

/-- The code of a shift amount (R112). -/
def amountBits (k : Amount) : BitVec 2 :=
  match k with
  | .four => 0
  | .one => 1
  | .two => 2
  | .three => 3

/-- The width bit of the control transfers (R110). -/
def transferOfBit (v : Bool) : TransferWidth := if v then .long else .word

/-- The code of a transfer width (R110). -/
def transferBit (w : TransferWidth) : Bool :=
  match w with
  | .word => false
  | .long => true

/-- The width bit of LCNTR and SCNTR (R110). -/
def cntrOfBit (v : Bool) : CntrWidth := if v then .word else .byte

/-- The code of a control register width (R110). -/
def cntrBit (w : CntrWidth) : Bool :=
  match w with
  | .byte => false
  | .word => true

/-- The MMU register bit (R103, rows LMMU and SMMU). -/
def mmuRegOfBit (v : Bool) : MmuReg := if v then .m1 else .m0

/-- The code of an MMU register (R103). -/
def mmuRegBit (n : MmuReg) : Bool :=
  match n with
  | .m0 => false
  | .m1 => true

/-- The ALU column of Table 2-2 (R105). In mode `imm16` the register field is ignored (R117). -/
def aluSrcOf (mm : BitVec 2) (a : BitVec 3) (opnd : Half) : AluSrc :=
  match mm.toNat with
  | 0 => .indirect (regOfBits a)
  | 1 => .indexed (regOfBits a) opnd
  | 2 => .reg (regOfBits a)
  | _ => .imm opnd

/-- The ALU column, modes 00, 01 and 10 (R105); mode 11 is taken by a reserved row before this is asked. -/
def unOpOf (mm : BitVec 2) (a : BitVec 3) (opnd : Half) : UnOp :=
  match mm.toNat with
  | 0 => .indirect (regOfBits a)
  | 1 => .indexed (regOfBits a) opnd
  | _ => .reg (regOfBits a)

/-- The Load/Store column of Table 2-2 (R105). -/
def memOpOf (mm : BitVec 2) (a : BitVec 3) (opnd : Half) : MemOp :=
  match mm.toNat with
  | 0 => .indirect (regOfBits a)
  | 1 => .indexed (regOfBits a) opnd
  | 2 => .autoInc (regOfBits a)
  | _ => .autoDec (regOfBits a)

/-- Table 2-3: the one bit mode of MOV and MOVX, `hw[10]` (R105). -/
def movSrcOf (m : Bool) (a : BitVec 3) (opnd : Half) : MovSrc :=
  if m then .imm opnd else .reg (regOfBits a)

/-! ### Decoding -/

/-- Opcode 1011, by `hw[4:2]` and one more bit (43_control_system.md R180, R120). -/
def decodeSystem (f : Fields) (opnd : Half) : Instr :=
  match f.b.toNat with
  | 0 => .jsr (aluSrcOf f.mm f.a opnd) (transferOfBit (f.c.getLsbD 0))
  | 1 => .ret (transferOfBit (f.c.getLsbD 0))
  | 2 =>
    if f.c.getLsbD 1 then .trapb (f.a ++ f.mm) (transferOfBit (f.c.getLsbD 0))
    else .trap (f.a ++ f.mm) (transferOfBit (f.c.getLsbD 0))
  | 3 => .reti (transferOfBit (f.c.getLsbD 0))
  | 4 =>
    if f.c.getLsbD 1 then .scntr (memOpOf f.mm f.a opnd) (cntrOfBit (f.c.getLsbD 0))
    else .lcntr (memOpOf f.mm f.a opnd) (cntrOfBit (f.c.getLsbD 0))
  | 5 =>
    if f.mm.getLsbD 1 then .sflag (f.a ++ f.mm.extractLsb' 0 1)
    else .cflag (f.a ++ f.mm.extractLsb' 0 1)
  | 6 =>
    if f.c.getLsbD 1 then .smmu (memOpOf f.mm f.a opnd) (mmuRegOfBit (f.c.getLsbD 0))
    else .lmmu (memOpOf f.mm f.a opnd) (mmuRegOfBit (f.c.getLsbD 0))
  | _ => .reserved1011x111 f.mm f.a f.c

/-- Opcodes 1100 and 1101 with a listed mode: `c` = `hw[4]`, `aa` = `hw[3:2]` (R112). -/
def decodeShift (f : Fields) (opnd : Half) : Instr :=
  let op := unOpOf f.mm f.a opnd
  let k := amountOfBits (f.b.extractLsb' 0 2)
  let w := widthOfBits f.c
  match f.op.getLsbD 0, f.b.getLsbD 2 with
  | false, false => .shl op k w
  | false, true => .shlc op k w
  | true, false => .shr op k w
  | true, true => .shrc op k w

/-- Opcode 1110, by `hw[4:2]`; the order of the reserved rows is the table's (R118 items 2 to 4, 6 to 8, R120). -/
def decodeUnary (f : Fields) (opnd : Half) : Instr :=
  match f.b.toNat with
  | 5 => .reserved1110x101 f.mm f.a f.c
  | 6 => .reserved1110x110 f.mm f.a f.c
  | 7 => .reserved1110x111 f.mm f.a f.c
  | sub =>
    if f.mm = 3#2 then .reservedUnaryMode11 f.a f.b f.c
    else
      let op := unOpOf f.mm f.a opnd
      let w := widthOfBits f.c
      match sub with
      | 0 => .inc op w
      | 1 => .dec op w
      | 2 => if f.c = 0#2 then .reservedSwapB f.mm f.a else .swap op w
      | 3 => if f.c.getLsbD 1 then .reservedMirrorHL f.mm f.a (f.c.getLsbD 0) else .mirror op w
      | _ => .bit op w

/-- Opcode 1111 (R115): `test = {hw[7:6], hw[11:10]}`, Taken = `hw[5]`, Extend = `hw[4]`,
`disp20 = {hw[3:0], byte3, byte2}`. The tests 1101 and 1111 are reserved before Extend is looked at (R118). -/
def decodeBranch (f : Fields) (opnd : Half) : Instr :=
  let taken := f.a.getLsbD 0
  let disp : BitVec 20 := f.b.extractLsb' 0 2 ++ f.c ++ opnd
  match (f.a.extractLsb' 1 2 ++ f.mm).toNat with
  | 13 => .reservedBranchTest1101 taken f.b f.c
  | 15 => .reservedBranchTest1111 taken f.b f.c
  | test =>
    if f.b.getLsbD 2 then
      match test with
      | 0 => .bpl taken disp
      | 1 => .bmi taken disp
      | 2 => .bvc taken disp
      | 3 => .bvs taken disp
      | 4 => .bcc taken disp
      | 5 => .bcs taken disp
      | 6 => .bne taken disp
      | 7 => .beq taken disp
      | 8 => .bge taken disp
      | 9 => .blt taken disp
      | 10 => .bgt taken disp
      | 11 => .ble taken disp
      | 12 => .bpo taken disp
      | _ => .bra taken disp
    else .reservedBranchExtend0 f.mm f.a (f.b.extractLsb' 0 2) f.c

/-- The instruction of the given fields and operand word (R120). Total: every `hw` with `hw[9:8]` = 11 is a row. -/
def decodeFields (f : Fields) (opnd : Half) : Instr :=
  match f.op.toNat with
  | 0 => .or (aluSrcOf f.mm f.a opnd) (regOfBits f.b) (widthOfBits f.c)
  | 1 => .and (aluSrcOf f.mm f.a opnd) (regOfBits f.b) (widthOfBits f.c)
  | 2 => .eor (aluSrcOf f.mm f.a opnd) (regOfBits f.b) (widthOfBits f.c)
  | 3 => .add (aluSrcOf f.mm f.a opnd) (regOfBits f.b) (widthOfBits f.c)
  | 4 => .addc (aluSrcOf f.mm f.a opnd) (regOfBits f.b) (widthOfBits f.c)
  | 5 => .sub (aluSrcOf f.mm f.a opnd) (regOfBits f.b) (widthOfBits f.c)
  | 6 => .subc (aluSrcOf f.mm f.a opnd) (regOfBits f.b) (widthOfBits f.c)
  | 7 => .cmp (aluSrcOf f.mm f.a opnd) (regOfBits f.b) (widthOfBits f.c)
  | 8 => .ld (memOpOf f.mm f.a opnd) (regOfBits f.b) (widthOfBits f.c)
  | 9 => .st (memOpOf f.mm f.a opnd) (regOfBits f.b) (widthOfBits f.c)
  | 10 =>
    if f.mm.getLsbD 1 then .movx (movSrcOf (f.mm.getLsbD 0) f.a opnd) (regOfBits f.b) (widthOfBits f.c)
    else .mov (movSrcOf (f.mm.getLsbD 0) f.a opnd) (regOfBits f.b) (widthOfBits f.c)
  | 11 => decodeSystem f opnd
  | 12 => if f.mm = 3#2 then .reservedShlMode11 f.a f.b f.c else decodeShift f opnd
  | 13 => if f.mm = 3#2 then .reservedShrMode11 f.a f.b f.c else decodeShift f opnd
  | 14 => decodeUnary f opnd
  | _ => decodeBranch f opnd

/-- Does the instruction take an operand word, that is, is `len` = 4 (R102)? Known from `hw` alone (R122). For a reserved
encoding the spec gives no length; none is fetched beyond the first two bytes. -/
def takesOperand (f : Fields) : Bool :=
  match f.op.toNat with
  | 8 => f.mm == 1#2
  | 9 => f.mm == 1#2
  | 10 => f.mm.getLsbD 0
  | 11 =>
    match f.b.toNat with
    | 0 => f.mm == 1#2 || f.mm == 3#2
    | 4 => f.mm == 1#2
    | 6 => f.mm == 1#2
    | _ => false
  | 12 => f.mm == 1#2
  | 13 => f.mm == 1#2
  | 14 =>
    match f.b.toNat with
    | 2 => f.mm == 1#2 && f.c != 0#2
    | 3 => f.mm == 1#2 && !f.c.getLsbD 1
    | sub => f.mm == 1#2 && sub < 5
  | 15 => f.b.getLsbD 2 && !(f.a.extractLsb' 1 2 == 3#2 && f.mm.getLsbD 0)
  | _ => f.mm == 1#2 || f.mm == 3#2

/-- Why bytes are no extended instruction. -/
inductive DecodeError where
  /-- The first byte does not end in binary 11: a 6502 opcode (R121). -/
  | sixFiveOhTwo (byte0 : Byte)
  /-- Fewer bytes than the instruction's length. -/
  | truncated
deriving DecidableEq, Repr

/-- What decoding a list of bytes gives: an instruction and the bytes after it, or a rejection by name. -/
inductive Decoded where
  | instr (i : Instr) (rest : List Byte)
  | rejected (e : DecodeError)
deriving DecidableEq, Repr

/-- Is this the first byte of an extended opcode (R100)? -/
def isExtended (byte0 : Byte) : Bool := byte0.extractLsb' 0 2 == 3#2

/-- Decode the instruction at the head of a list of bytes, in address order (R101, R120), and give the bytes after it. -/
def decode (bytes : List Byte) : Decoded :=
  match bytes with
  | [] => .rejected .truncated
  | byte0 :: rest =>
    if isExtended byte0 then
      match rest with
      | [] => .rejected .truncated
      | byte1 :: rest =>
        let f := fieldsOf (byte0 ++ byte1)
        if takesOperand f then
          match rest with
          | byte2 :: byte3 :: rest => .instr (decodeFields f (byte3 ++ byte2)) rest
          | _ => .rejected .truncated
        else .instr (decodeFields f 0) rest
    else .rejected (.sixFiveOhTwo byte0)

/-! ### Encoding -/

/-- Mode, register field and operand word of an ALU source (R105); unused fields are 0 (R117). -/
def aluSrcFields (s : AluSrc) : BitVec 2 × BitVec 3 × Option Half :=
  match s with
  | .indirect b => (0, regBits b, none)
  | .indexed b o => (1, regBits b, some o)
  | .reg r => (2, regBits r, none)
  | .imm v => (3, 0, some v)

/-- The same for the operand of a shift or one-operand instruction. -/
def unOpFields (s : UnOp) : BitVec 2 × BitVec 3 × Option Half :=
  match s with
  | .indirect b => (0, regBits b, none)
  | .indexed b o => (1, regBits b, some o)
  | .reg r => (2, regBits r, none)

/-- The same for a load/store operand. -/
def memOpFields (s : MemOp) : BitVec 2 × BitVec 3 × Option Half :=
  match s with
  | .indirect b => (0, regBits b, none)
  | .indexed b o => (1, regBits b, some o)
  | .autoInc b => (2, regBits b, none)
  | .autoDec b => (3, regBits b, none)

/-- The same for MOV and MOVX with `e` = `hw[11]`. -/
def movSrcFields (e : BitVec 1) (s : MovSrc) : BitVec 2 × BitVec 3 × Option Half :=
  match s with
  | .reg r => (e ++ 0#1, regBits r, none)
  | .imm v => (e ++ 1#1, 0, some v)

/-- The fields and operand word of an instruction whose opcode is `op` and whose mode and register field come from `m`. -/
def withMode (op : BitVec 4) (m : BitVec 2 × BitVec 3 × Option Half) (b : BitVec 3) (c : BitVec 2) :
    Fields × Option Half :=
  ({ op := op, mm := m.1, a := m.2.1, b := b, c := c }, m.2.2)

/-- Two one bit fields, the more significant first. -/
def bits2 (hi lo : Bool) : BitVec 2 := BitVec.ofBool hi ++ BitVec.ofBool lo

/-- The fields of a branch (R115), Extend written 1 (46_branch.md R247). -/
def branchFields (test : BitVec 4) (taken : Bool) (disp : BitVec 20) : Fields × Option Half :=
  ({ op := 15, mm := test.extractLsb' 0 2, a := test.extractLsb' 2 2 ++ BitVec.ofBool taken,
     b := 1#1 ++ disp.extractLsb' 18 2, c := disp.extractLsb' 16 2 }, some (disp.extractLsb' 0 16))

/-- The fields of a reserved or operand-less word. -/
def plainFields (op : BitVec 4) (mm : BitVec 2) (a b : BitVec 3) (c : BitVec 2) : Fields × Option Half :=
  ({ op := op, mm := mm, a := a, b := b, c := c }, none)

/-- The fields and operand word of every instruction (R103); don't-care bits are 0 (R117). -/
def encodeFields (i : Instr) : Fields × Option Half :=
  match i with
  | .or s rd w => withMode 0 (aluSrcFields s) (regBits rd) (widthBits w)
  | .and s rd w => withMode 1 (aluSrcFields s) (regBits rd) (widthBits w)
  | .eor s rd w => withMode 2 (aluSrcFields s) (regBits rd) (widthBits w)
  | .add s rd w => withMode 3 (aluSrcFields s) (regBits rd) (widthBits w)
  | .addc s rd w => withMode 4 (aluSrcFields s) (regBits rd) (widthBits w)
  | .sub s rd w => withMode 5 (aluSrcFields s) (regBits rd) (widthBits w)
  | .subc s rd w => withMode 6 (aluSrcFields s) (regBits rd) (widthBits w)
  | .cmp s rd w => withMode 7 (aluSrcFields s) (regBits rd) (widthBits w)
  | .ld m rd w => withMode 8 (memOpFields m) (regBits rd) (widthBits w)
  | .st m data w => withMode 9 (memOpFields m) (regBits data) (widthBits w)
  | .mov s rd w => withMode 10 (movSrcFields 0 s) (regBits rd) (widthBits w)
  | .movx s rd w => withMode 10 (movSrcFields 1 s) (regBits rd) (widthBits w)
  | .jsr s w => withMode 11 (aluSrcFields s) 0 (bits2 false (transferBit w))
  | .ret w => plainFields 11 0 0 1 (bits2 false (transferBit w))
  | .trap t w => plainFields 11 (t.extractLsb' 0 2) (t.extractLsb' 2 3) 2 (bits2 false (transferBit w))
  | .trapb t w => plainFields 11 (t.extractLsb' 0 2) (t.extractLsb' 2 3) 2 (bits2 true (transferBit w))
  | .reti w => plainFields 11 0 0 3 (bits2 false (transferBit w))
  | .lcntr m w => withMode 11 (memOpFields m) 4 (bits2 false (cntrBit w))
  | .scntr m w => withMode 11 (memOpFields m) 4 (bits2 true (cntrBit w))
  | .cflag k => plainFields 11 (0#1 ++ k.extractLsb' 0 1) (k.extractLsb' 1 3) 5 0
  | .sflag k => plainFields 11 (1#1 ++ k.extractLsb' 0 1) (k.extractLsb' 1 3) 5 0
  | .lmmu m n => withMode 11 (memOpFields m) 6 (bits2 false (mmuRegBit n))
  | .smmu m n => withMode 11 (memOpFields m) 6 (bits2 true (mmuRegBit n))
  | .shl s k w => withMode 12 (unOpFields s) (0#1 ++ amountBits k) (widthBits w)
  | .shlc s k w => withMode 12 (unOpFields s) (1#1 ++ amountBits k) (widthBits w)
  | .shr s k w => withMode 13 (unOpFields s) (0#1 ++ amountBits k) (widthBits w)
  | .shrc s k w => withMode 13 (unOpFields s) (1#1 ++ amountBits k) (widthBits w)
  | .inc s w => withMode 14 (unOpFields s) 0 (widthBits w)
  | .dec s w => withMode 14 (unOpFields s) 1 (widthBits w)
  | .swap s w => withMode 14 (unOpFields s) 2 (widthBits w)
  | .mirror s w => withMode 14 (unOpFields s) 3 (widthBits w)
  | .bit s w => withMode 14 (unOpFields s) 4 (widthBits w)
  | .bpl t d => branchFields 0 t d
  | .bmi t d => branchFields 1 t d
  | .bvc t d => branchFields 2 t d
  | .bvs t d => branchFields 3 t d
  | .bcc t d => branchFields 4 t d
  | .bcs t d => branchFields 5 t d
  | .bne t d => branchFields 6 t d
  | .beq t d => branchFields 7 t d
  | .bge t d => branchFields 8 t d
  | .blt t d => branchFields 9 t d
  | .bgt t d => branchFields 10 t d
  | .ble t d => branchFields 11 t d
  | .bpo t d => branchFields 12 t d
  | .bra t d => branchFields 14 t d
  | .reserved1011x111 mm a c => plainFields 11 mm a 7 c
  | .reserved1110x101 mm a c => plainFields 14 mm a 5 c
  | .reserved1110x110 mm a c => plainFields 14 mm a 6 c
  | .reserved1110x111 mm a c => plainFields 14 mm a 7 c
  | .reservedShlMode11 a b c => plainFields 12 3 a b c
  | .reservedShrMode11 a b c => plainFields 13 3 a b c
  | .reservedUnaryMode11 a b c => plainFields 14 3 a b c
  | .reservedSwapB mm a => plainFields 14 mm a 2 0
  | .reservedMirrorHL mm a c0 => plainFields 14 mm a 3 (bits2 true c0)
  | .reservedBranchTest1101 t b c => plainFields 15 1 (3#2 ++ BitVec.ofBool t) b c
  | .reservedBranchTest1111 t b c => plainFields 15 3 (3#2 ++ BitVec.ofBool t) b c
  | .reservedBranchExtend0 mm a d c => plainFields 15 mm a (0#1 ++ d) c

/-- The instruction's first two bytes, then the operand word low byte first (R101, 20_memory.md R73). -/
def wordBytes (hw : Half) (opnd : Option Half) : List Byte :=
  [hw.extractLsb' 8 8, hw.extractLsb' 0 8] ++
    match opnd with
    | none => []
    | some o => [o.extractLsb' 0 8, o.extractLsb' 8 8]

/-- The bytes of an instruction in address order. -/
def encode (i : Instr) : List Byte :=
  wordBytes (packFields (encodeFields i).1) (encodeFields i).2

/-- The instruction's length in bytes, 2 or 4 (R102). -/
def Instr.len (i : Instr) : Nat := (encode i).length

/-! ### The host's view of the opcode table -/

/-- The four bytes of an instruction whose bits are `w`, numbered from the least significant bit of its first 16 bit
word `hw` on; bits at `nbits` and above are 0. Byte 0 is the high half of `hw`, the operand word lies low byte first. -/
def tableWordBytes (nbits w : Nat) : List Byte :=
  let v : BitVec 32 := BitVec.ofNat 32 (w % 2 ^ nbits)
  wordBytes (v.extractLsb' 0 16) (some (v.extractLsb' 16 16))

/-- The instruction the decoder reads from an instruction whose bits are `w`; none where it refuses. -/
def decodeTableWord (nbits w : Nat) : Option Instr :=
  match decode (tableWordBytes nbits w) with
  | .instr i _ => some i
  | .rejected _ => none

end Sys2Proof
end

