-- ==== Sys2Proof/Machine/Fetch.lean ====
section
/-! DEFINITION. Fetching an instruction's bytes, and placing bytes where the next instruction is fetched. -/

namespace Sys2Proof.Machine

/-- The older bytes a fetch from a place may still return (20_memory.md R91). -/
def oldBytes (l : List StaleByte) (bus : Bus) (addr : Word) : List Byte :=
  (l.filter (fun e => e.bus == bus && e.addr == addr)).map StaleByte.old

/-- One byte fetched from a physical place (20_memory.md R91): with Flags.ICA = 1 and older bytes standing, one of them or
the current byte, as a free value says; otherwise the current byte. -/
def fetchFrom (bus : Bus) (addr : Word) (s : State) : Byte × State :=
  match s.flag .ica, oldBytes s.stale bus addr with
  | true, b :: bs => (((b :: bs)[s.drawn.toNat]?).getD (s.busByte bus addr), s.afterDraw)
  | _, _ => (s.busByte bus addr, s)

/-- One byte fetched from a virtual address. -/
def fetchByte (va : Word) (s : State) : Res Byte :=
  (translate .fetch va s).bind fun p s =>
    let t := fetchFrom (readBus p.1) p.2 s
    .ok t.1 t.2

/-- The bytes of the instruction at `pc`, in address order: one for a 6502 opcode, which is refused (30_encoding.md R121),
else two, and two more when the first two ask for an operand word (R102). Addresses wrap (R122). -/
def fetch (s : State) : Res (List Byte) :=
  (fetchByte s.pc s).bind fun b0 s =>
    if isExtended b0 then
      (fetchByte (s.pc + 1) s).bind fun b1 s =>
        if takesOperand (fieldsOf (b0 ++ b1)) then
          (fetchByte (s.pc + 2) s).bind fun b2 s =>
            (fetchByte (s.pc + 3) s).bind fun b3 s => .ok [b0, b1, b2, b3] s
        else .ok [b0, b1] s
    else .ok [b0] s

/-- The refusal of bytes the decoder rejects. -/
def decodeRefusal (e : DecodeError) : Refusal :=
  match e with
  | .sixFiveOhTwo b => .sixFiveOhTwoOpcode b
  | .truncated => .truncatedInstruction

/-- Bytes placed in the I/O bus memory from an address on, from outside the machine (not a store of the processor). -/
def placeBytes (m : Memory) (addr : Word) (bs : List Byte) : Memory :=
  match bs with
  | [] => m
  | b :: bs => placeBytes (m.write addr.toNat b) (addr + 1) bs

end Sys2Proof.Machine
end

