-- ==== Sys2Proof/Machine/Interrupt.lean ====
section
/-! DEFINITION. When an interrupt is taken and what its entry does (60_exceptions.md R253 to R260). -/

namespace Sys2Proof.Machine

/-- May an interrupt be taken at this boundary (R257)? Some request is pending, Flags.I is 0, and the instruction just
completed did not write R0 (10_state.md R35; after CMP with R0 a free value says, R152). -/
def State.interruptible (s : State) : Bool :=
  !s.pending.isEmpty && !s.flag .i && !s.riHold

/-- The pending source taken now, if one is: at an open boundary the host's choice, which may also be to wait
(R257, R259), as a free value says. -/
def State.chosenInterrupt (s : State) : Option IntSource := s.pending[s.drawn.toNat]?

/-- The source leaves the pending set at its entry (R255, R256). -/
def State.dropSource (s : State) (src : IntSource) : State := { s with pending := s.pending.erase src }

/-- `TakeInterrupt(source)` (R256): the exception entry through `IntEntry`, pushing the address of the instruction not yet
executed; the source leaves the pending set; `ri_valid` is 0 on entry (R260). The model's choices where the spec is silent
(log 14). An MMU access trap met by the entry itself is taken as one met by an instruction at that address would be
(R258, R259). If it came on a push, the source is still pending. If it came on the vector read, which R256 puts after the
removal, the source has left the pending set, unless `MmuTrapEntry` undoes the partial effects: the removal is one of
them, and the source is pending again. -/
def takeInterrupt (src : IntSource) (s : State) : Host.Outcome State Fault Refusal :=
  let e := Config.intEntry src
  match takeException e.width s.pc e.vector false (s.startInstr 0) with
  | .ok _ s' => .next (s'.endInstr.dropSource src)
  | .trap va .read s' => takeMmuTrap va .read (s.startInstr 0) (s'.dropSource src)
  | .trap va kind s' => takeMmuTrap va kind (s.startInstr 0) s'
  | .refused r => .refused r

end Sys2Proof.Machine
end

