-- ==== Sys2Proof/Machine/Step.lean ====
section
/-! DEFINITION. One step of the machine: an interrupt entry at an open boundary, or one instruction. -/

namespace Sys2Proof.Machine

/-- Fetch, decode and execute the instruction at `pc`. -/
def stepInstr (s : State) : Host.Outcome State Fault Refusal :=
  match fetch s with
  | .ok bytes s' =>
    match decode bytes with
    | .instr i _ => exec i s'
    | .rejected e => .refused (decodeRefusal e)
  | .trap va kind s' => takeMmuTrap va kind (s.startInstr 0) (s'.startInstr 0)
  | .refused r => .refused r

/-- One step (60_exceptions.md R257, 70_reset_and_hazards.md R294): interrupts are considered at the boundary before an
instruction. The model's choice where R257 speaks only of the boundary after an instruction has completed (log 5): the
boundary before the first instruction, at reset or launch, counts too, so a request already pending there, with Flags.I = 0
and R0 not just written, may be taken before any instruction has run. -/
def step (s : State) : Host.Outcome State Fault Refusal :=
  if s.interruptible then
    match s.chosenInterrupt with
    | some src => takeInterrupt src s.afterDraw
    | none => stepInstr s.afterDraw
  else stepInstr s

/-- `s` with the instruction whose table bits are `w` stored at `pc`, and with what would keep the very next step from
fetching it removed: pending interrupts, translation, and older bytes a fetch could return (log 3). -/
def State.withFetchWord (s : State) (nbits w : Nat) : State :=
  { s with
    mem := placeBytes s.mem s.pc (tableWordBytes nbits w)
    flags := setFlag s.flags .mmu false
    pending := []
    stale := s.stale.filter (fun e => !(e.bus == .io && (e.addr - s.pc).toNat < 4)) }

end Sys2Proof.Machine
end

