-- ==== Sys2Proof/Safety.lean ====
section
/-! DEFINITION. The terms claims use: what a program sees of a state between two instructions, the invariant of every
step, and what one instruction has done to registers, Flags and memory. -/

namespace Sys2Proof.Machine

/-! ### What is seen between two instructions -/

/-- Flags.MMU = 0: addresses are used untranslated on the I/O bus (20_memory.md R80). -/
abbrev State.untranslated (s : State) : Prop := s.flag .mmu = false

/-- A register between two instructions: R0 as the next instruction will read it (10_state.md R33), R7 the address of the
next instruction (R40). -/
def State.reg (s : State) (r : Reg) : Word :=
  match r with
  | .r0 => if s.riValid then s.ri else 0
  | .r1 => s.r1
  | .r2 => s.r2
  | .r3 => s.r3
  | .r4 => s.r4
  | .r5 => s.r5
  | .r6 => s.r6
  | .r7 => s.pc

/-- `Mem[a]` while Flags.MMU = 0. -/
def State.ioByte (s : State) (a : Word) : Byte := s.busByte .io a

/-- The little-endian value of n bytes while Flags.MMU = 0, zero extended (00_scope.md R12). -/
def State.ioValue (s : State) (n : Size) (a : Word) : Word :=
  match n with
  | .one => (s.ioByte a).setWidth 32
  | .two => (s.ioByte (a + 1) ++ s.ioByte a).setWidth 32
  | .four => s.ioByte (a + 3) ++ s.ioByte (a + 2) ++ s.ioByte (a + 1) ++ s.ioByte a

/-! ### The invariant of every step -/

/-- What every step keeps: both memories in canonical form, the fields that live inside one instruction at rest, the
interrupt inhibit only after a write to R0 (10_state.md R35), and no source pending twice (60_exceptions.md R255). -/
structure State.Inv (s : State) : Prop where
  memWf : s.mem.wf = true
  sdramWf : s.sdram.wf = true
  written : s.riWritten = false
  holdNext : s.riHoldNext = false
  next : s.nextPc = s.pc
  hold : s.riHold = true → s.riValid = true
  pendingOnce : s.pending.Nodup

/-! ### What an instruction has done -/

/-- The registers an instruction writes, with the value of each. -/
abbrev RegWrites := Reg → Option Word

/-- No register. -/
def noRegs : RegWrites := fun _ => none

/-- One register. -/
def onlyReg (rd : Reg) (v : Word) : RegWrites := fun r => if r = rd then some v else none

/-- The updated base register of an autoincrement or autodecrement mode (30_encoding.md R106, R107), or none. -/
def State.baseWrite (s : State) (m : MemOp) (n : Size) : RegWrites :=
  match m with
  | .indirect _ => noRegs
  | .indexed _ _ => noRegs
  | .autoInc b => onlyReg b (s.regRead b + BitVec.ofNat 32 (Size.bytes n))
  | .autoDec b => onlyReg b (s.regRead b - BitVec.ofNat 32 (Size.bytes n))

/-- From `s` to `t` exactly the registers of `w` were written; R0, if not written, reads zero next (10_state.md R34) and
holds no interrupt off (R35); execution continues at the value written to R7, else at `next`. -/
structure RegsAfter (s t : State) (w : RegWrites) (next : Word) : Prop where
  general : ∀ r, r ≠ .r0 → r ≠ .r7 → t.reg r = (w r).getD (s.reg r)
  implicit : t.reg .r0 = (w .r0).getD 0
  valid : t.riValid = (w .r0).isSome
  held : t.riHold = (w .r0).isSome
  pc : t.pc = (w .r7).getD next

/-- M0 and M1 are unchanged. -/
structure MmuRegsKept (s t : State) : Prop where
  m0 : t.m0 = s.m0
  m1 : t.m1 = s.m1

/-- The flags an instruction writes, with the value of each. -/
abbrev FlagWrites := Flag → Option Bool

/-- From `f` to `g` exactly the flags of `w` were written: all sixteen bits (10_state.md R42). -/
def FlagsAfter (f g : Half) (w : FlagWrites) : Prop := ∀ k, getFlag g k = (w k).getD (getFlag f k)

/-- `SetZN(r, n)` (00_scope.md R13). -/
def znOf {n : Nat} (r : BitVec n) : FlagWrites := fun k =>
  match k with
  | .z => some (decide (r = 0#n))
  | .n => some (r.getLsbD (n - 1))
  | _ => none

/-- One more flag written. -/
def alsoFlag (k : Flag) (v : Bool) (w : FlagWrites) : FlagWrites := fun j => if j = k then some v else w j

/-- Is the bit one of the three flush commands (10_state.md R46)? -/
def isFlushFlag (k : Flag) : Bool := k = .fdc || k = .fic || k = .ftl

/-- `v` is what `FlagsRead()` may answer for `f` (43_control_system.md R180): every bit as it stands, but any value for a
flush bit that is set. -/
def FlagsReadAs (f v : Half) : Prop := ∀ k, getFlag v k = getFlag f k ∨ (isFlushFlag k = true ∧ getFlag f k = true)

/-- No byte of either memory changed. -/
def BytesKept (s t : State) : Prop := ∀ bus a, t.busByte bus a = s.busByte bus a

/-- No byte of either memory changed, nor what stands behind fetches, translations and interrupts. -/
structure MemoryKept (s t : State) : Prop where
  bytes : BytesKept s t
  stale : t.stale = s.stale
  tlb : t.tlb = s.tlb
  pending : t.pending = s.pending

/-- A byte of the I/O bus after the first k low bytes of `v` have been stored at `addr` and after it while Flags.MMU = 0. -/
def State.ioByteAfter (s : State) (addr : Word) (k : Nat) (v : Word) (a : Word) : Byte :=
  if (a - addr).toNat < k then v.extractLsb' (8 * (a - addr).toNat) 8 else s.ioByte a

/-- While `v` is stored at `addr` with Flags.MMU = 0, does byte k of it change the ROM control signals (20_memory.md R83)?
What changes them is the platform's, from the bytes of memory as they stand when that byte is written (log 13), with
neither M0 nor M1 (70_reset_and_hazards.md R281) nor the TLB consulted. -/
def State.romChange (s : State) (addr : Word) (v : Word) (k : Nat) : Bool :=
  let a := addr + BitVec.ofNat 32 k
  decide (a.toNat < 2) &&
    Config.romSignalsChange none (s.ioByteAfter addr k v) (s.busByte .sdram) a a .ioBus (v.extractLsb' (8 * k) 8)

/-- The pending set after the n low bytes of `v` have been stored at `addr` and after it while Flags.MMU = 0
(60_exceptions.md R255): the MMU interrupt is added if one of the bytes changes the ROM control signals. -/
def State.pendingAfterStore (s : State) (addr : Word) (n : Nat) (v : Word) : List IntSource :=
  if (List.range n).any (s.romChange addr v) ∧ IntSource.mmu ∉ s.pending then s.pending ++ [.mmu] else s.pending

/-- From `s` to `t` the n low bytes of `v` were stored at `addr` and after it (20_memory.md R74, R75), on the I/O bus, and
no other byte changed, nor M0 or M1; the replaced bytes are those a fetch with Flags.ICA = 1 may still see (R91); the MMU
interrupt is pending if the store changed the ROM control signals (60_exceptions.md R255). -/
structure Stored (s t : State) (addr : Word) (n : Nat) (v : Word) : Prop where
  inside : ∀ k, k < n → t.ioByte (addr + BitVec.ofNat 32 k) = v.extractLsb' (8 * k) 8
  outside : ∀ a : Word, ¬ (a - addr).toNat < n → t.ioByte a = s.ioByte a
  sdram : ∀ a, t.busByte .sdram a = s.busByte .sdram a
  stale : ∀ e, e ∈ t.stale ↔ e ∈ s.stale ∨ (e.bus = .io ∧ (e.addr - addr).toNat < n ∧ e.old = s.ioByte e.addr)
  tlb : t.tlb = s.tlb
  pending : t.pending = s.pendingAfterStore addr n v
  mmuRegs : MmuRegsKept s t

/-- `i` executes normally from `s`: exec answers a next state, in which exactly the registers of `w` and the flags of `f`
were written, execution continues at `next` (unless R7 was written), and memory and the MMU registers are kept. -/
def RunsTo (i : Instr) (s : State) (w : RegWrites) (next : Word) (f : FlagWrites) : Prop :=
  ∃ t, exec i s = .next t ∧ RegsAfter s t w next ∧ FlagsAfter s.flags t.flags f ∧ MemoryKept s t ∧ MmuRegsKept s t

/-- As `RunsTo`, and the n low bytes of `v` are stored at `addr`. -/
def RunsStoring (i : Instr) (s : State) (w : RegWrites) (next : Word) (f : FlagWrites) (addr : Word) (n : Nat)
    (v : Word) : Prop :=
  ∃ t, exec i s = .next t ∧ RegsAfter s t w next ∧ FlagsAfter s.flags t.flags f ∧ Stored s t addr n v ∧ MmuRegsKept s t

/-- No flag. -/
def noFlags : FlagWrites := fun _ => none

/-! ### Accesses byte by byte, translated or not -/

/-- What the setting in force answers to a byte access (20_memory.md R82): the mapping of its 1 KB block (R79), or, while
Flags.MMU = 0, the block itself on the I/O bus (R80). -/
def State.answer (s : State) (kind : AccessKind) (va : Word) : BlockMapping :=
  if s.flag .mmu then s.blockMapping (va.extractLsb' 10 22) kind else .mapped (va.extractLsb' 10 22) .ioBus

/-- One byte access: what for, where, and the byte fetched, read or written. -/
structure ByteAccess where
  kind : AccessKind
  va : Word
  byte : Byte
deriving DecidableEq, Repr

/-- Accesses to consecutive addresses modulo 2^32 (20_memory.md R75), lowest first. -/
def byteAccesses (kind : AccessKind) (addr : Word) (bs : List Byte) : List ByteAccess :=
  match bs with
  | [] => []
  | b :: bs => { kind := kind, va := addr, byte := b } :: byteAccesses kind (addr + 1) bs

/-- The n low bytes of a value, least significant first (20_memory.md R74). -/
def lowBytes (n : Nat) (v : Word) : List Byte := (List.range n).map fun k => v.extractLsb' (8 * k) 8

/-- Does a write with this routing reach this bus (20_memory.md R82 (b))? -/
def writesBus (r : Routing) (bus : Bus) : Bool :=
  match r with
  | .ioBus => bus = .io
  | .sdram => bus = .sdram
  | .writeBothReadSdram => true

/-- The parts of the state that accesses work on are the same. -/
structure SameMemory (s t : State) : Prop where
  mem : t.mem = s.mem
  sdram : t.sdram = s.sdram
  stale : t.stale = s.stale
  tlb : t.tlb = s.tlb
  pending : t.pending = s.pending
  draws : t.draws = s.draws
  m0 : t.m0 = s.m0
  m1 : t.m1 = s.m1
  mmu : t.flag .mmu = s.flag .mmu
  ica : t.flag .ica = s.flag .ica

/-- From `s` to `t` the byte access `x` was made at the physical address `pa` with the routing `r`. What a read answers
(20_memory.md R82 (b)) or a fetch (R91), the byte written (R82 (b)) and that no other byte changes, the byte an instruction
fetch may still see (R91), the setting that stays in the TLB (R85), and the MMU interrupt (R83, 60_exceptions.md R255;
log 13). -/
structure AccessMadeAt (s t : State) (x : ByteAccess) (r : Routing) (pa : Word) : Prop where
  answered : x.kind = .write ∨ x.byte = s.busByte (readBus r) pa ∨
    x.kind = .fetch ∧ s.flag .ica = true ∧ ({ bus := readBus r, addr := pa, old := x.byte } : StaleByte) ∈ s.stale
  bytes : ∀ bus a, t.busByte bus a =
    if x.kind = .write ∧ a = pa ∧ writesBus r bus = true then x.byte else s.busByte bus a
  stale : ∀ e, e ∈ t.stale ↔ e ∈ s.stale ∨
    (x.kind = .write ∧ e.addr = pa ∧ writesBus r e.bus = true ∧ e.old = s.busByte e.bus pa)
  tlb : ∀ e, e ∈ t.tlb ↔ e ∈ s.tlb ∨ (s.flag .mmu = true ∧ e.block = x.va.extractLsb' 10 22 ∧
    e.setting = s.blockSetting (x.va.extractLsb' 10 22))
  pending : t.pending =
    if x.kind = .write ∧ (x.va.toNat < 2 ∨ pa.toNat < 2) ∧ IntSource.mmu ∉ s.pending ∧
        Config.romSignalsChange s.mmuView (s.busByte .io) (s.busByte .sdram) x.va pa r x.byte = true then
      s.pending ++ [.mmu]
    else s.pending
  draws : x.kind = .fetch ∨ t.draws = s.draws + (s.flag .mmu).toNat
  m0 : t.m0 = s.m0
  m1 : t.m1 = s.m1
  mmu : t.flag .mmu = s.flag .mmu
  ica : t.flag .ica = s.flag .ica

/-- From `s` to `t` the byte access `x` was made where the setting of its block maps it, the offset within the block kept
(20_memory.md R79). -/
def AccessMade (s t : State) (x : ByteAccess) : Prop :=
  ∃ block r, s.answer x.kind x.va = .mapped block r ∧ AccessMadeAt s t x r (block ++ x.va.extractLsb' 0 10)

/-- From `s` to `t` the byte accesses of `l` were made, in this order (20_memory.md R88), and no other. -/
def AccessesMade (s t : State) (l : List ByteAccess) : Prop :=
  match l with
  | [] => SameMemory s t
  | x :: l => ∃ u, AccessMade s u x ∧ AccessesMade u t l

/-- The first of the accesses of `l` whose block's setting asks for a trap is the one of this kind at `va` (60_exceptions.md
R259): those before it were made, which leads to `u`, and it was not (log 7). -/
def TrapsAt (s u : State) (l : List ByteAccess) (kind : AccessKind) (va : Word) : Prop :=
  ∃ before x after, l = before ++ x :: after ∧ x.kind = kind ∧ x.va = va ∧ AccessesMade s u before ∧
    u.answer kind va = .trap

/-- Nothing but what accesses change differs. -/
def OnlyAccessed (s t : State) : Prop :=
  t = { s with mem := t.mem, sdram := t.sdram, stale := t.stale, tlb := t.tlb, pending := t.pending, draws := t.draws }

/-- The accesses of an exception's entry with SP at `sp` (60_exceptions.md R260): the return address and the Flags image
pushed, the handler's address read. -/
def entryAccesses (w : TransferWidth) (returnTo vector sp : Word) (image : Half) (handler : Word) : List ByteAccess :=
  let n := Size.bytes (transferSize w)
  byteAccesses .write sp (lowBytes n returnTo) ++
    byteAccesses .write (sp - BitVec.ofNat 32 n) (lowBytes 2 (image.setWidth 32)) ++
    byteAccesses .read vector (lowBytes n handler)

/-- An exception's entry taken in `s` meets an access trap at `va`, having reached `u` (60_exceptions.md R259, R260): while
the return address is pushed, with SP and Flags as they were; or while the Flags image is pushed, with SP below the return
address; or while the handler's address is read, with SP below the frame, I set and B as the entry leaves it. Every access
before it was made; M0, M1, and every other register and flag are as in `s`. `k` counts the free values used up before. -/
def EntryTrapsAt (s : State) (k : Nat) (w : TransferWidth) (returnTo vector : Word) (image : Half) (brk : Bool) (u : State)
    (kind : AccessKind) (va : Word) : Prop :=
  let n := Size.bytes (transferSize w)
  let s' : State := { s with draws := k }
  let address := byteAccesses .write s.r6 (lowBytes n returnTo)
  let flags := byteAccesses .write (s.r6 - BitVec.ofNat 32 n) (lowBytes 2 (image.setWidth 32))
  (kind = .write ∧ TrapsAt s' u address .write va ∧ OnlyAccessed s u) ∨
  (kind = .write ∧ ∃ t, AccessesMade s' t address ∧ TrapsAt t u flags .write va ∧
    OnlyAccessed { s with r6 := s.r6 - BitVec.ofNat 32 n } u) ∨
  (kind = .read ∧ ∃ t handler, AccessesMade s' t (address ++ flags) ∧
    TrapsAt t u (byteAccesses .read vector (lowBytes n handler)) .read va ∧
    OnlyAccessed { s with r6 := s.r6 - BitVec.ofNat 32 n - 2, flags := u.flags } u ∧
    FlagsAfter s.flags u.flags (alsoFlag .i true (alsoFlag .b brk noFlags)))

/-- From `s` to `t` the entry of an MMU access trap was taken as `e` says (60_exceptions.md R256, R258, R260; its shape is
the model's reading of R258, log 7): the address to return to and then an image of Flags were pushed, I set, B cleared,
and execution continues at the address read at the vector; no other access was made; R0 reads zero next and no interrupt
is held off (log 7). `k` counts the free values used up before. -/
structure AccessTrapTaken (s t : State) (e : MmuTrapEntry) : Prop where
  accesses : ∃ image k, FlagsReadAs s.flags image ∧
    AccessesMade { s with draws := k } t (entryAccesses e.width e.returnTo e.vector s.r6 image t.pc)
  handlerSize : t.pc.toNat < 2 ^ (8 * Size.bytes (transferSize e.width))
  regs : RegsAfter s t (onlyReg .r6 (s.r6 - BitVec.ofNat 32 (Size.bytes (transferSize e.width)) - 2)) t.pc
  flags : FlagsAfter s.flags t.flags (alsoFlag .i true (alsoFlag .b false noFlags))

/-! ### Source operands while Flags.MMU = 0 -/

/-- `SrcOperand` (40_alu2op.md R140). -/
def State.aluValue (s : State) (src : AluSrc) (w : Width) : BitVec (widthBitCount w) :=
  match src with
  | .indirect b => (s.ioValue (widthSize w) (s.regRead b)).setWidth _
  | .indexed b o => (s.ioValue (widthSize w) (s.regRead b + o.setWidth 32)).setWidth _
  | .reg r => s.laneRead r w
  | .imm v => s.immediate w v

/-- `ShiftOperand`, `UnOperand` (44_shift.md R210, 45_unary.md R220). -/
def State.unValue (s : State) (op : UnOp) (w : Width) : BitVec (widthBitCount w) :=
  match op with
  | .indirect b => (s.ioValue (widthSize w) (s.regRead b)).setWidth _
  | .indexed b o => (s.ioValue (widthSize w) (s.regRead b + o.setWidth 32)).setWidth _
  | .reg r => s.laneRead r w

/-- The address ST stores to (41_load_store.md R162, R163). -/
def State.storeAddr (s : State) (dst : MemOp) (data : Reg) (n : Size) : Word :=
  if memOpBase dst = .r0 ∧ data = .r0 ∧ isAuto dst = false then stZeroBaseAddr dst else s.memOpAddr dst n

/-- The target of JSR (43_control_system.md R181). -/
def State.jsrValue (s : State) (target : AluSrc) (w : TransferWidth) : Word :=
  match target, w with
  | .indirect b, w => s.ioValue (transferSize w) (s.regRead b)
  | .indexed b o, w => s.ioValue (transferSize w) (s.regRead b + o.setWidth 32)
  | .reg r, .word => ((s.regRead r).extractLsb' 0 16).setWidth 32
  | .reg r, .long => s.regRead r
  | .imm v, .word => v.setWidth 32
  | .imm v, .long => (s.regRead .r0).extractLsb' 16 16 ++ v

/-! ### Classes of instructions -/

/-- Not one of the auto mode forms that 30_encoding.md R108 (a) refuses. -/
def autoBaseOk (m : MemOp) : Prop := isAuto m = true → memOpBase m ≠ .r0

/-- The instructions that store to memory (20_memory.md R76). -/
def storesMemory (i : Instr) : Bool :=
  match i with
  | .st _ _ _ => true
  | .jsr _ _ => true
  | .trap _ _ => true
  | .trapb _ _ => true
  | .scntr _ _ => true
  | .smmu _ _ => true
  | _ => false

/-- Does the destination operand of a one-operand form lie in R0 (10_state.md R37)? -/
def unOpToR0 (op : UnOp) : Bool :=
  match op with
  | .indirect _ => true
  | .indexed _ _ => true
  | .reg r => r = .r0

/-- The instructions that write R0 (10_state.md R34, R37). -/
def writesR0 (i : Instr) : Bool :=
  match i with
  | .or _ rd _ => rd = .r0
  | .and _ rd _ => rd = .r0
  | .eor _ rd _ => rd = .r0
  | .add _ rd _ => rd = .r0
  | .addc _ rd _ => rd = .r0
  | .sub _ rd _ => rd = .r0
  | .subc _ rd _ => rd = .r0
  | .ld _ rd _ => rd = .r0
  | .mov _ rd _ => rd = .r0
  | .movx _ rd _ => rd = .r0
  | .shl op _ _ => unOpToR0 op
  | .shlc op _ _ => unOpToR0 op
  | .shr op _ _ => unOpToR0 op
  | .shrc op _ _ => unOpToR0 op
  | .inc op _ => unOpToR0 op
  | .dec op _ => unOpToR0 op
  | .swap op _ => unOpToR0 op
  | .mirror op _ => unOpToR0 op
  | _ => false

/-- `CMP` with R0 in its destination field, for which the spec leaves open whether it writes R0 (40_alu2op.md R152). -/
def isCmpR0 (i : Instr) : Bool :=
  match i with
  | .cmp _ rd _ => rd = .r0
  | _ => false

/-- Z and N. -/
def isZN (k : Flag) : Bool := k = .z || k = .n

/-- C, Z and N. -/
def isCZN (k : Flag) : Bool := k = .c || isZN k

/-- C, Z, V and N. -/
def isCZVN (k : Flag) : Bool := k = .v || isCZN k

/-- The flags the entry of each instruction lists as written (the *Flags* line of its rule), with the width and the flag
number where they matter; the entry of an MMU access trap, which writes I and B, is not counted. -/
def mayWriteFlag (i : Instr) (k : Flag) : Bool :=
  match i with
  | .or _ _ _ => isZN k
  | .and _ _ _ => isZN k
  | .eor _ _ _ => isZN k
  | .add _ _ _ => isCZVN k
  | .addc _ _ _ => isCZVN k
  | .sub _ _ _ => isCZVN k
  | .subc _ _ _ => isCZVN k
  | .cmp _ _ _ => isCZN k
  | .ld _ _ _ => isZN k
  | .st _ _ _ => isZN k
  | .mov _ _ _ => isZN k
  | .movx _ _ _ => isZN k
  | .trap _ _ => k = .i || k = .b
  | .trapb _ _ => k = .i || k = .b
  | .reti _ => true
  | .lcntr _ w => w = .word || flagIndex k < 8
  | .cflag n => flagIndex k = n.toNat
  | .sflag n => flagIndex k = n.toNat
  | .lmmu _ _ => isZN k
  | .smmu _ _ => isZN k
  | .shl _ _ _ => isCZN k
  | .shlc _ _ _ => isCZN k
  | .shr _ _ _ => isCZN k
  | .shrc _ _ _ => isCZN k
  | .inc _ _ => isZN k
  | .dec _ _ => isZN k
  | .swap _ _ => isZN k
  | .mirror _ _ => isZN k
  | .bit _ _ => k = .v || isZN k
  | _ => false

/-- The instruction that writes the MMU registers (10_state.md R49). -/
def isLmmu (i : Instr) : Bool :=
  match i with
  | .lmmu _ _ => true
  | _ => false

end Sys2Proof.Machine
end

