-- ==== Sys2Proof/Certificates/Slice0/Obligations.lean ====
section
/-! DEFINITION. The statements for the provers. Every statement about an instruction that accesses memory has Flags.MMU = 0
among its hypotheses, the case the spec fixes; with the MMU enabled see the statements named Translated and
MmuAccessTrapEntry. Throughout, lanes, byte order, the extension of offset16 and the value R7 reads as are the choices
of the spec that logs 22, 15, 19 and 23 name (92_eei_decisions.md D6, D1, D4, D7). -/

open Sys2Proof Sys2Proof.Machine

/-! ### Encoding -/

/-- 30_encoding.md R100 to R117: decoding what the encoder writes gives the instruction back, with every operand, and
leaves the bytes after it. -/
def Obligations.DecodeEncodeAgree : Prop :=
  ∀ (i : Instr) (rest : List Byte), i.WellFormed → decode (encode i ++ rest) = .instr i rest

/-- The bytes of worked examples of the spec, one or more of each family, decode to the instruction the spec names. -/
def Obligations.SpecWordsDecode : Prop :=
  decode [0x0B, 0x44] = .instr (.or (.reg .r2) .r1 .byte) [] ∧
  decode [0x5F, 0x04, 0x03, 0x00] = .instr (.sub (.imm 3) .r1 .byte) [] ∧
  decode [0x87, 0x46, 0x10, 0x00] = .instr (.ld (.indexed .r2 0x10) .r1 .high) [] ∧
  decode [0x9F, 0xC3] = .instr (.st (.autoDec .r6) .r0 .long) [] ∧
  decode [0xA7, 0x02, 0x34, 0x12] = .instr (.mov (.imm 0x1234) .r0 .high) [] ∧
  decode [0xB7, 0x29] = .instr (.trap 5 .long) [] ∧
  decode [0xBB, 0x14] = .instr (.sflag 0) [] ∧
  decode [0xBF, 0x5B] = .instr (.smmu (.autoDec .r2) .m1) [] ∧
  decode [0xD7, 0xAF, 0x34, 0x12] = .instr (.shr (.indexed .r5 0x1234) .three .long) [] ∧
  decode [0xEB, 0x2D] = .instr (.mirror (.reg .r1) .word) [] ∧
  decode [0xFB, 0xDF, 0xFE, 0xFF] = .instr (.bra false 0xFFFFE) []

/-- 30_encoding.md R102, R118 to R121: every four bytes whose first ends in 11 begin with a well-formed instruction of the
length its encoding has, or with a reserved pattern; any other first byte is a 6502 opcode. The length two that a
reserved pattern is given is the model's choice (log 30): R119 gives it no length. -/
def Obligations.EveryWordDecodes : Prop :=
  (∀ b0 b1 b2 b3 : Byte, isExtended b0 = true →
    ∃ i rest, decode [b0, b1, b2, b3] = .instr i rest ∧ i.WellFormed ∧ i.len + rest.length = 4) ∧
  (∀ (b0 : Byte) (rest : List Byte), isExtended b0 = false → decode (b0 :: rest) = .rejected (.sixFiveOhTwo b0))

/-- 30_encoding.md R117 (ignored on decode by 92_eei_decisions.md D22, log 32): the bits that RET, RETI, JSR, CFLAG and SFLAG
do not use, and the register field of every instruction with a 16 bit immediate (OR to CMP, MOV, MOVX, JSR), may have
any value; the instruction, its operands and its length are the same. -/
def Obligations.DontCareBitsIgnored : Prop :=
  ∀ (mm : BitVec 2) (a b : BitVec 3) (c : BitVec 2) (x w : Bool) (k : BitVec 4) (lo hi : Byte) (rest : List Byte),
    let first := fun (op : BitVec 4) (mm : BitVec 2) => (op ++ mm ++ 3#2 : Byte)
    let imm := fun (op : BitVec 4) => decode (first op 3 :: (a ++ b ++ c : Byte) :: lo :: hi :: rest)
    let rd := regOfBits b
    let width := widthOfBits c
    decode (first 11 mm :: (a ++ 1#3 ++ bits2 x w : Byte) :: rest) = .instr (.ret (transferOfBit w)) rest ∧
    decode (first 11 mm :: (a ++ 3#3 ++ bits2 x w : Byte) :: rest) = .instr (.reti (transferOfBit w)) rest ∧
    decode (first 11 0 :: (a ++ 0#3 ++ bits2 x w : Byte) :: rest) =
      .instr (.jsr (.indirect (regOfBits a)) (transferOfBit w)) rest ∧
    decode (first 11 1 :: (a ++ 0#3 ++ bits2 x w : Byte) :: lo :: hi :: rest) =
      .instr (.jsr (.indexed (regOfBits a) (hi ++ lo)) (transferOfBit w)) rest ∧
    decode (first 11 2 :: (a ++ 0#3 ++ bits2 x w : Byte) :: rest) =
      .instr (.jsr (.reg (regOfBits a)) (transferOfBit w)) rest ∧
    decode (first 11 3 :: (a ++ 0#3 ++ bits2 x w : Byte) :: lo :: hi :: rest) =
      .instr (.jsr (.imm (hi ++ lo)) (transferOfBit w)) rest ∧
    decode (first 11 (0#1 ++ k.extractLsb' 0 1) :: (k.extractLsb' 1 3 ++ 5#3 ++ c : Byte) :: rest) =
      .instr (.cflag k) rest ∧
    decode (first 11 (1#1 ++ k.extractLsb' 0 1) :: (k.extractLsb' 1 3 ++ 5#3 ++ c : Byte) :: rest) =
      .instr (.sflag k) rest ∧
    imm 0 = .instr (.or (.imm (hi ++ lo)) rd width) rest ∧
    imm 1 = .instr (.and (.imm (hi ++ lo)) rd width) rest ∧
    imm 2 = .instr (.eor (.imm (hi ++ lo)) rd width) rest ∧
    imm 3 = .instr (.add (.imm (hi ++ lo)) rd width) rest ∧
    imm 4 = .instr (.addc (.imm (hi ++ lo)) rd width) rest ∧
    imm 5 = .instr (.sub (.imm (hi ++ lo)) rd width) rest ∧
    imm 6 = .instr (.subc (.imm (hi ++ lo)) rd width) rest ∧
    imm 7 = .instr (.cmp (.imm (hi ++ lo)) rd width) rest ∧
    decode (first 10 (bits2 false true) :: (a ++ b ++ c : Byte) :: lo :: hi :: rest) =
      .instr (.mov (.imm (hi ++ lo)) rd width) rest ∧
    decode (first 10 (bits2 true true) :: (a ++ b ++ c : Byte) :: lo :: hi :: rest) =
      .instr (.movx (.imm (hi ++ lo)) rd width) rest

/-! ### The step and its invariant -/

/-- When the bytes at pc decode to an instruction, no interrupt may be taken and fetches see memory (Flags.ICA = 0 or no
byte stored to since the last flush, 20_memory.md R91), the step is exec of that instruction. -/
def Obligations.StepRunsDecodedInstruction : Prop :=
  ∀ (s : State) (i : Instr) (rest : List Byte), s.untranslated → s.flag .ica = false ∨ s.stale = [] →
    s.interruptible = false →
    decode [s.ioByte s.pc, s.ioByte (s.pc + 1), s.ioByte (s.pc + 2), s.ioByte (s.pc + 3)] = .instr i rest →
    step s = exec i s

/-- 30_encoding.md R121: a first byte that does not end in 11 is a 6502 opcode and is refused by name. -/
def Obligations.BaseSetOpcodeRefused : Prop :=
  ∀ s : State, s.untranslated → s.flag .ica = false ∨ s.stale = [] → s.interruptible = false →
    isExtended (s.ioByte s.pc) = false → step s = .refused (.sixFiveOhTwoOpcode (s.ioByte s.pc))

/-- The reset state has the invariant. -/
def Obligations.InvariantAtReset : Prop := State.reset.Inv

/-- Every step keeps the invariant, whatever the instruction, the MMU's mapping, the traps and the interrupts. -/
def Obligations.InvariantKeptByStep : Prop := ∀ s t : State, s.Inv → step s = .next t → t.Inv

/-- 10_state.md R53: after reset the MMU is disabled, so that every access is untranslated on the I/O bus, and R0 reads
zero. -/
def Obligations.ResetIsUntranslated : Prop :=
  State.reset.untranslated ∧ State.reset.regRead .r0 = 0 ∧
  ∀ kind va, translate kind va State.reset = .ok (.ioBus, va) State.reset

/-- 20_memory.md R80, 60_exceptions.md R252: with Flags.MMU = 0 no step faults, and no instruction changes SDRAM. -/
def Obligations.UntranslatedStepsNeverFault : Prop :=
  ∀ s : State, s.untranslated →
    (∀ r, step s ≠ .fault r) ∧
    ∀ i t, exec i s = .next t → ∀ a, t.busByte .sdram a = s.busByte .sdram a

/-! ### Two-operand instructions -/

/-- 00_scope.md R10, R11: a lane write replaces the bits of the lane and keeps every other bit. -/
def Obligations.LaneWriteIsExact : Prop :=
  ∀ (w : Width) (t : Word) (v : BitVec (widthBitCount w)) (i : Nat), i < 32 →
    (laneMerge w t v).getLsbD i =
      if laneLow w ≤ i ∧ i < laneLow w + widthBitCount w then v.getLsbD (i - laneLow w) else t.getLsbD i

/-- 40_alu2op.md R145 to R147: OR, AND and EOR write the result to the destination's lane and Z and N, nothing else. -/
def Obligations.LogicResult : Prop :=
  ∀ (src : AluSrc) (rd : Reg) (w : Width) (s : State), s.untranslated →
    let a := s.aluValue src w
    let b := s.laneRead rd w
    let next := s.pc + aluSrcLen src
    RunsTo (.or src rd w) s (onlyReg rd (laneMerge w (s.regRead rd) (a ||| b))) next (znOf (a ||| b)) ∧
    RunsTo (.and src rd w) s (onlyReg rd (laneMerge w (s.regRead rd) (a &&& b))) next (znOf (a &&& b)) ∧
    RunsTo (.eor src rd w) s (onlyReg rd (laneMerge w (s.regRead rd) (a ^^^ b))) next (znOf (a ^^^ b))

/-- 40_alu2op.md R143, R148, R149: the wrapped sum, C the carry out, V signed overflow (by D11, log 24), Z and N of the
result. -/
def Obligations.AddResult : Prop :=
  ∀ (src : AluSrc) (rd : Reg) (w : Width) (s : State), s.untranslated →
    let n := widthBitCount w
    let a := s.aluValue src w
    let b := s.laneRead rd w
    let next := s.pc + aluSrcLen src
    let sum := fun cin : Bool => a.toNat + b.toNat + cin.toNat
    let r := fun cin : Bool => BitVec.ofNat n (sum cin)
    let flags := fun cin : Bool =>
      alsoFlag .c (decide (2 ^ n ≤ sum cin))
        (alsoFlag .v (a.getLsbD (n - 1) == b.getLsbD (n - 1) && (r cin).getLsbD (n - 1) != a.getLsbD (n - 1))
          (znOf (r cin)))
    RunsTo (.add src rd w) s (onlyReg rd (laneMerge w (s.regRead rd) (r false))) next (flags false) ∧
    RunsTo (.addc src rd w) s (onlyReg rd (laneMerge w (s.regRead rd) (r (s.flag .c)))) next (flags (s.flag .c))

/-- 40_alu2op.md R144, R150, R151 (SUB_ORDER and SUB_CARRY_SENSE at the spec's defaults, 92_eei_decisions.md D9, D10; log 17,
log 18): the wrapped difference source minus destination, C the borrow, V signed overflow (by D11, log 24), Z and N of
the result. -/
def Obligations.SubtractResult : Prop :=
  ∀ (src : AluSrc) (rd : Reg) (w : Width) (s : State), s.untranslated →
    let n := widthBitCount w
    let a := s.aluValue src w
    let b := s.laneRead rd w
    let next := s.pc + aluSrcLen src
    let diff := fun cin : Bool => (a.toNat : Int) - b.toNat - cin.toNat
    let r := fun cin : Bool => BitVec.ofInt n (diff cin)
    let flags := fun cin : Bool =>
      alsoFlag .c (decide (diff cin < 0))
        (alsoFlag .v (a.getLsbD (n - 1) != b.getLsbD (n - 1) && (r cin).getLsbD (n - 1) != a.getLsbD (n - 1))
          (znOf (r cin)))
    RunsTo (.sub src rd w) s (onlyReg rd (laneMerge w (s.regRead rd) (r false))) next (flags false) ∧
    RunsTo (.subc src rd w) s (onlyReg rd (laneMerge w (s.regRead rd) (r (s.flag .c)))) next (flags (s.flag .c))

/-- The V of the laws of addition and subtraction is set exactly when the signed result does not fit the width. That V means
this is the spec's choice (92_eei_decisions.md D11, marked there as from general knowledge; log 24); the operand order and
the borrow are those of D9 and D10 (log 17, log 18). -/
def Obligations.OverflowIsSignedOverflow : Prop :=
  ∀ (w : Width) (a b : BitVec (widthBitCount w)) (cin : Bool),
    let n := widthBitCount w
    ((addLaw a b cin).v = true ↔
      ¬ (-(2 ^ (n - 1) : Int) ≤ a.toInt + b.toInt + cin.toNat ∧ a.toInt + b.toInt + cin.toNat < 2 ^ (n - 1))) ∧
    ((subLaw a b cin).v = true ↔
      ¬ (-(2 ^ (n - 1) : Int) ≤ a.toInt - b.toInt - cin.toNat ∧ a.toInt - b.toInt - cin.toNat < 2 ^ (n - 1)))

/-- 40_alu2op.md R152: CMP writes C, Z and N from source minus destination and no register; V stays. The operand order and
C = 1 for a borrow are the spec's choices (SUB_ORDER, SUB_CARRY_SENSE: D9, D10; log 17, log 18). With R0 in the
destination field nothing is said of R0 and the interrupt inhibit afterwards, which the spec leaves open. -/
def Obligations.CompareResult : Prop :=
  ∀ (src : AluSrc) (rd : Reg) (w : Width) (s : State), s.untranslated →
    let n := widthBitCount w
    let a := s.aluValue src w
    let b := s.laneRead rd w
    let r := BitVec.ofInt n ((a.toNat : Int) - b.toNat)
    ∃ t, exec (.cmp src rd w) s = .next t ∧
      (∀ q, q ≠ .r0 → q ≠ .r7 → t.reg q = s.reg q) ∧ t.pc = s.pc + aluSrcLen src ∧
      FlagsAfter s.flags t.flags (alsoFlag .c (decide (a.toNat < b.toNat)) (znOf r)) ∧
      MemoryKept s t ∧ MmuRegsKept s t ∧
      (rd ≠ .r0 → t.riValid = false ∧ t.riHold = false)

/-- 46_branch.md R231: what the branches read after a subtraction. After CMP or SUB, Z = 1 exactly when the operands were
equal and C = 1 exactly when the source was lower, unsigned; after SUB, N differs from V exactly when the source was less,
signed. Which operand is the lower, C = 1 for a borrow and what V means are the spec's choices (D9, D10, D11; log 17,
log 18, log 24). -/
def Obligations.ComparisonDecidesOrder : Prop :=
  ∀ (src : AluSrc) (rd : Reg) (w : Width) (s t u : State), s.untranslated →
    exec (.cmp src rd w) s = .next t → exec (.sub src rd w) s = .next u →
    let a := s.aluValue src w
    let b := s.laneRead rd w
    (t.flag .z = true ↔ a = b) ∧ (t.flag .c = true ↔ a.toNat < b.toNat) ∧
    (u.flag .z = true ↔ a = b) ∧ (u.flag .c = true ↔ a.toNat < b.toNat) ∧
    (lessThan u.flags = true ↔ a.toInt < b.toInt)

/-! ### Load, store, move -/

/-- 41_load_store.md R160, R161, 30_encoding.md R106, R107: LD reads at the effective address, writes the destination's
lane, updates the base of an auto mode, and sets Z and N; the forms of R108 are excluded. -/
def Obligations.LoadResult : Prop :=
  ∀ (src : MemOp) (rd : Reg) (w : Width) (s : State), s.untranslated → autoBaseOk src →
    (isAuto src = true → memOpBase src ≠ rd) →
    let v : BitVec (widthBitCount w) := (s.ioValue (widthSize w) (s.memOpAddr src (widthSize w))).setWidth _
    RunsTo (.ld src rd w) s
      (fun q => if q = rd then some (laneMerge w (s.regRead rd) v) else s.baseWrite src (widthSize w) q)
      (s.pc + memOpLen src) (znOf v)

/-- 41_load_store.md R160, R162, R163: ST stores the data register's lane, read before any base update, at the effective
address, or from base zero when base and data are both R0; it writes no register but an updated base, and Z and N. That it
writes Z and N is the spec's choice (ST_SETS_ZN at its default, D12; log 25). -/
def Obligations.StoreResult : Prop :=
  ∀ (dst : MemOp) (data : Reg) (w : Width) (s : State), s.untranslated → autoBaseOk dst →
    (isAuto dst = true → memOpBase dst ≠ data) →
    RunsStoring (.st dst data w) s (s.baseWrite dst (widthSize w)) (s.pc + memOpLen dst) (znOf (s.laneRead data w))
      (s.storeAddr dst data (widthSize w)) (Size.bytes (widthSize w)) ((s.laneRead data w).setWidth 32)

/-- 20_memory.md R83, 60_exceptions.md R255: a store that covers $0000 or $0001, of any width and by any instruction, its
address wrapping or not, makes the MMU interrupt pending if a byte of it changes the ROM control signals; every other
instruction leaves the pending set as it is. What changes the signals is the platform's (`Config.romSignalsChange`);
that each byte of an access is asked about by itself, and with Flags.MMU = 0 too, is the model's choice (log 13). An interrupt's own pushes are in InterruptEntry. -/
def Obligations.RomControlStoreRequestsInterrupt : Prop :=
  ∀ s : State, s.untranslated →
    (∀ dst data w, autoBaseOk dst → (isAuto dst = true → memOpBase dst ≠ data) →
      ∃ t, exec (.st dst data w) s = .next t ∧
        t.pending = s.pendingAfterStore (s.storeAddr dst data (widthSize w)) (Size.bytes (widthSize w))
          ((s.laneRead data w).setWidth 32)) ∧
    (∀ dst w, autoBaseOk dst → ∃ t image, exec (.scntr dst w) s = .next t ∧ FlagsReadAs s.flags image ∧
      t.pending = s.pendingAfterStore (s.memOpAddr dst (cntrSize w)) (Size.bytes (cntrSize w)) (image.setWidth 32)) ∧
    (∀ dst n, autoBaseOk dst → ∃ t, exec (.smmu dst n) s = .next t ∧
      t.pending = s.pendingAfterStore (s.memOpAddr dst .four) 4 (s.mmuReg n)) ∧
    (∀ target w, ∃ t, exec (.jsr target w) s = .next t ∧
      t.pending = s.pendingAfterStore s.r6 (Size.bytes (transferSize w)) (s.pc + aluSrcLen target - 1)) ∧
    (∀ n w (brk : Bool), ∃ t u image, exec (if brk then .trapb n w else .trap n w) s = .next t ∧
      FlagsReadAs s.flags image ∧ Stored s u s.r6 (Size.bytes (transferSize w)) (s.pc + 2) ∧
      t.pending = u.pendingAfterStore (s.r6 - BitVec.ofNat 32 (Size.bytes (transferSize w))) 2 (image.setWidth 32)) ∧
    (∀ i t, storesMemory i = false → exec i s = .next t → t.pending = s.pending)

/-- 42_move.md R171, R172: MOV writes the lane; MOVX writes all 32 bits with the sign extension of the source. -/
def Obligations.MoveResult : Prop :=
  ∀ (src : MovSrc) (rd : Reg) (w : Width) (s : State),
    let v := s.movOperand src w
    RunsTo (.mov src rd w) s (onlyReg rd (laneMerge w (s.regRead rd) v)) (s.pc + movSrcLen src) (znOf v) ∧
    RunsTo (.movx src rd w) s (onlyReg rd (BitVec.ofInt 32 v.toInt)) (s.pc + movSrcLen src)
      (znOf (BitVec.ofInt 32 v.toInt))

/-! ### Calls, traps and returns -/

/-- 43_control_system.md R181: JSR pushes the address of the next instruction minus one, at the width's size, and continues
at the target, which is found before the push. -/
def Obligations.JsrResult : Prop :=
  ∀ (target : AluSrc) (w : TransferWidth) (s : State), s.untranslated →
    RunsStoring (.jsr target w) s (onlyReg .r6 (s.r6 - BitVec.ofNat 32 (Size.bytes (transferSize w))))
      (s.jsrValue target w) noFlags s.r6 (Size.bytes (transferSize w)) (s.pc + aluSrcLen target - 1)

/-- 43_control_system.md R182: RET pops an address, zero extends it and continues at that address plus one. -/
def Obligations.RetResult : Prop :=
  ∀ (w : TransferWidth) (s : State), s.untranslated →
    let sp := s.r6 + BitVec.ofNat 32 (Size.bytes (transferSize w))
    RunsTo (.ret w) s (onlyReg .r6 sp) (s.ioValue (transferSize w) sp + 1) noFlags

/-- 43_control_system.md R193: JSR followed by the matching RET continues after the JSR, for `.W` within the lowest 64K as
the rule says, with SP and Flags as before. -/
def Obligations.CallReturnRoundTrip : Prop :=
  ∀ (target : AluSrc) (w : TransferWidth) (s : State), s.untranslated →
    ∃ t u, exec (.jsr target w) s = .next t ∧ exec (.ret w) t = .next u ∧ u.r6 = s.r6 ∧ u.flags = s.flags ∧
      u.pc =
        match w with
        | .word => (((s.pc + aluSrcLen target - 1).extractLsb' 0 16).setWidth 32 : Word) + 1
        | .long => s.pc + aluSrcLen target

/-- 43_control_system.md R183, R184, R192, R194, 60_exceptions.md R260: TRAP and TRAPB push `ia + 2` at the width's size,
then two bytes of Flags image from before the entry; I is set, B cleared (TRAP) or set (TRAPB); execution continues at
the address found in memory, after the pushes, at the open parameter `TrapVectorAddr`. No interrupt can be taken next. -/
def Obligations.TrapResult : Prop :=
  ∀ (n : BitVec 5) (w : TransferWidth) (s : State) (brk : Bool), s.untranslated →
    let size := Size.bytes (transferSize w)
    let i := if brk then Instr.trapb n w else Instr.trap n w
    ∃ u t image, exec i s = .next t ∧
      FlagsReadAs s.flags image ∧
      Stored s u s.r6 size (s.pc + 2) ∧
      Stored u t (s.r6 - BitVec.ofNat 32 size) 2 (image.setWidth 32) ∧
      RegsAfter s t (onlyReg .r6 (s.r6 - BitVec.ofNat 32 size - 2))
        (t.ioValue (transferSize w) (Config.trapVectorAddr n w)) ∧
      FlagsAfter s.flags t.flags (alsoFlag .i true (alsoFlag .b brk noFlags)) ∧
      MmuRegsKept s t ∧ t.interruptible = false

/-- 43_control_system.md R187: RETI pops the Flags image, then the address, loads all sixteen flags and continues at the
address; a flush bit popped as 1 requests the flush (20_memory.md R92). -/
def Obligations.RetiResult : Prop :=
  ∀ (w : TransferWidth) (s : State), s.untranslated →
    let sp := s.r6 + 2 + BitVec.ofNat 32 (Size.bytes (transferSize w))
    ∃ t, exec (.reti w) s = .next t ∧
      RegsAfter s t (onlyReg .r6 sp) (s.ioValue (transferSize w) sp) ∧
      t.flags = s.ioByte (s.r6 + 2 + 1) ++ s.ioByte (s.r6 + 2) ∧
      BytesKept s t ∧ MmuRegsKept s t ∧ t.pending = s.pending ∧
      t.stale = (if getFlag t.flags .fic then [] else s.stale) ∧
      t.tlb = (if getFlag t.flags .ftl then [] else s.tlb)

/-- 43_control_system.md R194, 60_exceptions.md R261: a handler that returns at once with the matching width restores SP and
Flags and continues after the TRAP, for `.W` with the low 16 bits of that address. -/
def Obligations.TrapReturnRoundTrip : Prop :=
  ∀ (n : BitVec 5) (w : TransferWidth) (s : State), s.untranslated → s.flags &&& flushMask = 0 →
    ∃ t u, exec (.trap n w) s = .next t ∧ exec (.reti w) t = .next u ∧ u.r6 = s.r6 ∧ u.flags = s.flags ∧
      u.pc =
        match w with
        | .word => ((s.pc + 2).extractLsb' 0 16).setWidth 32
        | .long => s.pc + 2

/-! ### Flags and the MMU registers -/

/-- 43_control_system.md R188: `CFLAG k`, of every flag number and whatever the don't-care bits, writes 0 to bit k of Flags
and changes nothing else; it is two bytes long and requests no flush. -/
def Obligations.ClearFlag : Prop :=
  ∀ (k : BitVec 4) (c : BitVec 2) (rest : List Byte) (s : State),
    decode ((0xB#4 ++ 0#1 ++ k.extractLsb' 0 1 ++ 3#2) :: (k.extractLsb' 1 3 ++ 5#3 ++ c) :: rest) =
      .instr (.cflag k) rest ∧
    ∃ t, exec (.cflag k) s = .next t ∧ RegsAfter s t noRegs (s.pc + 2) ∧
      (∀ j, j < 16 → t.flags.getLsbD j = if j = k.toNat then false else s.flags.getLsbD j) ∧
      MemoryKept s t ∧ MmuRegsKept s t

/-- 43_control_system.md R189: `SFLAG k` writes 1 to bit k of Flags and changes nothing else, but that bit 11 discards the
older bytes a fetch could see and bit 14 the TLB (20_memory.md R85, R91, R92). -/
def Obligations.SetFlag : Prop :=
  ∀ (k : BitVec 4) (c : BitVec 2) (rest : List Byte) (s : State),
    decode ((0xB#4 ++ 1#1 ++ k.extractLsb' 0 1 ++ 3#2) :: (k.extractLsb' 1 3 ++ 5#3 ++ c) :: rest) =
      .instr (.sflag k) rest ∧
    ∃ t, exec (.sflag k) s = .next t ∧ RegsAfter s t noRegs (s.pc + 2) ∧
      (∀ j, j < 16 → t.flags.getLsbD j = if j = k.toNat then true else s.flags.getLsbD j) ∧
      BytesKept s t ∧ MmuRegsKept s t ∧ t.pending = s.pending ∧
      t.stale = (if k = 11 then [] else s.stale) ∧ t.tlb = (if k = 14 then [] else s.tlb)

/-- 43_control_system.md R185 (widths by 92_eei_decisions.md D13): LCNTR.B loads Flags bits 7:0 and keeps the others;
LCNTR.W loads all sixteen, and requests the flushes whose bits it loads as 1. -/
def Obligations.LoadFlagsResult : Prop :=
  ∀ (src : MemOp) (s : State), s.untranslated → autoBaseOk src →
    (∃ t, exec (.lcntr src .byte) s = .next t ∧
      RegsAfter s t (s.baseWrite src .one) (s.pc + memOpLen src) ∧
      t.flags = s.flags.extractLsb' 8 8 ++ s.ioByte (s.memOpAddr src .one) ∧ MemoryKept s t ∧ MmuRegsKept s t) ∧
    (∃ t, exec (.lcntr src .word) s = .next t ∧
      RegsAfter s t (s.baseWrite src .two) (s.pc + memOpLen src) ∧
      t.flags = (s.ioValue .two (s.memOpAddr src .two)).setWidth 16 ∧
      BytesKept s t ∧ MmuRegsKept s t ∧ t.pending = s.pending ∧
      t.stale = (if getFlag t.flags .fic then [] else s.stale) ∧
      t.tlb = (if getFlag t.flags .ftl then [] else s.tlb))

/-- 43_control_system.md R186, R180: SCNTR stores one or two bytes of Flags, a set flush bit as any value, and writes no
flag. -/
def Obligations.StoreFlagsResult : Prop :=
  ∀ (dst : MemOp) (s : State), s.untranslated → autoBaseOk dst →
    (∃ image, FlagsReadAs s.flags image ∧
      RunsStoring (.scntr dst .byte) s (s.baseWrite dst .one) (s.pc + memOpLen dst) noFlags
        (s.memOpAddr dst .one) 1 (image.setWidth 32)) ∧
    (∃ image, FlagsReadAs s.flags image ∧
      RunsStoring (.scntr dst .word) s (s.baseWrite dst .two) (s.pc + memOpLen dst) noFlags
        (s.memOpAddr dst .two) 2 (image.setWidth 32))

/-- 43_control_system.md R190, R191: LMMU loads M0 or M1 from four bytes and keeps the other; SMMU stores one as four
bytes and keeps both; both set Z and N of the value. -/
def Obligations.MmuRegisterTransfer : Prop :=
  ∀ (m : MemOp) (n : MmuReg) (s : State), s.untranslated → autoBaseOk m →
    let addr := s.memOpAddr m .four
    (∃ t, exec (.lmmu m n) s = .next t ∧ RegsAfter s t (s.baseWrite m .four) (s.pc + memOpLen m) ∧
      (∀ k, t.mmuReg k = if k = n then s.ioValue .four addr else s.mmuReg k) ∧
      FlagsAfter s.flags t.flags (znOf (s.ioValue .four addr)) ∧ MemoryKept s t) ∧
    RunsStoring (.smmu m n) s (s.baseWrite m .four) (s.pc + memOpLen m) (znOf (s.mmuReg n)) addr 4 (s.mmuReg n)

/-! ### Shifts and one-operand instructions -/

/-- 44_shift.md R210 to R212, R215: SHL and SHLC move every bit left, fill with 0 or the old carry, and leave the last bit
shifted out in C; the result of a memory operand goes to R0 and memory is kept. -/
def Obligations.ShiftLeftResult : Prop :=
  ∀ (op : UnOp) (k : Amount) (w : Width) (s : State), s.untranslated →
    let n := widthBitCount w
    let v := s.unValue op w
    let rd := unOpTarget op
    ∀ withCarry : Bool,
      let fill := withCarry && s.flag .c
      let i := if withCarry then Instr.shlc op k w else Instr.shl op k w
      ∃ r : BitVec n,
        (∀ j, j < n → r.getLsbD j = if j < amountCount k then fill else v.getLsbD (j - amountCount k)) ∧
        RunsTo i s (onlyReg rd (laneMerge w (s.regRead rd) r)) (s.pc + unOpLen op)
          (alsoFlag .c (v.getLsbD (n - amountCount k)) (znOf r))

/-- 44_shift.md R210, R213 to R215: SHR and SHRC, the same to the right. -/
def Obligations.ShiftRightResult : Prop :=
  ∀ (op : UnOp) (k : Amount) (w : Width) (s : State), s.untranslated →
    let n := widthBitCount w
    let v := s.unValue op w
    let rd := unOpTarget op
    ∀ withCarry : Bool,
      let fill := withCarry && s.flag .c
      let i := if withCarry then Instr.shrc op k w else Instr.shr op k w
      ∃ r : BitVec n,
        (∀ j, j < n → r.getLsbD j = if n ≤ j + amountCount k then fill else v.getLsbD (j + amountCount k)) ∧
        RunsTo i s (onlyReg rd (laneMerge w (s.regRead rd) r)) (s.pc + unOpLen op)
          (alsoFlag .c (v.getLsbD (amountCount k - 1)) (znOf r))

/-- 45_unary.md R220 to R222: INC and DEC, modulo the width; only Z and N are written, and the operand register, or R0 for
a memory operand. -/
def Obligations.IncrementResult : Prop :=
  ∀ (op : UnOp) (w : Width) (s : State), s.untranslated →
    let n := widthBitCount w
    let v := s.unValue op w
    let rd := unOpTarget op
    let up := BitVec.ofNat n (v.toNat + 1)
    let down := BitVec.ofNat n (v.toNat + 2 ^ n - 1)
    RunsTo (.inc op w) s (onlyReg rd (laneMerge w (s.regRead rd) up)) (s.pc + unOpLen op) (znOf up) ∧
    RunsTo (.dec op w) s (onlyReg rd (laneMerge w (s.regRead rd) down)) (s.pc + unOpLen op) (znOf down)

/-- 45_unary.md R223, R224: SWAP exchanges the two halves of the operand, MIRROR reverses its bits, at the widths listed. -/
def Obligations.SwapMirrorResult : Prop :=
  ∀ (op : UnOp) (w : Width) (s : State), s.untranslated →
    let n := widthBitCount w
    let v := s.unValue op w
    let rd := unOpTarget op
    (w ≠ .byte → ∃ r : BitVec n, (∀ j, j < n → r.getLsbD j = v.getLsbD ((j + n / 2) % n)) ∧
      RunsTo (.swap op w) s (onlyReg rd (laneMerge w (s.regRead rd) r)) (s.pc + unOpLen op) (znOf r)) ∧
    (w = .byte ∨ w = .word → ∃ r : BitVec n, (∀ j, j < n → r.getLsbD j = v.getLsbD (n - 1 - j)) ∧
      RunsTo (.mirror op w) s (onlyReg rd (laneMerge w (s.regRead rd) r)) (s.pc + unOpLen op) (znOf r))

/-- 45_unary.md R226: BIT sets Z from the operand and R1, N and V from bits 7 and 6 of the operand at every width, and
writes no register. -/
def Obligations.BitTestResult : Prop :=
  ∀ (op : UnOp) (w : Width) (s : State), s.untranslated →
    let v := s.unValue op w
    RunsTo (.bit op w) s noRegs (s.pc + unOpLen op)
      (alsoFlag .z (decide (v &&& s.laneRead .r1 w = 0)) (alsoFlag .n (v.getLsbD 7) (alsoFlag .v (v.getLsbD 6) noFlags)))

/-! ### Branches -/

/-- A branch of test code `test` whose condition is `cond`: its four bytes decode to `i`, and `i` continues at
`ia + 2 + sext_32(disp20)` if the condition holds and at `ia + 4` otherwise, writing nothing (46_branch.md R230). -/
def BranchesIf (test : BitVec 4) (i : Bool → BitVec 20 → Instr) (cond : State → Bool) : Prop :=
  ∀ (taken : Bool) (disp : BitVec 20) (rest : List Byte) (s : State),
    decode ((0xF#4 ++ test.extractLsb' 0 2 ++ 3#2) ::
      (test.extractLsb' 2 2 ++ BitVec.ofBool taken ++ 1#1 ++ disp.extractLsb' 16 4) ::
      disp.extractLsb' 0 8 :: disp.extractLsb' 8 8 :: rest) = .instr (i taken disp) rest ∧
    RunsTo (i taken disp) s noRegs (if cond s then s.pc + 2 + disp.signExtend 32 else s.pc + 4) noFlags

/-- 46_branch.md R233 to R240: the branches on one flag. -/
def Obligations.SingleFlagBranches : Prop :=
  BranchesIf 0 .bpl (fun s => !s.flag .n) ∧
  BranchesIf 1 .bmi (fun s => s.flag .n) ∧
  BranchesIf 2 .bvc (fun s => !s.flag .v) ∧
  BranchesIf 3 .bvs (fun s => s.flag .v) ∧
  BranchesIf 4 .bcc (fun s => !s.flag .c) ∧
  BranchesIf 5 .bcs (fun s => s.flag .c) ∧
  BranchesIf 6 .bne (fun s => !s.flag .z) ∧
  BranchesIf 7 .beq (fun s => s.flag .z)

/-- 46_branch.md R241 to R246: the branches on a relation, and BRA. -/
def Obligations.RelationBranches : Prop :=
  BranchesIf 8 .bge (fun s => s.flag .n == s.flag .v) ∧
  BranchesIf 9 .blt (fun s => s.flag .n != s.flag .v) ∧
  BranchesIf 10 .bgt (fun s => !s.flag .z && s.flag .n == s.flag .v) ∧
  BranchesIf 11 .ble (fun s => s.flag .z || s.flag .n != s.flag .v) ∧
  BranchesIf 12 .bpo (fun s => !s.flag .n && !s.flag .z) ∧
  BranchesIf 14 .bra (fun _ => true)

/-! ### Stops -/

/-- 30_encoding.md R118 items 1 to 10, R119: every reserved pattern is refused, under the name of its reason, and so
is a SWAP or MIRROR of a width that has no encoding of its own. -/
def Obligations.ReservedEncodingsRefused : Prop :=
  ∀ (mm c d : BitVec 2) (a b : BitVec 3) (x : Bool) (op : UnOp) (s : State),
    exec (.reserved1011x111 mm a c) s = .refused .reservedExpansion ∧
    exec (.reserved1110x101 mm a c) s = .refused .reservedExpansion ∧
    exec (.reserved1110x110 mm a c) s = .refused .reservedExpansion ∧
    exec (.reserved1110x111 mm a c) s = .refused .reservedExpansion ∧
    exec (.reservedShlMode11 a b c) s = .refused .reservedMode11 ∧
    exec (.reservedShrMode11 a b c) s = .refused .reservedMode11 ∧
    exec (.reservedUnaryMode11 a b c) s = .refused .reservedMode11 ∧
    exec (.reservedSwapB mm a) s = .refused .reservedWidth ∧
    exec (.reservedMirrorHL mm a x) s = .refused .reservedWidth ∧
    exec (.reservedBranchTest1101 x b c) s = .refused .reservedBranchTest ∧
    exec (.reservedBranchTest1111 x b c) s = .refused .reservedBranchTest ∧
    exec (.reservedBranchExtend0 mm a d c) s = .refused .reservedExtend0 ∧
    exec (.swap op .byte) s = .refused .reservedWidth ∧
    exec (.mirror op .high) s = .refused .reservedWidth ∧
    exec (.mirror op .long) s = .refused .reservedWidth

/-- 30_encoding.md R108 (a) to (c): the auto modes with base R0, LD into its own base and ST of its own base are refused. -/
def Obligations.AutoModeConflictsRefused : Prop :=
  ∀ (m : MemOp) (r : Reg) (w : Width) (c : CntrWidth) (n : MmuReg) (s : State), isAuto m = true →
    (memOpBase m = .r0 →
      exec (.ld m r w) s = .refused .autoModeBaseR0 ∧ exec (.st m r w) s = .refused .autoModeBaseR0 ∧
      exec (.lcntr m c) s = .refused .autoModeBaseR0 ∧ exec (.scntr m c) s = .refused .autoModeBaseR0 ∧
      exec (.lmmu m n) s = .refused .autoModeBaseR0 ∧ exec (.smmu m n) s = .refused .autoModeBaseR0) ∧
    (memOpBase m ≠ .r0 → memOpBase m = r →
      exec (.ld m r w) s = .refused .autoModeBaseIsDestination ∧
      exec (.st m r w) s = .refused .autoModeBaseIsData)

/-! ### Idioms -/

/-- 41_load_store.md R164: a push by ST followed by a pop of the same width gives the pushed value and restores SP. -/
def Obligations.PushPopRoundTrip : Prop :=
  ∀ (data rd : Reg) (w : Width) (s : State), s.untranslated → data ≠ .r6 → rd ≠ .r6 →
    ∃ t u, exec (.st (.autoDec .r6) data w) s = .next t ∧ exec (.ld (.autoInc .r6) rd w) t = .next u ∧
      u.r6 = s.r6 ∧ laneOf w (u.reg rd) = s.laneRead data w

/-- INC of the memory operand `op` at `a` and then ST of R0 to `m`, of the same width: `a` holds the incremented value, and
no interrupt can come between. -/
def IncrementsMemory (op : UnOp) (m : MemOp) (w : Width) (a : Word) (s : State) : Prop :=
  let n := widthSize w
  ∃ t u, exec (.inc op w) s = .next t ∧ t.interruptible = false ∧ exec (.st m .r0 w) t = .next u ∧
    Stored s u a (Size.bytes n) (s.ioValue n a + 1)

/-- 45_unary.md R225, 20_memory.md R90: INC of a memory operand and the ST of R0 after it leave the incremented value in
memory, with `[Rn]` and with `[Rn,offset16]`. With base R0, which ST then reads as zero, R0 must read zero before. Base
R7 reads as the address of each of the two instructions, so the second offset is smaller by the length of the first. -/
def Obligations.MemoryIncrementIdiom : Prop :=
  ∀ (b : Reg) (o : Half) (w : Width) (s : State), s.untranslated →
    (b ≠ .r7 → (b = .r0 → s.riValid = false) →
      IncrementsMemory (.indirect b) (.indirect b) w (s.regRead b) s ∧
      IncrementsMemory (.indexed b o) (.indexed b o) w (s.regRead b + o.setWidth 32) s) ∧
    (4 ≤ o.toNat → IncrementsMemory (.indexed .r7 o) (.indexed .r7 (o - 4)) w (s.pc + 2 + o.setWidth 32) s)

/-- 42_move.md R171, 30_encoding.md R111: MOV.H to R0 and the MOV.L after it load a 32 bit constant into any register, R7
included, and no interrupt can come between. -/
def Obligations.LongConstantIdiom : Prop :=
  ∀ (hi lo : Half) (rd : Reg) (s : State),
    ∃ t u, exec (.mov (.imm hi) .r0 .high) s = .next t ∧ t.interruptible = false ∧
      exec (.mov (.imm lo) rd .long) t = .next u ∧ u.reg rd = hi ++ lo

/-! ### Rules of the whole machine -/

/-- 10_state.md R34, R35, R37: after any instruction but `CMP` into R0, R0 is readable and interrupts are held off exactly
when the instruction wrote R0; otherwise R0 reads zero. -/
def Obligations.ImplicitRegisterLivesOneInstruction : Prop :=
  ∀ (i : Instr) (s t : State), s.untranslated → isCmpR0 i = false → exec i s = .next t →
    t.riValid = writesR0 i ∧ t.riHold = writesR0 i ∧
    (writesR0 i = true → t.interruptible = false) ∧ (writesR0 i = false → t.regRead .r0 = 0)

/-- 10_state.md R49: no instruction but LMMU changes M0 or M1, with the MMU on or off, an access trap taken or not. -/
def Obligations.OnlyLmmuWritesMmuRegisters : Prop :=
  ∀ (i : Instr) (s t : State), isLmmu i = false → exec i s = .next t → t.m0 = s.m0 ∧ t.m1 = s.m1

/-- 10_state.md R42 to R45, R48: no instruction changes a flag its entry does not list (`mayWriteFlag`), with the MMU on
or off, an access trap taken or not; I and B, which the entry of an access trap writes too, are left to the statements of
the single instructions. -/
def Obligations.FlagsWrittenOnlyWhereListed : Prop :=
  ∀ (i : Instr) (k : Flag) (s t : State), k ≠ .i → k ≠ .b → mayWriteFlag i k = false → exec i s = .next t →
    t.flag k = s.flag k

/-- 20_memory.md R76: an instruction that stores nothing leaves every byte of memory as it was. -/
def Obligations.NonStoringInstructionsKeepMemory : Prop :=
  ∀ (i : Instr) (s t : State), s.untranslated → storesMemory i = false → exec i s = .next t → BytesKept s t

/-- 20_memory.md R91: a fetch with Flags.ICA = 0 answers the byte in memory; with Flags.ICA = 1 that byte or an older one
that stood there since the last flush. -/
def Obligations.InstructionFetchCoherence : Prop :=
  ∀ (va : Word) (s : State), s.untranslated →
    (s.flag .ica = false → fetchByte va s = .ok (s.ioByte va) s) ∧
    ∃ b t, fetchByte va s = .ok b t ∧ (b = s.ioByte va ∨ ({ bus := .io, addr := va, old := b } : StaleByte) ∈ s.stale)

/-! ### Interrupts -/

/-- 60_exceptions.md R257: with nothing pending, with Flags.I = 1, or after an instruction that wrote R0, no interrupt is
taken: the step is the instruction at pc. -/
def Obligations.InterruptHeldOff : Prop :=
  ∀ s : State, s.pending = [] ∨ s.flag .i = true ∨ s.riHold = true → step s = stepInstr s

/-- 60_exceptions.md R255 to R257, R260: at an open boundary a pending source may be taken, or none yet. Taking it pushes the
address of the instruction not yet executed and the Flags image, sets I, clears B, continues at the address found in
memory at the entry's vector, and removes the source; `IntEntry` is an open parameter (log 5). -/
def Obligations.InterruptEntry : Prop :=
  ∀ s : State, s.untranslated → s.interruptible = true →
    match s.chosenInterrupt with
    | none => step s = stepInstr s.afterDraw
    | some src =>
      let e := Config.intEntry src
      let size := Size.bytes (transferSize e.width)
      src ∈ s.pending ∧
      ∃ u v t image, step s = .next t ∧
        FlagsReadAs s.flags image ∧
        Stored s u s.r6 size s.pc ∧
        Stored u v (s.r6 - BitVec.ofNat 32 size) 2 (image.setWidth 32) ∧
        BytesKept v t ∧ t.stale = v.stale ∧ t.tlb = v.tlb ∧ t.pending = v.pending.erase src ∧
        RegsAfter s t (onlyReg .r6 (s.r6 - BitVec.ofNat 32 size - 2)) (t.ioValue (transferSize e.width) e.vector) ∧
        FlagsAfter s.flags t.flags (alsoFlag .i true (alsoFlag .b false noFlags)) ∧
        MmuRegsKept s t ∧ t.interruptible = false

/-! ### Translated accesses -/

/-- 20_memory.md R75, R79, R80, R82, R84, 60_exceptions.md R251, R259: LD of every width and mode, with the MMU on or off. Its
bytes are read one by one, lowest address first, each where the setting of its own 1 KB block maps it, the offset kept, and
LD ends as LoadResult says with the value so read; or the first byte whose block asks for a trap ends it in the trap entry,
which MmuAccessTrapEntry describes, with nothing but the TLB changed and, in an auto mode, the base updated. `Translate`
and `MmuTrapEntry` are open parameters; that bytes are translated one by one, that a byte that traps is not read, and the
address reported are the model's choices (log 6, log 7). -/
def Obligations.TranslatedLoad : Prop :=
  ∀ (src : MemOp) (rd : Reg) (w : Width) (s : State), autoBaseOk src → (isAuto src = true → memOpBase src ≠ rd) →
    let n := widthSize w
    let reads := fun v => byteAccesses .read (s.memOpAddr src n) (lowBytes (Size.bytes n) v)
    (∃ v t, exec (.ld src rd w) s = .next t ∧ AccessesMade s t (reads v) ∧
      RegsAfter s t (fun q => if q = rd then some (laneMerge w (s.regRead rd) (v.setWidth _)) else s.baseWrite src n q)
        (s.pc + memOpLen src) ∧
      FlagsAfter s.flags t.flags (znOf (v.setWidth (widthBitCount w)))) ∨
    (∃ v u va, TrapsAt s u (reads v) .read va ∧ OnlyAccessed ((s.startInstr (memOpLen src)).afterMemOp src n) u ∧
      exec (.ld src rd w) s = takeMmuTrap va .read (s.startInstr (memOpLen src)) (u.translatedBy va))

/-- 20_memory.md R75, R79, R80, R82 to R84, 60_exceptions.md R251, R255, R259: ST of every width and mode, R0 as base and data
included (41_load_store.md R162), with the MMU on or off. Its bytes are written one by one, lowest address first, each to
the I/O bus, SDRAM or both as the setting of its own 1 KB block says; no other byte changes; a byte at $0000 or $0001 that
changes the ROM control signals makes the MMU interrupt pending; ST ends as StoreResult says. Or the first byte whose block
asks for a trap ends it in the trap entry, which MmuAccessTrapEntry describes, the bytes before it written. Open parameters
and the model's choices: as in TranslatedLoad, log 13 for the interrupt, log 16 for the bytes written before a trap. -/
def Obligations.TranslatedStore : Prop :=
  ∀ (dst : MemOp) (data : Reg) (w : Width) (s : State), autoBaseOk dst → (isAuto dst = true → memOpBase dst ≠ data) →
    let n := widthSize w
    let v := s.laneRead data w
    let writes := byteAccesses .write (s.storeAddr dst data n) (lowBytes (Size.bytes n) (v.setWidth 32))
    (∃ t, exec (.st dst data w) s = .next t ∧ AccessesMade s t writes ∧
      RegsAfter s t (s.baseWrite dst n) (s.pc + memOpLen dst) ∧ FlagsAfter s.flags t.flags (znOf v)) ∨
    (∃ u va, TrapsAt s u writes .write va ∧ OnlyAccessed ((s.startInstr (memOpLen dst)).afterMemOp dst n) u ∧
      exec (.st dst data w) s = takeMmuTrap va .write (s.startInstr (memOpLen dst)) (u.translatedBy va))

/-- 20_memory.md R85, R92: after `SFLAG 14` the next translation uses the table in memory, not an entry the TLB held. -/
def Obligations.TranslationAfterFlush : Prop :=
  ∀ (s t : State) (block : BitVec 22) (kind : AccessKind), exec (.sflag 14) s = .next t →
    t.blockMapping block kind = Config.translate s.m0 s.m1 s.mem s.sdram block kind

/-- 20_memory.md R79, R80, R84, R91, 30_encoding.md R102, R122, 60_exceptions.md R251, R259: the fetch of a whole instruction,
with the MMU on or off, in one 1 KB block or across two. When no interrupt may be taken, the bytes from pc on are fetched
one by one, each where the setting of its own block maps it (or an older one, R91), until they decode; the step is exec of
the instruction they decode to, or the refusal of a 6502 opcode, after which no byte more was fetched. Or the first byte
whose block asks for a trap ends the step in the trap entry of MmuAccessTrapEntry, before anything of the instruction has
happened, when the bytes before it do not yet hold an instruction. Open parameters and the model's choices: log 6, log 7. -/
def Obligations.TranslatedFetch : Prop :=
  ∀ s : State, s.interruptible = false →
    ∃ (bs : List Byte) (u : State), AccessesMade s u (byteAccesses .fetch s.pc bs) ∧
      u = { s with tlb := u.tlb, draws := u.draws } ∧
      match decode bs with
      | .instr i rest => rest = [] ∧ step s = exec i u
      | .rejected (.sixFiveOhTwo b) => bs = [b] ∧ step s = .refused (.sixFiveOhTwoOpcode b)
      | .rejected .truncated =>
        let va := s.pc + BitVec.ofNat 32 bs.length
        u.answer .fetch va = .trap ∧
          step s = takeMmuTrap va .fetch (s.startInstr 0) ((u.translatedBy va).startInstr 0)

/-- 60_exceptions.md R258 to R260: the entry of an MMU access trap met by an instruction that began in `s0` and had reached
`s1`. From `s1`, or from `s0` where the partial effects are undone, it pushes the address `MmuTrapEntry` gives and the
Flags image, sets I, clears B and continues at the address found at the vector; every other register, flag and byte is
kept, R0 reads zero next, and no interrupt can be taken next. It ends in a fault only at a byte of its own frame or vector
whose block asks for a trap, which with Flags.MMU = 0 none does; the fault names that byte. The entry is an open parameter;
its shape, the loss of Ri and that fault are the model's choices (log 7). `k` counts the free values used up before. -/
def Obligations.MmuAccessTrapEntry : Prop :=
  ∀ (va : Word) (kind : AccessKind) (s0 s1 : State), s0.riWritten = false → s0.riHoldNext = false →
    s1.riWritten = false → s1.riHoldNext = false →
    let e := Config.mmuTrapEntry va s0.pc kind
    let s := if e.undo then { s0 with tlb := s1.tlb, draws := s1.draws } else s1
    (∃ t, takeMmuTrap va kind s0 s1 = .next t ∧ AccessTrapTaken s t e ∧ t.interruptible = false) ∨
    ∃ image k u kind' va', FlagsReadAs s.flags image ∧
      EntryTrapsAt s k e.width e.returnTo e.vector image false u kind' va' ∧
      takeMmuTrap va kind s0 s1 = .fault (.mmuTrapWhileEntering va' kind')

/-- 20_memory.md R85, 93_implementation_defined.md U21: the mapping an access uses is the table's or one the TLB still holds
for the block, and the setting a byte load uses stays in the TLB, for every kind of access that comes after it. That the
TLB holds a block's whole setting, of any number of blocks, and that no entry is replaced before a flush, is the model's
choice (log 6): R85 gives neither the size nor the replacement. -/
def Obligations.TranslationIsTableOrTlb : Prop :=
  (∀ (s : State) (block : BitVec 22) (kind : AccessKind),
    s.blockMapping block kind = Config.translate s.m0 s.m1 s.mem s.sdram block kind ∨
    ∃ e ∈ s.tlb, e.block = block ∧ s.blockMapping block kind = settingMapping e.setting kind) ∧
  ∀ (b rd : Reg) (s : State), s.flag .mmu = true →
    let block := (s.regRead b).extractLsb' 10 22
    let used := fun t : State => (∀ e, e ∈ s.tlb → e ∈ t.tlb) ∧
      ∃ e ∈ t.tlb, e.block = block ∧ ∀ kind, settingMapping e.setting kind = s.blockMapping block kind
    match s.blockMapping block .read with
    | .mapped _ _ => ∃ t, exec (.ld (.indirect b) rd .byte) s = .next t ∧ used t
    | .trap => ∃ t, exec (.ld (.indirect b) rd .byte) s = takeMmuTrap (s.regRead b) .read (s.startInstr 2) t ∧ used t

/-- 43_control_system.md R183, R184, 60_exceptions.md R259, R260, 20_memory.md R88: TRAP and TRAPB with the MMU on or off.
The return address and the Flags image are written and the handler's address is read, byte by byte through the setting of
each block, and the instruction ends as TrapResult says; or the first of these accesses whose block asks for a trap ends it
in the trap entry of MmuAccessTrapEntry, those before it made: a TRAP whose push traps does not reach its vector read. SP
is then lowered by the items already pushed, and I and B have changed only if the vector read is what traps. `k` counts the
free values used up by the Flags image. Open parameters and the model's choices: log 4, log 6, log 7. -/
def Obligations.TranslatedTrap : Prop :=
  ∀ (n : BitVec 5) (w : TransferWidth) (s : State) (brk : Bool),
    let size := Size.bytes (transferSize w)
    let i := if brk then Instr.trapb n w else Instr.trap n w
    let entry := entryAccesses w (s.pc + 2) (Config.trapVectorAddr n w) s.r6
    ∃ image k, FlagsReadAs s.flags image ∧
      ((∃ t, exec i s = .next t ∧ AccessesMade { s with draws := k } t (entry image t.pc) ∧ t.pc.toNat < 2 ^ (8 * size) ∧
          RegsAfter s t (onlyReg .r6 (s.r6 - BitVec.ofNat 32 size - 2)) t.pc ∧
          FlagsAfter s.flags t.flags (alsoFlag .i true (alsoFlag .b brk noFlags)) ∧ t.interruptible = false) ∨
        ∃ u kind va, EntryTrapsAt (s.startInstr 2) k w (s.pc + 2) (Config.trapVectorAddr n w) image brk u kind va ∧
          exec i s = takeMmuTrap va kind (s.startInstr 2) (u.translatedBy va))

/-- 43_control_system.md R181, R182, R193, 70_reset_and_hazards.md R289, for a RET of the other width than its JSR. Nothing
is checked: JSR.L then RET.W leaves SP two short and continues at a zero-extended 16 bit value plus one; JSR.W then RET.L
leaves SP two beyond. WHICH bytes are popped is the model's choice (log 41): by D15 and 00_scope.md R14 those at the new
SP, as they stood before the call, two below the pushed address or four above it; R193 and R289 say its low half, which
D15 contradicts. -/
def Obligations.MismatchedCallReturn : Prop :=
  ∀ (target : AluSrc) (s : State), s.untranslated →
    (∃ t u, exec (.jsr target .long) s = .next t ∧ exec (.ret .word) t = .next u ∧ u.r6 = s.r6 - 2 ∧
      u.pc = s.ioValue .two (s.r6 - 2) + 1 ∧ u.flags = s.flags) ∧
    ∃ t u, exec (.jsr target .word) s = .next t ∧ exec (.ret .long) t = .next u ∧ u.r6 = s.r6 + 2 ∧
      u.pc = s.ioValue .four (s.r6 + 2) + 1 ∧ u.flags = s.flags
end

