-- ==== Sys2Proof/Laws/Flags.lean ====
section
/-! SUPPORT. What every flag computation leaves in each of the sixteen bits, in the words of claims. -/

namespace Sys2Proof.Machine

theorem getLsbD_setBit (f : Half) (k j : Nat) (v : Bool) (hj : j < 16) :
    (setBit f k v).getLsbD j = if j = k then v else f.getLsbD j := by
  have h1 : (1#16 <<< k).getLsbD j = decide (j = k) := by
    by_cases h : j < k
    · simp [h]; omega
    · simp [h, hj]; omega
  by_cases h : j = k
  · subst h
    cases v <;> simp [setBit, hj]
  · have h2 : (1#16 <<< k).getLsbD j = false := by simp [h1, h]
    rw [if_neg h]
    cases v
    · rw [setBit, if_neg (by simp), BitVec.getLsbD_and, BitVec.getLsbD_not, h2]; simp [hj]
    · rw [setBit, if_pos rfl, BitVec.getLsbD_or, h2, Bool.or_false]

theorem flagIndex_lt (k : Flag) : flagIndex k < 16 := by cases k <;> decide

theorem flagIndex_inj {j k : Flag} : flagIndex j = flagIndex k ↔ j = k := by
  cases j <;> cases k <;> decide

theorem getFlag_setFlag (f : Half) (k j : Flag) (v : Bool) :
    getFlag (setFlag f k v) j = if j = k then v else getFlag f j := by
  simp only [getFlag, setFlag, getLsbD_setBit _ _ _ _ (flagIndex_lt j), flagIndex_inj]

/-- Two Flags images are equal when their sixteen named bits are. -/
theorem flags_ext {f g : Half} (h : ∀ k, getFlag f k = getFlag g k) : f = g := by
  apply BitVec.eq_of_getLsbD_eq
  intro i hi
  have : ∀ i : Fin 16, ∃ k ∈ [Flag.c, .z, .i, .d, .b, .e, .v, .n, .bit8, .bit9, .fdc, .fic, .dca, .ica, .ftl, .mmu],
      flagIndex k = i := by decide
  obtain ⟨k, -, hk⟩ := this ⟨i, hi⟩
  have := h k
  simpa [getFlag, hk] using this

theorem getFlag_setZN {n : Nat} (r : BitVec n) (f : Half) (k : Flag) :
    getFlag (setZN r f) k = (znOf r k).getD (getFlag f k) := by
  simp only [setZN, getFlag_setFlag, znOf, BitVec.msb_eq_getLsbD_last]
  cases k <;> simp
  by_cases h : r = 0#n <;> simp [h]

theorem flagsAfter_setZN {n : Nat} (r : BitVec n) (f : Half) : FlagsAfter f (setZN r f) (znOf r) :=
  getFlag_setZN r f

theorem flagsAfter_setFlag {f g : Half} {w : FlagWrites} (k : Flag) (v : Bool) (h : FlagsAfter f g w) :
    FlagsAfter f (setFlag g k v) (alsoFlag k v w) := by
  intro j
  rw [getFlag_setFlag, alsoFlag, h j]
  by_cases hj : j = k <;> simp [hj]

theorem flagsAfter_setCZVN {n : Nat} (t : ArithResult n) (f : Half) :
    FlagsAfter f (setCZVN t f) (alsoFlag .c t.c (alsoFlag .v t.v (znOf t.r))) := by
  intro k
  rw [setCZVN, getFlag_setZN]
  simp only [getFlag_setFlag, alsoFlag, znOf]
  cases k <;> simp

theorem flagsAfter_setCZN {n : Nat} (r : BitVec n) (c : Bool) (f : Half) :
    FlagsAfter f (setCZN r c f) (alsoFlag .c c (znOf r)) := by
  intro k
  rw [setCZN, getFlag_setZN]
  simp only [getFlag_setFlag, alsoFlag, znOf]
  cases k <;> simp

theorem flagsAfter_same (f : Half) : FlagsAfter f f noFlags := fun _ => rfl

theorem flagsAfter_entered (brk : Bool) (f : Half) :
    FlagsAfter f (enteredFlags brk f) (alsoFlag .i true (alsoFlag .b brk noFlags)) := by
  intro k
  simp only [enteredFlags, getFlag_setFlag, alsoFlag, noFlags]
  cases k <;> simp

/-- `FlagsRead()`: any value for a set flush bit, every other bit as it stands. -/
theorem flagsReadAs_flagsImage (s : State) : FlagsReadAs s.flags s.flagsImage := by
  intro k
  simp only [State.flagsImage, params]
  split
  · exact .inl rfl
  · simp only [getFlag, BitVec.getLsbD_and, BitVec.getLsbD_or, BitVec.getLsbD_not, flushMask]
    cases k <;> simp [flagIndex, isFlushFlag]
    all_goals
      rename_i h
      clear h
      generalize s.flags = f
      generalize s.drawn = d
    · cases f[10] <;> simp
    · cases f[11] <;> simp
    · cases f[14] <;> simp

theorem State.flagsImage_of_noFlush {s : State} (h : s.flags &&& flushMask = 0) : s.flagsImage = s.flags := by
  simp [State.flagsImage, params, h]

theorem State.afterFlagsRead_rest (s : State) : s.afterFlagsRead = { s with draws := s.afterFlagsRead.draws } := by
  simp only [State.afterFlagsRead, params]
  split <;> rfl

end Sys2Proof.Machine
end

