-- ==== Sys2Proof/Laws/State.lean ====
section
/-! SUPPORT. One lemma per field per update of State, so that no later proof unfolds a record update. -/

namespace Sys2Proof.Machine

/-! ### withFlags -/

@[simp] theorem State.withFlags_r1 (s : State) (f : Half) : (s.withFlags f).r1 = s.r1 := rfl
@[simp] theorem State.withFlags_r2 (s : State) (f : Half) : (s.withFlags f).r2 = s.r2 := rfl
@[simp] theorem State.withFlags_r3 (s : State) (f : Half) : (s.withFlags f).r3 = s.r3 := rfl
@[simp] theorem State.withFlags_r4 (s : State) (f : Half) : (s.withFlags f).r4 = s.r4 := rfl
@[simp] theorem State.withFlags_r5 (s : State) (f : Half) : (s.withFlags f).r5 = s.r5 := rfl
@[simp] theorem State.withFlags_r6 (s : State) (f : Half) : (s.withFlags f).r6 = s.r6 := rfl
@[simp] theorem State.withFlags_pc (s : State) (f : Half) : (s.withFlags f).pc = s.pc := rfl
@[simp] theorem State.withFlags_nextPc (s : State) (f : Half) : (s.withFlags f).nextPc = s.nextPc := rfl
@[simp] theorem State.withFlags_ri (s : State) (f : Half) : (s.withFlags f).ri = s.ri := rfl
@[simp] theorem State.withFlags_riValid (s : State) (f : Half) : (s.withFlags f).riValid = s.riValid := rfl
@[simp] theorem State.withFlags_riWritten (s : State) (f : Half) : (s.withFlags f).riWritten = s.riWritten := rfl
@[simp] theorem State.withFlags_riHold (s : State) (f : Half) : (s.withFlags f).riHold = s.riHold := rfl
@[simp] theorem State.withFlags_riHoldNext (s : State) (f : Half) : (s.withFlags f).riHoldNext = s.riHoldNext := rfl
@[simp] theorem State.withFlags_flags (s : State) (f : Half) : (s.withFlags f).flags = f := rfl
@[simp] theorem State.withFlags_m0 (s : State) (f : Half) : (s.withFlags f).m0 = s.m0 := rfl
@[simp] theorem State.withFlags_m1 (s : State) (f : Half) : (s.withFlags f).m1 = s.m1 := rfl
@[simp] theorem State.withFlags_mem (s : State) (f : Half) : (s.withFlags f).mem = s.mem := rfl
@[simp] theorem State.withFlags_sdram (s : State) (f : Half) : (s.withFlags f).sdram = s.sdram := rfl
@[simp] theorem State.withFlags_stale (s : State) (f : Half) : (s.withFlags f).stale = s.stale := rfl
@[simp] theorem State.withFlags_tlb (s : State) (f : Half) : (s.withFlags f).tlb = s.tlb := rfl
@[simp] theorem State.withFlags_pending (s : State) (f : Half) : (s.withFlags f).pending = s.pending := rfl
@[simp] theorem State.withFlags_draws (s : State) (f : Half) : (s.withFlags f).draws = s.draws := rfl

/-! ### translatedBy -/

@[simp] theorem State.translatedBy_r1 (s : State) (va : Word) : (s.translatedBy va).r1 = s.r1 := rfl
@[simp] theorem State.translatedBy_r2 (s : State) (va : Word) : (s.translatedBy va).r2 = s.r2 := rfl
@[simp] theorem State.translatedBy_r3 (s : State) (va : Word) : (s.translatedBy va).r3 = s.r3 := rfl
@[simp] theorem State.translatedBy_r4 (s : State) (va : Word) : (s.translatedBy va).r4 = s.r4 := rfl
@[simp] theorem State.translatedBy_r5 (s : State) (va : Word) : (s.translatedBy va).r5 = s.r5 := rfl
@[simp] theorem State.translatedBy_r6 (s : State) (va : Word) : (s.translatedBy va).r6 = s.r6 := rfl
@[simp] theorem State.translatedBy_pc (s : State) (va : Word) : (s.translatedBy va).pc = s.pc := rfl
@[simp] theorem State.translatedBy_nextPc (s : State) (va : Word) : (s.translatedBy va).nextPc = s.nextPc := rfl
@[simp] theorem State.translatedBy_ri (s : State) (va : Word) : (s.translatedBy va).ri = s.ri := rfl
@[simp] theorem State.translatedBy_riValid (s : State) (va : Word) : (s.translatedBy va).riValid = s.riValid := rfl
@[simp] theorem State.translatedBy_riWritten (s : State) (va : Word) : (s.translatedBy va).riWritten = s.riWritten := rfl
@[simp] theorem State.translatedBy_riHold (s : State) (va : Word) : (s.translatedBy va).riHold = s.riHold := rfl
@[simp] theorem State.translatedBy_riHoldNext (s : State) (va : Word) : (s.translatedBy va).riHoldNext = s.riHoldNext := rfl
@[simp] theorem State.translatedBy_flags (s : State) (va : Word) : (s.translatedBy va).flags = s.flags := rfl
@[simp] theorem State.translatedBy_m0 (s : State) (va : Word) : (s.translatedBy va).m0 = s.m0 := rfl
@[simp] theorem State.translatedBy_m1 (s : State) (va : Word) : (s.translatedBy va).m1 = s.m1 := rfl
@[simp] theorem State.translatedBy_mem (s : State) (va : Word) : (s.translatedBy va).mem = s.mem := rfl
@[simp] theorem State.translatedBy_sdram (s : State) (va : Word) : (s.translatedBy va).sdram = s.sdram := rfl
@[simp] theorem State.translatedBy_stale (s : State) (va : Word) : (s.translatedBy va).stale = s.stale := rfl
@[simp] theorem State.translatedBy_pending (s : State) (va : Word) : (s.translatedBy va).pending = s.pending := rfl
@[simp] theorem State.translatedBy_draws (s : State) (va : Word) : (s.translatedBy va).draws = s.draws + 1 := rfl
@[simp] theorem State.regRead_translatedBy (s : State) (va : Word) (i : Reg) :
    (s.translatedBy va).regRead i = s.regRead i := by cases i <;> rfl
@[simp] theorem State.busByte_translatedBy (s : State) (va : Word) (bus : Bus) (a : Word) :
    (s.translatedBy va).busByte bus a = s.busByte bus a := by cases bus <;> rfl

/-! ### withNextPc -/

@[simp] theorem State.withNextPc_r1 (s : State) (t : Word) : (s.withNextPc t).r1 = s.r1 := rfl
@[simp] theorem State.withNextPc_r2 (s : State) (t : Word) : (s.withNextPc t).r2 = s.r2 := rfl
@[simp] theorem State.withNextPc_r3 (s : State) (t : Word) : (s.withNextPc t).r3 = s.r3 := rfl
@[simp] theorem State.withNextPc_r4 (s : State) (t : Word) : (s.withNextPc t).r4 = s.r4 := rfl
@[simp] theorem State.withNextPc_r5 (s : State) (t : Word) : (s.withNextPc t).r5 = s.r5 := rfl
@[simp] theorem State.withNextPc_r6 (s : State) (t : Word) : (s.withNextPc t).r6 = s.r6 := rfl
@[simp] theorem State.withNextPc_pc (s : State) (t : Word) : (s.withNextPc t).pc = s.pc := rfl
@[simp] theorem State.withNextPc_nextPc (s : State) (t : Word) : (s.withNextPc t).nextPc = t := rfl
@[simp] theorem State.withNextPc_ri (s : State) (t : Word) : (s.withNextPc t).ri = s.ri := rfl
@[simp] theorem State.withNextPc_riValid (s : State) (t : Word) : (s.withNextPc t).riValid = s.riValid := rfl
@[simp] theorem State.withNextPc_riWritten (s : State) (t : Word) : (s.withNextPc t).riWritten = s.riWritten := rfl
@[simp] theorem State.withNextPc_riHold (s : State) (t : Word) : (s.withNextPc t).riHold = s.riHold := rfl
@[simp] theorem State.withNextPc_riHoldNext (s : State) (t : Word) : (s.withNextPc t).riHoldNext = s.riHoldNext := rfl
@[simp] theorem State.withNextPc_flags (s : State) (t : Word) : (s.withNextPc t).flags = s.flags := rfl
@[simp] theorem State.withNextPc_m0 (s : State) (t : Word) : (s.withNextPc t).m0 = s.m0 := rfl
@[simp] theorem State.withNextPc_m1 (s : State) (t : Word) : (s.withNextPc t).m1 = s.m1 := rfl
@[simp] theorem State.withNextPc_mem (s : State) (t : Word) : (s.withNextPc t).mem = s.mem := rfl
@[simp] theorem State.withNextPc_sdram (s : State) (t : Word) : (s.withNextPc t).sdram = s.sdram := rfl
@[simp] theorem State.withNextPc_stale (s : State) (t : Word) : (s.withNextPc t).stale = s.stale := rfl
@[simp] theorem State.withNextPc_tlb (s : State) (t : Word) : (s.withNextPc t).tlb = s.tlb := rfl
@[simp] theorem State.withNextPc_pending (s : State) (t : Word) : (s.withNextPc t).pending = s.pending := rfl
@[simp] theorem State.withNextPc_draws (s : State) (t : Word) : (s.withNextPc t).draws = s.draws := rfl

/-! ### afterDraw -/

@[simp] theorem State.afterDraw_r1 (s : State) : (s.afterDraw).r1 = s.r1 := rfl
@[simp] theorem State.afterDraw_r2 (s : State) : (s.afterDraw).r2 = s.r2 := rfl
@[simp] theorem State.afterDraw_r3 (s : State) : (s.afterDraw).r3 = s.r3 := rfl
@[simp] theorem State.afterDraw_r4 (s : State) : (s.afterDraw).r4 = s.r4 := rfl
@[simp] theorem State.afterDraw_r5 (s : State) : (s.afterDraw).r5 = s.r5 := rfl
@[simp] theorem State.afterDraw_r6 (s : State) : (s.afterDraw).r6 = s.r6 := rfl
@[simp] theorem State.afterDraw_pc (s : State) : (s.afterDraw).pc = s.pc := rfl
@[simp] theorem State.afterDraw_nextPc (s : State) : (s.afterDraw).nextPc = s.nextPc := rfl
@[simp] theorem State.afterDraw_ri (s : State) : (s.afterDraw).ri = s.ri := rfl
@[simp] theorem State.afterDraw_riValid (s : State) : (s.afterDraw).riValid = s.riValid := rfl
@[simp] theorem State.afterDraw_riWritten (s : State) : (s.afterDraw).riWritten = s.riWritten := rfl
@[simp] theorem State.afterDraw_riHold (s : State) : (s.afterDraw).riHold = s.riHold := rfl
@[simp] theorem State.afterDraw_riHoldNext (s : State) : (s.afterDraw).riHoldNext = s.riHoldNext := rfl
@[simp] theorem State.afterDraw_flags (s : State) : (s.afterDraw).flags = s.flags := rfl
@[simp] theorem State.afterDraw_m0 (s : State) : (s.afterDraw).m0 = s.m0 := rfl
@[simp] theorem State.afterDraw_m1 (s : State) : (s.afterDraw).m1 = s.m1 := rfl
@[simp] theorem State.afterDraw_mem (s : State) : (s.afterDraw).mem = s.mem := rfl
@[simp] theorem State.afterDraw_sdram (s : State) : (s.afterDraw).sdram = s.sdram := rfl
@[simp] theorem State.afterDraw_stale (s : State) : (s.afterDraw).stale = s.stale := rfl
@[simp] theorem State.afterDraw_tlb (s : State) : (s.afterDraw).tlb = s.tlb := rfl
@[simp] theorem State.afterDraw_pending (s : State) : (s.afterDraw).pending = s.pending := rfl
@[simp] theorem State.afterDraw_draws (s : State) : (s.afterDraw).draws = s.draws + 1 := rfl

/-! ### startInstr -/

@[simp] theorem State.startInstr_r1 (s : State) (n : Word) : (s.startInstr n).r1 = s.r1 := rfl
@[simp] theorem State.startInstr_r2 (s : State) (n : Word) : (s.startInstr n).r2 = s.r2 := rfl
@[simp] theorem State.startInstr_r3 (s : State) (n : Word) : (s.startInstr n).r3 = s.r3 := rfl
@[simp] theorem State.startInstr_r4 (s : State) (n : Word) : (s.startInstr n).r4 = s.r4 := rfl
@[simp] theorem State.startInstr_r5 (s : State) (n : Word) : (s.startInstr n).r5 = s.r5 := rfl
@[simp] theorem State.startInstr_r6 (s : State) (n : Word) : (s.startInstr n).r6 = s.r6 := rfl
@[simp] theorem State.startInstr_pc (s : State) (n : Word) : (s.startInstr n).pc = s.pc := rfl
@[simp] theorem State.startInstr_nextPc (s : State) (n : Word) : (s.startInstr n).nextPc = s.pc + n := rfl
@[simp] theorem State.startInstr_ri (s : State) (n : Word) : (s.startInstr n).ri = s.ri := rfl
@[simp] theorem State.startInstr_riValid (s : State) (n : Word) : (s.startInstr n).riValid = s.riValid := rfl
@[simp] theorem State.startInstr_riWritten (s : State) (n : Word) : (s.startInstr n).riWritten = false := rfl
@[simp] theorem State.startInstr_riHold (s : State) (n : Word) : (s.startInstr n).riHold = s.riHold := rfl
@[simp] theorem State.startInstr_riHoldNext (s : State) (n : Word) : (s.startInstr n).riHoldNext = false := rfl
@[simp] theorem State.startInstr_flags (s : State) (n : Word) : (s.startInstr n).flags = s.flags := rfl
@[simp] theorem State.startInstr_m0 (s : State) (n : Word) : (s.startInstr n).m0 = s.m0 := rfl
@[simp] theorem State.startInstr_m1 (s : State) (n : Word) : (s.startInstr n).m1 = s.m1 := rfl
@[simp] theorem State.startInstr_mem (s : State) (n : Word) : (s.startInstr n).mem = s.mem := rfl
@[simp] theorem State.startInstr_sdram (s : State) (n : Word) : (s.startInstr n).sdram = s.sdram := rfl
@[simp] theorem State.startInstr_stale (s : State) (n : Word) : (s.startInstr n).stale = s.stale := rfl
@[simp] theorem State.startInstr_tlb (s : State) (n : Word) : (s.startInstr n).tlb = s.tlb := rfl
@[simp] theorem State.startInstr_pending (s : State) (n : Word) : (s.startInstr n).pending = s.pending := rfl
@[simp] theorem State.startInstr_draws (s : State) (n : Word) : (s.startInstr n).draws = s.draws := rfl

/-! ### endInstr -/

@[simp] theorem State.endInstr_r1 (s : State) : (s.endInstr).r1 = s.r1 := rfl
@[simp] theorem State.endInstr_r2 (s : State) : (s.endInstr).r2 = s.r2 := rfl
@[simp] theorem State.endInstr_r3 (s : State) : (s.endInstr).r3 = s.r3 := rfl
@[simp] theorem State.endInstr_r4 (s : State) : (s.endInstr).r4 = s.r4 := rfl
@[simp] theorem State.endInstr_r5 (s : State) : (s.endInstr).r5 = s.r5 := rfl
@[simp] theorem State.endInstr_r6 (s : State) : (s.endInstr).r6 = s.r6 := rfl
@[simp] theorem State.endInstr_pc (s : State) : (s.endInstr).pc = s.nextPc := rfl
@[simp] theorem State.endInstr_nextPc (s : State) : (s.endInstr).nextPc = s.nextPc := rfl
@[simp] theorem State.endInstr_ri (s : State) : (s.endInstr).ri = s.ri := rfl
@[simp] theorem State.endInstr_riValid (s : State) : (s.endInstr).riValid = s.riWritten := rfl
@[simp] theorem State.endInstr_riWritten (s : State) : (s.endInstr).riWritten = false := rfl
@[simp] theorem State.endInstr_riHold (s : State) : (s.endInstr).riHold = s.riHoldNext := rfl
@[simp] theorem State.endInstr_riHoldNext (s : State) : (s.endInstr).riHoldNext = false := rfl
@[simp] theorem State.endInstr_flags (s : State) : (s.endInstr).flags = s.flags := rfl
@[simp] theorem State.endInstr_m0 (s : State) : (s.endInstr).m0 = s.m0 := rfl
@[simp] theorem State.endInstr_m1 (s : State) : (s.endInstr).m1 = s.m1 := rfl
@[simp] theorem State.endInstr_mem (s : State) : (s.endInstr).mem = s.mem := rfl
@[simp] theorem State.endInstr_sdram (s : State) : (s.endInstr).sdram = s.sdram := rfl
@[simp] theorem State.endInstr_stale (s : State) : (s.endInstr).stale = s.stale := rfl
@[simp] theorem State.endInstr_tlb (s : State) : (s.endInstr).tlb = s.tlb := rfl
@[simp] theorem State.endInstr_pending (s : State) : (s.endInstr).pending = s.pending := rfl
@[simp] theorem State.endInstr_draws (s : State) : (s.endInstr).draws = s.draws := rfl

/-! ### dropSource -/

@[simp] theorem State.dropSource_r1 (s : State) (i : IntSource) : (s.dropSource i).r1 = s.r1 := rfl
@[simp] theorem State.dropSource_r2 (s : State) (i : IntSource) : (s.dropSource i).r2 = s.r2 := rfl
@[simp] theorem State.dropSource_r3 (s : State) (i : IntSource) : (s.dropSource i).r3 = s.r3 := rfl
@[simp] theorem State.dropSource_r4 (s : State) (i : IntSource) : (s.dropSource i).r4 = s.r4 := rfl
@[simp] theorem State.dropSource_r5 (s : State) (i : IntSource) : (s.dropSource i).r5 = s.r5 := rfl
@[simp] theorem State.dropSource_r6 (s : State) (i : IntSource) : (s.dropSource i).r6 = s.r6 := rfl
@[simp] theorem State.dropSource_pc (s : State) (i : IntSource) : (s.dropSource i).pc = s.pc := rfl
@[simp] theorem State.dropSource_nextPc (s : State) (i : IntSource) : (s.dropSource i).nextPc = s.nextPc := rfl
@[simp] theorem State.dropSource_ri (s : State) (i : IntSource) : (s.dropSource i).ri = s.ri := rfl
@[simp] theorem State.dropSource_riValid (s : State) (i : IntSource) : (s.dropSource i).riValid = s.riValid := rfl
@[simp] theorem State.dropSource_riWritten (s : State) (i : IntSource) : (s.dropSource i).riWritten = s.riWritten := rfl
@[simp] theorem State.dropSource_riHold (s : State) (i : IntSource) : (s.dropSource i).riHold = s.riHold := rfl
@[simp] theorem State.dropSource_riHoldNext (s : State) (i : IntSource) : (s.dropSource i).riHoldNext = s.riHoldNext := rfl
@[simp] theorem State.dropSource_flags (s : State) (i : IntSource) : (s.dropSource i).flags = s.flags := rfl
@[simp] theorem State.dropSource_m0 (s : State) (i : IntSource) : (s.dropSource i).m0 = s.m0 := rfl
@[simp] theorem State.dropSource_m1 (s : State) (i : IntSource) : (s.dropSource i).m1 = s.m1 := rfl
@[simp] theorem State.dropSource_mem (s : State) (i : IntSource) : (s.dropSource i).mem = s.mem := rfl
@[simp] theorem State.dropSource_sdram (s : State) (i : IntSource) : (s.dropSource i).sdram = s.sdram := rfl
@[simp] theorem State.dropSource_stale (s : State) (i : IntSource) : (s.dropSource i).stale = s.stale := rfl
@[simp] theorem State.dropSource_tlb (s : State) (i : IntSource) : (s.dropSource i).tlb = s.tlb := rfl
@[simp] theorem State.dropSource_pending (s : State) (i : IntSource) : (s.dropSource i).pending = s.pending.erase i := rfl
@[simp] theorem State.dropSource_draws (s : State) (i : IntSource) : (s.dropSource i).draws = s.draws := rfl

/-! ### writeFlags -/

@[simp] theorem State.writeFlags_r1 (s : State) (f req : Half) : (s.writeFlags f req).r1 = s.r1 := rfl
@[simp] theorem State.writeFlags_r2 (s : State) (f req : Half) : (s.writeFlags f req).r2 = s.r2 := rfl
@[simp] theorem State.writeFlags_r3 (s : State) (f req : Half) : (s.writeFlags f req).r3 = s.r3 := rfl
@[simp] theorem State.writeFlags_r4 (s : State) (f req : Half) : (s.writeFlags f req).r4 = s.r4 := rfl
@[simp] theorem State.writeFlags_r5 (s : State) (f req : Half) : (s.writeFlags f req).r5 = s.r5 := rfl
@[simp] theorem State.writeFlags_r6 (s : State) (f req : Half) : (s.writeFlags f req).r6 = s.r6 := rfl
@[simp] theorem State.writeFlags_pc (s : State) (f req : Half) : (s.writeFlags f req).pc = s.pc := rfl
@[simp] theorem State.writeFlags_nextPc (s : State) (f req : Half) : (s.writeFlags f req).nextPc = s.nextPc := rfl
@[simp] theorem State.writeFlags_ri (s : State) (f req : Half) : (s.writeFlags f req).ri = s.ri := rfl
@[simp] theorem State.writeFlags_riValid (s : State) (f req : Half) : (s.writeFlags f req).riValid = s.riValid := rfl
@[simp] theorem State.writeFlags_riWritten (s : State) (f req : Half) : (s.writeFlags f req).riWritten = s.riWritten := rfl
@[simp] theorem State.writeFlags_riHold (s : State) (f req : Half) : (s.writeFlags f req).riHold = s.riHold := rfl
@[simp] theorem State.writeFlags_riHoldNext (s : State) (f req : Half) : (s.writeFlags f req).riHoldNext = s.riHoldNext := rfl
@[simp] theorem State.writeFlags_flags (s : State) (f req : Half) : (s.writeFlags f req).flags = f := rfl
@[simp] theorem State.writeFlags_m0 (s : State) (f req : Half) : (s.writeFlags f req).m0 = s.m0 := rfl
@[simp] theorem State.writeFlags_m1 (s : State) (f req : Half) : (s.writeFlags f req).m1 = s.m1 := rfl
@[simp] theorem State.writeFlags_mem (s : State) (f req : Half) : (s.writeFlags f req).mem = s.mem := rfl
@[simp] theorem State.writeFlags_sdram (s : State) (f req : Half) : (s.writeFlags f req).sdram = s.sdram := rfl
@[simp] theorem State.writeFlags_stale (s : State) (f req : Half) : (s.writeFlags f req).stale = if getFlag req .fic then [] else s.stale := rfl
@[simp] theorem State.writeFlags_tlb (s : State) (f req : Half) : (s.writeFlags f req).tlb = if getFlag req .ftl then [] else s.tlb := rfl
@[simp] theorem State.writeFlags_pending (s : State) (f req : Half) : (s.writeFlags f req).pending = s.pending := rfl
@[simp] theorem State.writeFlags_draws (s : State) (f req : Half) : (s.writeFlags f req).draws = s.draws := rfl

/-! ### afterCmpR0 -/

@[simp] theorem State.afterCmpR0_r1 (s : State) : (s.afterCmpR0).r1 = s.r1 := rfl
@[simp] theorem State.afterCmpR0_r2 (s : State) : (s.afterCmpR0).r2 = s.r2 := rfl
@[simp] theorem State.afterCmpR0_r3 (s : State) : (s.afterCmpR0).r3 = s.r3 := rfl
@[simp] theorem State.afterCmpR0_r4 (s : State) : (s.afterCmpR0).r4 = s.r4 := rfl
@[simp] theorem State.afterCmpR0_r5 (s : State) : (s.afterCmpR0).r5 = s.r5 := rfl
@[simp] theorem State.afterCmpR0_r6 (s : State) : (s.afterCmpR0).r6 = s.r6 := rfl
@[simp] theorem State.afterCmpR0_pc (s : State) : (s.afterCmpR0).pc = s.pc := rfl
@[simp] theorem State.afterCmpR0_nextPc (s : State) : (s.afterCmpR0).nextPc = s.nextPc := rfl
@[simp] theorem State.afterCmpR0_ri (s : State) : (s.afterCmpR0).ri = s.drawn := rfl
@[simp] theorem State.afterCmpR0_riValid (s : State) : (s.afterCmpR0).riValid = s.riValid := rfl
@[simp] theorem State.afterCmpR0_riWritten (s : State) : (s.afterCmpR0).riWritten = true := rfl
@[simp] theorem State.afterCmpR0_riHold (s : State) : (s.afterCmpR0).riHold = s.riHold := rfl
@[simp] theorem State.afterCmpR0_riHoldNext (s : State) : (s.afterCmpR0).riHoldNext = s.afterDraw.drawn.getLsbD 0 := rfl
@[simp] theorem State.afterCmpR0_flags (s : State) : (s.afterCmpR0).flags = s.flags := rfl
@[simp] theorem State.afterCmpR0_m0 (s : State) : (s.afterCmpR0).m0 = s.m0 := rfl
@[simp] theorem State.afterCmpR0_m1 (s : State) : (s.afterCmpR0).m1 = s.m1 := rfl
@[simp] theorem State.afterCmpR0_mem (s : State) : (s.afterCmpR0).mem = s.mem := rfl
@[simp] theorem State.afterCmpR0_sdram (s : State) : (s.afterCmpR0).sdram = s.sdram := rfl
@[simp] theorem State.afterCmpR0_stale (s : State) : (s.afterCmpR0).stale = s.stale := rfl
@[simp] theorem State.afterCmpR0_tlb (s : State) : (s.afterCmpR0).tlb = s.tlb := rfl
@[simp] theorem State.afterCmpR0_pending (s : State) : (s.afterCmpR0).pending = s.pending := rfl
@[simp] theorem State.afterCmpR0_draws (s : State) : (s.afterCmpR0).draws = s.draws + 1 + 1 := rfl

/-! ### regWrite: exactly the named register -/

@[simp] theorem State.regWrite_r1 (s : State) (i : Reg) (v : Word) : (s.regWrite i v).r1 = if i = .r1 then v else s.r1 := by cases i <;> rfl
@[simp] theorem State.regWrite_r2 (s : State) (i : Reg) (v : Word) : (s.regWrite i v).r2 = if i = .r2 then v else s.r2 := by cases i <;> rfl
@[simp] theorem State.regWrite_r3 (s : State) (i : Reg) (v : Word) : (s.regWrite i v).r3 = if i = .r3 then v else s.r3 := by cases i <;> rfl
@[simp] theorem State.regWrite_r4 (s : State) (i : Reg) (v : Word) : (s.regWrite i v).r4 = if i = .r4 then v else s.r4 := by cases i <;> rfl
@[simp] theorem State.regWrite_r5 (s : State) (i : Reg) (v : Word) : (s.regWrite i v).r5 = if i = .r5 then v else s.r5 := by cases i <;> rfl
@[simp] theorem State.regWrite_r6 (s : State) (i : Reg) (v : Word) : (s.regWrite i v).r6 = if i = .r6 then v else s.r6 := by cases i <;> rfl
@[simp] theorem State.regWrite_pc (s : State) (i : Reg) (v : Word) : (s.regWrite i v).pc = s.pc := by cases i <;> rfl
@[simp] theorem State.regWrite_nextPc (s : State) (i : Reg) (v : Word) : (s.regWrite i v).nextPc = if i = .r7 then v else s.nextPc := by cases i <;> rfl
@[simp] theorem State.regWrite_ri (s : State) (i : Reg) (v : Word) : (s.regWrite i v).ri = if i = .r0 then v else s.ri := by cases i <;> rfl
@[simp] theorem State.regWrite_riValid (s : State) (i : Reg) (v : Word) : (s.regWrite i v).riValid = s.riValid := by cases i <;> rfl
@[simp] theorem State.regWrite_riWritten (s : State) (i : Reg) (v : Word) : (s.regWrite i v).riWritten = if i = .r0 then true else s.riWritten := by cases i <;> rfl
@[simp] theorem State.regWrite_riHold (s : State) (i : Reg) (v : Word) : (s.regWrite i v).riHold = s.riHold := by cases i <;> rfl
@[simp] theorem State.regWrite_riHoldNext (s : State) (i : Reg) (v : Word) : (s.regWrite i v).riHoldNext = if i = .r0 then true else s.riHoldNext := by cases i <;> rfl
@[simp] theorem State.regWrite_flags (s : State) (i : Reg) (v : Word) : (s.regWrite i v).flags = s.flags := by cases i <;> rfl
@[simp] theorem State.regWrite_m0 (s : State) (i : Reg) (v : Word) : (s.regWrite i v).m0 = s.m0 := by cases i <;> rfl
@[simp] theorem State.regWrite_m1 (s : State) (i : Reg) (v : Word) : (s.regWrite i v).m1 = s.m1 := by cases i <;> rfl
@[simp] theorem State.regWrite_mem (s : State) (i : Reg) (v : Word) : (s.regWrite i v).mem = s.mem := by cases i <;> rfl
@[simp] theorem State.regWrite_sdram (s : State) (i : Reg) (v : Word) : (s.regWrite i v).sdram = s.sdram := by cases i <;> rfl
@[simp] theorem State.regWrite_stale (s : State) (i : Reg) (v : Word) : (s.regWrite i v).stale = s.stale := by cases i <;> rfl
@[simp] theorem State.regWrite_tlb (s : State) (i : Reg) (v : Word) : (s.regWrite i v).tlb = s.tlb := by cases i <;> rfl
@[simp] theorem State.regWrite_pending (s : State) (i : Reg) (v : Word) : (s.regWrite i v).pending = s.pending := by cases i <;> rfl
@[simp] theorem State.regWrite_draws (s : State) (i : Reg) (v : Word) : (s.regWrite i v).draws = s.draws := by cases i <;> rfl

/-! ### laneWrite and afterMemOp never change -/

@[simp] theorem State.laneWrite_pc (s : State) (i : Reg) (w : Width) (v : BitVec (widthBitCount w)) :
    (s.laneWrite i w v).pc = s.pc := by cases i <;> rfl
@[simp] theorem State.unResult_pc (s : State) (op : UnOp) (w : Width) (v : BitVec (widthBitCount w)) :
    (s.unResult op w v).pc = s.pc := by simp [State.unResult]
@[simp] theorem State.afterMemOp_pc (s : State) (m : MemOp) (n : Size) :
    (s.afterMemOp m n).pc = s.pc := by cases m <;> simp [State.afterMemOp]
@[simp] theorem State.laneWrite_riValid (s : State) (i : Reg) (w : Width) (v : BitVec (widthBitCount w)) :
    (s.laneWrite i w v).riValid = s.riValid := by cases i <;> rfl
@[simp] theorem State.unResult_riValid (s : State) (op : UnOp) (w : Width) (v : BitVec (widthBitCount w)) :
    (s.unResult op w v).riValid = s.riValid := by simp [State.unResult]
@[simp] theorem State.afterMemOp_riValid (s : State) (m : MemOp) (n : Size) :
    (s.afterMemOp m n).riValid = s.riValid := by cases m <;> simp [State.afterMemOp]
@[simp] theorem State.laneWrite_riHold (s : State) (i : Reg) (w : Width) (v : BitVec (widthBitCount w)) :
    (s.laneWrite i w v).riHold = s.riHold := by cases i <;> rfl
@[simp] theorem State.unResult_riHold (s : State) (op : UnOp) (w : Width) (v : BitVec (widthBitCount w)) :
    (s.unResult op w v).riHold = s.riHold := by simp [State.unResult]
@[simp] theorem State.afterMemOp_riHold (s : State) (m : MemOp) (n : Size) :
    (s.afterMemOp m n).riHold = s.riHold := by cases m <;> simp [State.afterMemOp]
@[simp] theorem State.laneWrite_flags (s : State) (i : Reg) (w : Width) (v : BitVec (widthBitCount w)) :
    (s.laneWrite i w v).flags = s.flags := by cases i <;> rfl
@[simp] theorem State.unResult_flags (s : State) (op : UnOp) (w : Width) (v : BitVec (widthBitCount w)) :
    (s.unResult op w v).flags = s.flags := by simp [State.unResult]
@[simp] theorem State.afterMemOp_flags (s : State) (m : MemOp) (n : Size) :
    (s.afterMemOp m n).flags = s.flags := by cases m <;> simp [State.afterMemOp]
@[simp] theorem State.laneWrite_m0 (s : State) (i : Reg) (w : Width) (v : BitVec (widthBitCount w)) :
    (s.laneWrite i w v).m0 = s.m0 := by cases i <;> rfl
@[simp] theorem State.unResult_m0 (s : State) (op : UnOp) (w : Width) (v : BitVec (widthBitCount w)) :
    (s.unResult op w v).m0 = s.m0 := by simp [State.unResult]
@[simp] theorem State.afterMemOp_m0 (s : State) (m : MemOp) (n : Size) :
    (s.afterMemOp m n).m0 = s.m0 := by cases m <;> simp [State.afterMemOp]
@[simp] theorem State.laneWrite_m1 (s : State) (i : Reg) (w : Width) (v : BitVec (widthBitCount w)) :
    (s.laneWrite i w v).m1 = s.m1 := by cases i <;> rfl
@[simp] theorem State.unResult_m1 (s : State) (op : UnOp) (w : Width) (v : BitVec (widthBitCount w)) :
    (s.unResult op w v).m1 = s.m1 := by simp [State.unResult]
@[simp] theorem State.afterMemOp_m1 (s : State) (m : MemOp) (n : Size) :
    (s.afterMemOp m n).m1 = s.m1 := by cases m <;> simp [State.afterMemOp]
@[simp] theorem State.laneWrite_mem (s : State) (i : Reg) (w : Width) (v : BitVec (widthBitCount w)) :
    (s.laneWrite i w v).mem = s.mem := by cases i <;> rfl
@[simp] theorem State.unResult_mem (s : State) (op : UnOp) (w : Width) (v : BitVec (widthBitCount w)) :
    (s.unResult op w v).mem = s.mem := by simp [State.unResult]
@[simp] theorem State.afterMemOp_mem (s : State) (m : MemOp) (n : Size) :
    (s.afterMemOp m n).mem = s.mem := by cases m <;> simp [State.afterMemOp]
@[simp] theorem State.laneWrite_sdram (s : State) (i : Reg) (w : Width) (v : BitVec (widthBitCount w)) :
    (s.laneWrite i w v).sdram = s.sdram := by cases i <;> rfl
@[simp] theorem State.unResult_sdram (s : State) (op : UnOp) (w : Width) (v : BitVec (widthBitCount w)) :
    (s.unResult op w v).sdram = s.sdram := by simp [State.unResult]
@[simp] theorem State.afterMemOp_sdram (s : State) (m : MemOp) (n : Size) :
    (s.afterMemOp m n).sdram = s.sdram := by cases m <;> simp [State.afterMemOp]
@[simp] theorem State.laneWrite_stale (s : State) (i : Reg) (w : Width) (v : BitVec (widthBitCount w)) :
    (s.laneWrite i w v).stale = s.stale := by cases i <;> rfl
@[simp] theorem State.unResult_stale (s : State) (op : UnOp) (w : Width) (v : BitVec (widthBitCount w)) :
    (s.unResult op w v).stale = s.stale := by simp [State.unResult]
@[simp] theorem State.afterMemOp_stale (s : State) (m : MemOp) (n : Size) :
    (s.afterMemOp m n).stale = s.stale := by cases m <;> simp [State.afterMemOp]
@[simp] theorem State.laneWrite_tlb (s : State) (i : Reg) (w : Width) (v : BitVec (widthBitCount w)) :
    (s.laneWrite i w v).tlb = s.tlb := by cases i <;> rfl
@[simp] theorem State.unResult_tlb (s : State) (op : UnOp) (w : Width) (v : BitVec (widthBitCount w)) :
    (s.unResult op w v).tlb = s.tlb := by simp [State.unResult]
@[simp] theorem State.afterMemOp_tlb (s : State) (m : MemOp) (n : Size) :
    (s.afterMemOp m n).tlb = s.tlb := by cases m <;> simp [State.afterMemOp]
@[simp] theorem State.laneWrite_pending (s : State) (i : Reg) (w : Width) (v : BitVec (widthBitCount w)) :
    (s.laneWrite i w v).pending = s.pending := by cases i <;> rfl
@[simp] theorem State.unResult_pending (s : State) (op : UnOp) (w : Width) (v : BitVec (widthBitCount w)) :
    (s.unResult op w v).pending = s.pending := by simp [State.unResult]
@[simp] theorem State.afterMemOp_pending (s : State) (m : MemOp) (n : Size) :
    (s.afterMemOp m n).pending = s.pending := by cases m <;> simp [State.afterMemOp]
@[simp] theorem State.laneWrite_draws (s : State) (i : Reg) (w : Width) (v : BitVec (widthBitCount w)) :
    (s.laneWrite i w v).draws = s.draws := by cases i <;> rfl
@[simp] theorem State.unResult_draws (s : State) (op : UnOp) (w : Width) (v : BitVec (widthBitCount w)) :
    (s.unResult op w v).draws = s.draws := by simp [State.unResult]
@[simp] theorem State.afterMemOp_draws (s : State) (m : MemOp) (n : Size) :
    (s.afterMemOp m n).draws = s.draws := by cases m <;> simp [State.afterMemOp]

/-! ### withMmuReg -/

@[simp] theorem State.withMmuReg_r1 (s : State) (n : MmuReg) (v : Word) : (s.withMmuReg n v).r1 = s.r1 := by
  cases n <;> rfl
@[simp] theorem State.withMmuReg_r2 (s : State) (n : MmuReg) (v : Word) : (s.withMmuReg n v).r2 = s.r2 := by
  cases n <;> rfl
@[simp] theorem State.withMmuReg_r3 (s : State) (n : MmuReg) (v : Word) : (s.withMmuReg n v).r3 = s.r3 := by
  cases n <;> rfl
@[simp] theorem State.withMmuReg_r4 (s : State) (n : MmuReg) (v : Word) : (s.withMmuReg n v).r4 = s.r4 := by
  cases n <;> rfl
@[simp] theorem State.withMmuReg_r5 (s : State) (n : MmuReg) (v : Word) : (s.withMmuReg n v).r5 = s.r5 := by
  cases n <;> rfl
@[simp] theorem State.withMmuReg_r6 (s : State) (n : MmuReg) (v : Word) : (s.withMmuReg n v).r6 = s.r6 := by
  cases n <;> rfl
@[simp] theorem State.withMmuReg_pc (s : State) (n : MmuReg) (v : Word) : (s.withMmuReg n v).pc = s.pc := by
  cases n <;> rfl
@[simp] theorem State.withMmuReg_nextPc (s : State) (n : MmuReg) (v : Word) : (s.withMmuReg n v).nextPc = s.nextPc := by
  cases n <;> rfl
@[simp] theorem State.withMmuReg_ri (s : State) (n : MmuReg) (v : Word) : (s.withMmuReg n v).ri = s.ri := by
  cases n <;> rfl
@[simp] theorem State.withMmuReg_riValid (s : State) (n : MmuReg) (v : Word) : (s.withMmuReg n v).riValid = s.riValid := by
  cases n <;> rfl
@[simp] theorem State.withMmuReg_riWritten (s : State) (n : MmuReg) (v : Word) : (s.withMmuReg n v).riWritten = s.riWritten := by
  cases n <;> rfl
@[simp] theorem State.withMmuReg_riHold (s : State) (n : MmuReg) (v : Word) : (s.withMmuReg n v).riHold = s.riHold := by
  cases n <;> rfl
@[simp] theorem State.withMmuReg_riHoldNext (s : State) (n : MmuReg) (v : Word) : (s.withMmuReg n v).riHoldNext = s.riHoldNext := by
  cases n <;> rfl
@[simp] theorem State.withMmuReg_flags (s : State) (n : MmuReg) (v : Word) : (s.withMmuReg n v).flags = s.flags := by
  cases n <;> rfl
@[simp] theorem State.withMmuReg_m0 (s : State) (n : MmuReg) (v : Word) :
    (s.withMmuReg n v).m0 = if n = .m0 then v else s.m0 := by cases n <;> rfl
@[simp] theorem State.withMmuReg_m1 (s : State) (n : MmuReg) (v : Word) :
    (s.withMmuReg n v).m1 = if n = .m1 then v else s.m1 := by cases n <;> rfl
@[simp] theorem State.withMmuReg_mem (s : State) (n : MmuReg) (v : Word) : (s.withMmuReg n v).mem = s.mem := by
  cases n <;> rfl
@[simp] theorem State.withMmuReg_sdram (s : State) (n : MmuReg) (v : Word) : (s.withMmuReg n v).sdram = s.sdram := by
  cases n <;> rfl
@[simp] theorem State.withMmuReg_stale (s : State) (n : MmuReg) (v : Word) : (s.withMmuReg n v).stale = s.stale := by
  cases n <;> rfl
@[simp] theorem State.withMmuReg_tlb (s : State) (n : MmuReg) (v : Word) : (s.withMmuReg n v).tlb = s.tlb := by
  cases n <;> rfl
@[simp] theorem State.withMmuReg_pending (s : State) (n : MmuReg) (v : Word) : (s.withMmuReg n v).pending = s.pending := by
  cases n <;> rfl
@[simp] theorem State.withMmuReg_draws (s : State) (n : MmuReg) (v : Word) : (s.withMmuReg n v).draws = s.draws := by
  cases n <;> rfl

end Sys2Proof.Machine
end

