-- ==== Sys2Proof/Laws/Memory.lean ====
section
/-! SUPPORT. The laws of one memory: reading after writing, the canonical form, and that equal contents are equal lists. -/

namespace Sys2Proof.Machine

/-! ### Reading after writing -/

@[simp] theorem Memory.read_nil (a : Nat) : Memory.read [] a = Memory.unlisted := rfl

theorem Memory.read_cons (b : Nat) (u : Byte) (m : Memory) (a : Nat) :
    Memory.read ((b, u) :: m) a = if b = a then u else Memory.read m a := rfl

theorem Memory.read_erase (m : Memory) (a c : Nat) :
    Memory.read (Memory.erase m a) c = if c = a then Memory.unlisted else Memory.read m c := by
  induction m with
  | nil => simp [Memory.erase]
  | cons e m ih =>
    obtain ⟨b, u⟩ := e
    by_cases hb : b = a
    · subst hb
      simp only [Memory.erase, if_true, ih, Memory.read_cons]
      by_cases hc : c = b
      · simp [hc]
      · simp [hc, Ne.symm hc]
    · simp only [Memory.erase, hb, if_false, Memory.read_cons, ih]
      by_cases hc : c = a
      · subst hc; simp [hb]
      · simp [hc]

theorem Memory.read_insert (m : Memory) (a c : Nat) (v : Byte) (h : Memory.read m a = Memory.unlisted)
    (he : Memory.erase m a = m) :
    Memory.read (Memory.insert m a v) c = if c = a then v else Memory.read m c := by
  induction m with
  | nil => simp only [Memory.insert, Memory.read_cons, Memory.read_nil, eq_comm]
  | cons e m ih =>
    obtain ⟨b, u⟩ := e
    have hb : b ≠ a := by
      intro hb
      have hl : ∀ l : Memory, (Memory.erase l a).length ≤ l.length := by
        intro l
        induction l with
        | nil => simp [Memory.erase]
        | cons e l ih => simp only [Memory.erase]; split <;> simp only [List.length_cons] <;> omega
      have := congrArg List.length he
      have h2 := hl m
      simp only [Memory.erase, hb, if_true, List.length_cons] at this
      omega
    have he' : Memory.erase m a = m := by simpa [Memory.erase, hb] using he
    have h' : Memory.read m a = Memory.unlisted := by simpa [Memory.read_cons, hb] using h
    simp only [Memory.insert]
    split
    · simp only [Memory.read_cons, eq_comm (a := c)]
    · simp only [Memory.read_cons, ih h' he']
      by_cases hc : c = a
      · subst hc; simp [hb]
      · simp [hc]

theorem Memory.erase_erase (m : Memory) (a : Nat) : Memory.erase (Memory.erase m a) a = Memory.erase m a := by
  induction m with
  | nil => rfl
  | cons e m ih =>
    obtain ⟨b, u⟩ := e
    by_cases hb : b = a <;> simp [Memory.erase, hb, ih]

/-- Reading any address after a write: the written byte there, the old byte elsewhere. -/
theorem Memory.read_write (m : Memory) (a c : Nat) (v : Byte) :
    Memory.read (Memory.write m a v) c = if c = a then v else Memory.read m c := by
  unfold Memory.write
  split
  · next h => rw [Memory.read_erase, h]
  · rw [Memory.read_insert _ _ _ _ (by simp [Memory.read_erase]) (Memory.erase_erase m a), Memory.read_erase]
    by_cases hc : c = a <;> simp [hc]

@[simp] theorem Memory.read_write_same (m : Memory) (a : Nat) (v : Byte) :
    Memory.read (Memory.write m a v) a = v := by simp [Memory.read_write]

theorem Memory.read_write_other (m : Memory) {a c : Nat} (v : Byte) (h : c ≠ a) :
    Memory.read (Memory.write m a v) c = Memory.read m c := by simp [Memory.read_write, h]

/-! ### The canonical form is kept -/

theorem Memory.wfFrom_mono {m : Memory} {lo hi : Nat} (h : lo ≤ hi) (hm : Memory.wfFrom hi m = true) :
    Memory.wfFrom lo m = true := by
  cases m with
  | nil => rfl
  | cons e m =>
    obtain ⟨b, u⟩ := e
    simp only [Memory.wfFrom, Bool.and_eq_true, decide_eq_true_eq] at hm ⊢
    exact ⟨⟨⟨by omega, hm.1.1.2⟩, hm.1.2⟩, hm.2⟩

theorem Memory.wfFrom_erase {m : Memory} {lo : Nat} (a : Nat) (h : Memory.wfFrom lo m = true) :
    Memory.wfFrom lo (Memory.erase m a) = true := by
  induction m generalizing lo with
  | nil => rfl
  | cons e m ih =>
    obtain ⟨b, u⟩ := e
    simp only [Memory.wfFrom, Bool.and_eq_true, decide_eq_true_eq] at h
    simp only [Memory.erase]
    split
    · exact Memory.wfFrom_mono (by omega) (ih h.2)
    · simp only [Memory.wfFrom, Bool.and_eq_true, decide_eq_true_eq]
      exact ⟨h.1, ih h.2⟩

theorem Memory.wfFrom_insert {m : Memory} {lo a : Nat} {v : Byte} (h : Memory.wfFrom lo m = true) (hlo : lo ≤ a)
    (ha : a < 2 ^ 32) (hv : v ≠ Memory.unlisted) (he : Memory.erase m a = m) :
    Memory.wfFrom lo (Memory.insert m a v) = true := by
  induction m generalizing lo with
  | nil => simp [Memory.insert, Memory.wfFrom, hlo, hv]; omega
  | cons e m ih =>
    obtain ⟨b, u⟩ := e
    have hw := h
    simp only [Memory.wfFrom, Bool.and_eq_true, decide_eq_true_eq] at h
    have hb : b ≠ a := by
      intro hb
      have h1 := Memory.read_erase ((b, u) :: m) a a
      rw [he] at h1
      simp only [Memory.read_cons, hb, if_true] at h1
      simp only [bne_iff_ne] at h
      exact h.1.2 h1
    have he' : Memory.erase m a = m := by simpa [Memory.erase, hb] using he
    simp only [Memory.insert]
    split
    · simp only [Memory.wfFrom, Bool.and_eq_true, decide_eq_true_eq, bne_iff_ne] at h ⊢
      exact ⟨⟨⟨hlo, ha⟩, hv⟩, ⟨⟨by omega, h.1.1.2⟩, h.1.2⟩, h.2⟩
    · simp only [Memory.wfFrom, Bool.and_eq_true, decide_eq_true_eq]
      exact ⟨h.1, ih h.2 (by omega) he'⟩

/-- A write keeps the canonical form. -/
theorem Memory.wf_write {m : Memory} {a : Nat} (v : Byte) (h : m.wf = true) (ha : a < 2 ^ 32) :
    (Memory.write m a v).wf = true := by
  unfold Memory.write
  split
  · exact Memory.wfFrom_erase a h
  · next hv => exact Memory.wfFrom_insert (Memory.wfFrom_erase a h) (by omega) ha hv (Memory.erase_erase m a)

/-- Placing bytes from outside keeps the canonical form. -/
theorem placeBytes_wf {m : Memory} (addr : Word) (bs : List Byte) (h : m.wf = true) :
    (placeBytes m addr bs).wf = true := by
  induction bs generalizing m addr with
  | nil => exact h
  | cons b bs ih => exact ih (addr + 1) (Memory.wf_write b h addr.isLt)

/-- The memories of the reset state are in canonical form. -/
theorem reset_memories_wf : State.reset.mem.wf = true ∧ State.reset.sdram.wf = true := ⟨rfl, rfl⟩

/-! ### Equal contents are equal data -/

theorem Memory.read_below {m : Memory} {lo a : Nat} (h : Memory.wfFrom lo m = true) (ha : a < lo) :
    Memory.read m a = Memory.unlisted := by
  induction m generalizing lo with
  | nil => rfl
  | cons e m ih =>
    obtain ⟨b, u⟩ := e
    simp only [Memory.wfFrom, Bool.and_eq_true, decide_eq_true_eq] at h
    rw [Memory.read_cons, if_neg (by omega)]
    exact ih h.2 (by omega)

/-- Two memories in canonical form that read alike at every address are the same list. -/
theorem Memory.eq_of_read_eq {m m' : Memory} {lo lo' : Nat} (h : Memory.wfFrom lo m = true)
    (h' : Memory.wfFrom lo' m' = true) (hr : ∀ a, Memory.read m a = Memory.read m' a) : m = m' := by
  induction m generalizing lo lo' m' with
  | nil =>
    cases m' with
    | nil => rfl
    | cons e m' =>
      obtain ⟨b, u⟩ := e
      simp only [Memory.wfFrom, Bool.and_eq_true, bne_iff_ne] at h'
      exact absurd (by simpa [Memory.read_cons] using (hr b).symm) h'.1.2
  | cons e m ih =>
    obtain ⟨b, u⟩ := e
    simp only [Memory.wfFrom, Bool.and_eq_true, decide_eq_true_eq, bne_iff_ne] at h
    cases m' with
    | nil => exact absurd (by simpa [Memory.read_cons] using hr b) h.1.2
    | cons e' m' =>
      obtain ⟨b', u'⟩ := e'
      simp only [Memory.wfFrom, Bool.and_eq_true, decide_eq_true_eq, bne_iff_ne] at h'
      have hbb : b = b' := by
        rcases Nat.lt_trichotomy b b' with hlt | heq | hgt
        · have h1 := hr b
          rw [Memory.read_cons, if_pos rfl, Memory.read_cons, if_neg (by omega),
            Memory.read_below h'.2 (by omega)] at h1
          exact absurd h1 h.1.2
        · exact heq
        · have h1 := hr b'
          rw [Memory.read_cons, if_neg (by omega), Memory.read_below h.2 (by omega), Memory.read_cons,
            if_pos rfl] at h1
          exact absurd h1.symm h'.1.2
      subst hbb
      have hu : u = u' := by simpa [Memory.read_cons] using hr b
      subst hu
      congr 1
      refine ih h.2 h'.2 fun a => ?_
      by_cases ha : b = a
      · subst ha; rw [Memory.read_below h.2 (by omega), Memory.read_below h'.2 (by omega)]
      · simpa [Memory.read_cons, ha] using hr a

end Sys2Proof.Machine
end

