-- ==== Sys2Proof/Laws/Untranslated.lean ====
section
/-! SUPPORT. What the shared operations do while Flags.MMU = 0: each data access succeeds, reads what stands in memory and
stores what it is given (20_memory.md R80). -/

namespace Sys2Proof.Machine

/-! ### Sequencing -/

@[simp] theorem Res.bind_ok {α β : Type} (a : α) (s : State) (k : α → State → Res β) :
    (Res.ok a s).bind k = k a s := rfl

@[simp] theorem Res.bind_trap {α β : Type} (va : Word) (kind : AccessKind) (s : State) (k : α → State → Res β) :
    (Res.trap va kind s).bind k = .trap va kind s := rfl

@[simp] theorem Res.bind_refused {α β : Type} (r : Refusal) (k : α → State → Res β) :
    (Res.refused r : Res α).bind k = .refused r := rfl

theorem run_ok {len : Word} {body : State → Res Unit} {s s' : State} (h : body (s.startInstr len) = .ok () s') :
    run len body s = .next s'.endInstr := by simp [run, h]

/-! ### The flag that decides -/

@[simp] theorem State.flag_withFlags (s : State) (f : Half) (k : Flag) : (s.withFlags f).flag k = getFlag f k := rfl
@[simp] theorem State.flag_withNextPc (s : State) (t : Word) (k : Flag) : (s.withNextPc t).flag k = s.flag k := rfl
@[simp] theorem State.flag_afterDraw (s : State) (k : Flag) : s.afterDraw.flag k = s.flag k := rfl
@[simp] theorem State.flag_startInstr (s : State) (n : Word) (k : Flag) : (s.startInstr n).flag k = s.flag k := rfl
@[simp] theorem State.flag_endInstr (s : State) (k : Flag) : s.endInstr.flag k = s.flag k := rfl
@[simp] theorem State.flag_regWrite (s : State) (i : Reg) (v : Word) (k : Flag) :
    (s.regWrite i v).flag k = s.flag k := by cases i <;> rfl
@[simp] theorem State.flag_laneWrite (s : State) (i : Reg) (w : Width) (v : BitVec (widthBitCount w)) (k : Flag) :
    (s.laneWrite i w v).flag k = s.flag k := by cases i <;> rfl
@[simp] theorem State.flag_afterMemOp (s : State) (m : MemOp) (n : Size) (k : Flag) :
    (s.afterMemOp m n).flag k = s.flag k := by cases m <;> simp [State.afterMemOp]

/-- Only Flags decides. -/
theorem untranslated_of_flags {s t : State} (h : s.untranslated) (hf : t.flags = s.flags) : t.untranslated := by
  simpa [State.untranslated, State.flag, hf] using h

/-! ### Reading -/

theorem translate_untranslated {s : State} (h : s.untranslated) (kind : AccessKind) (va : Word) :
    translate kind va s = .ok (.ioBus, va) s := by simp [translate, h]

theorem loadByte_untranslated {s : State} (h : s.untranslated) (va : Word) :
    loadByte va s = .ok (s.ioByte va) s := by rw [loadByte, translate_untranslated h]; rfl

theorem append_step {n : Nat} (x : BitVec n) (y : Byte) :
    (x.setWidth 32 <<< 8) ||| y.setWidth 32 = (x ++ y).setWidth 32 := by
  ext i hi
  by_cases h : i < 8
  · simp [BitVec.getLsbD_append, h]
  · simp [BitVec.getLsbD_append, h, BitVec.getLsbD_of_ge y i (by omega)]

theorem littleValue_one (a : Byte) : littleValue [a] = a.setWidth 32 := by
  simp [littleValue]

theorem littleValue_two (a b : Byte) : littleValue [a, b] = (b ++ a).setWidth 32 := by
  rw [littleValue, littleValue_one, append_step]

theorem littleValue_four (a b c d : Byte) : littleValue [a, b, c, d] = d ++ c ++ b ++ a := by
  rw [littleValue, littleValue, littleValue_two, append_step, append_step, BitVec.setWidth_eq]

/-- An access stands at its address, whatever the alignment (20_memory.md R75). -/
@[simp] theorem accessAddr_eq (n : Size) (addr : Word) : accessAddr n addr = addr := rfl

/-- `MemRead` answers the little-endian value and changes nothing. -/
theorem memRead_untranslated {s : State} (h : s.untranslated) (n : Size) (addr : Word) :
    memRead n addr s = .ok (s.ioValue n addr) s := by
  have e2 : addr + 1 + 1 = addr + 2 := by bv_omega
  have e3 : addr + 2 + 1 = addr + 3 := by bv_omega
  cases n <;> simp only [memRead, accessAddr_eq, Size.bytes, loadBytes, loadByte_untranslated h, Res.bind_ok, bytesValue, params,
    State.ioValue, e2, e3, littleValue_one, littleValue_two, littleValue_four]

theorem State.mmuView_untranslated {s : State} (h : s.untranslated) : s.mmuView = none := by
  simp [State.mmuView, show s.flag .mmu = false from h]

/-! ### Writing -/

/-- The state after bytes have been stored from an address on. -/
def State.ioStore (s : State) (addr : Word) (bs : List Byte) : State :=
  match bs with
  | [] => s
  | b :: bs =>
    ((s.busWrite .io addr b).noteRomWrite (s.romSignals addr addr .ioBus b)).ioStore (addr + 1) bs

theorem State.request_rest (s : State) (i : IntSource) : s.request i = { s with pending := (s.request i).pending } := by
  by_cases h : s.pending.contains i <;> simp only [State.request, h] <;> rfl

theorem State.noteRomWrite_rest (s : State) (c : Bool) :
    s.noteRomWrite c = { s with pending := (s.noteRomWrite c).pending } := by
  unfold State.noteRomWrite
  split
  · exact State.request_rest s _
  · rfl

/-- What a store leaves alone: everything but the memory, the stale bytes and the pending set. -/
theorem State.ioStore_rest (s : State) (addr : Word) (bs : List Byte) :
    s.ioStore addr bs = { s with
      mem := (s.ioStore addr bs).mem
      stale := (s.ioStore addr bs).stale
      pending := (s.ioStore addr bs).pending } := by
  induction bs generalizing s addr with
  | nil => rfl
  | cons b bs ih =>
    rw [State.ioStore, ih, State.noteRomWrite_rest]
    rfl

@[simp] theorem State.ioStore_r1 (s : State) (a : Word) (bs : List Byte) : (s.ioStore a bs).r1 = s.r1 := by
  rw [State.ioStore_rest]
@[simp] theorem State.ioStore_r2 (s : State) (a : Word) (bs : List Byte) : (s.ioStore a bs).r2 = s.r2 := by
  rw [State.ioStore_rest]
@[simp] theorem State.ioStore_r3 (s : State) (a : Word) (bs : List Byte) : (s.ioStore a bs).r3 = s.r3 := by
  rw [State.ioStore_rest]
@[simp] theorem State.ioStore_r4 (s : State) (a : Word) (bs : List Byte) : (s.ioStore a bs).r4 = s.r4 := by
  rw [State.ioStore_rest]
@[simp] theorem State.ioStore_r5 (s : State) (a : Word) (bs : List Byte) : (s.ioStore a bs).r5 = s.r5 := by
  rw [State.ioStore_rest]
@[simp] theorem State.ioStore_r6 (s : State) (a : Word) (bs : List Byte) : (s.ioStore a bs).r6 = s.r6 := by
  rw [State.ioStore_rest]
@[simp] theorem State.ioStore_pc (s : State) (a : Word) (bs : List Byte) : (s.ioStore a bs).pc = s.pc := by
  rw [State.ioStore_rest]
@[simp] theorem State.ioStore_nextPc (s : State) (a : Word) (bs : List Byte) :
    (s.ioStore a bs).nextPc = s.nextPc := by rw [State.ioStore_rest]
@[simp] theorem State.ioStore_ri (s : State) (a : Word) (bs : List Byte) : (s.ioStore a bs).ri = s.ri := by
  rw [State.ioStore_rest]
@[simp] theorem State.ioStore_riValid (s : State) (a : Word) (bs : List Byte) :
    (s.ioStore a bs).riValid = s.riValid := by rw [State.ioStore_rest]
@[simp] theorem State.ioStore_riWritten (s : State) (a : Word) (bs : List Byte) :
    (s.ioStore a bs).riWritten = s.riWritten := by rw [State.ioStore_rest]
@[simp] theorem State.ioStore_riHold (s : State) (a : Word) (bs : List Byte) :
    (s.ioStore a bs).riHold = s.riHold := by rw [State.ioStore_rest]
@[simp] theorem State.ioStore_riHoldNext (s : State) (a : Word) (bs : List Byte) :
    (s.ioStore a bs).riHoldNext = s.riHoldNext := by rw [State.ioStore_rest]
@[simp] theorem State.ioStore_flags (s : State) (a : Word) (bs : List Byte) : (s.ioStore a bs).flags = s.flags := by
  rw [State.ioStore_rest]
@[simp] theorem State.ioStore_m0 (s : State) (a : Word) (bs : List Byte) : (s.ioStore a bs).m0 = s.m0 := by
  rw [State.ioStore_rest]
@[simp] theorem State.ioStore_m1 (s : State) (a : Word) (bs : List Byte) : (s.ioStore a bs).m1 = s.m1 := by
  rw [State.ioStore_rest]
@[simp] theorem State.ioStore_sdram (s : State) (a : Word) (bs : List Byte) : (s.ioStore a bs).sdram = s.sdram := by
  rw [State.ioStore_rest]
@[simp] theorem State.ioStore_tlb (s : State) (a : Word) (bs : List Byte) : (s.ioStore a bs).tlb = s.tlb := by
  rw [State.ioStore_rest]
@[simp] theorem State.ioStore_draws (s : State) (a : Word) (bs : List Byte) : (s.ioStore a bs).draws = s.draws := by
  rw [State.ioStore_rest]
@[simp] theorem State.flag_ioStore (s : State) (a : Word) (bs : List Byte) (k : Flag) :
    (s.ioStore a bs).flag k = s.flag k := by simp [State.flag]

theorem State.ioByte_busWrite (s : State) (addr a : Word) (b : Byte) :
    (s.busWrite .io addr b).ioByte a = if a = addr then b else s.ioByte a := by
  simp [State.ioByte, State.busByte, State.busMem, State.busWrite, Memory.read_write, BitVec.toNat_inj]

@[simp] theorem State.noteRomWrite_mem (s : State) (c : Bool) :
    (s.noteRomWrite c).mem = s.mem := by
  rw [State.noteRomWrite_rest]

@[simp] theorem State.noteRomWrite_sdram (s : State) (c : Bool) :
    (s.noteRomWrite c).sdram = s.sdram := by
  rw [State.noteRomWrite_rest]

@[simp] theorem State.noteRomWrite_stale (s : State) (c : Bool) :
    (s.noteRomWrite c).stale = s.stale := by
  rw [State.noteRomWrite_rest]

@[simp] theorem State.noteRomWrite_flags (s : State) (c : Bool) :
    (s.noteRomWrite c).flags = s.flags := by
  rw [State.noteRomWrite_rest]

theorem State.ioByte_noteRomWrite (s : State) (c : Bool) (a : Word) :
    (s.noteRomWrite c).ioByte a = s.ioByte a := by
  simp [State.ioByte, State.busByte, State.busMem]

/-- The bytes of memory after a store. -/
theorem State.ioByte_ioStore (s : State) (addr a : Word) (bs : List Byte) (h : bs.length < 2 ^ 32) :
    (s.ioStore addr bs).ioByte a = (bs[(a - addr).toNat]?).getD (s.ioByte a) := by
  induction bs generalizing s addr with
  | nil => simp [State.ioStore]
  | cons b bs ih =>
    simp only [List.length_cons] at h
    rw [State.ioStore, ih _ _ (by omega), State.ioByte_noteRomWrite, State.ioByte_busWrite]
    by_cases ha : a = addr
    · subst ha
      have : (a - (a + 1)).toNat = 2 ^ 32 - 1 := by bv_omega
      rw [this, List.getElem?_eq_none (by omega)]
      simp
    · have : (a - addr).toNat = (a - (addr + 1)).toNat + 1 := by bv_omega
      rw [this, List.getElem?_cons_succ]
      simp [ha]

theorem mem_staleAfterStore (l : List StaleByte) (e x : StaleByte) :
    x ∈ staleAfterStore l e ↔ x ∈ l ∨ x = e := by
  simp only [staleAfterStore, params, Bool.false_or]
  split
  · next h =>
    rw [List.contains_iff_mem] at h
    constructor
    · exact .inl
    · rintro (h' | rfl) <;> assumption
  · simp [or_comm]

/-- The older bytes a fetch may see after a store: those before, and the byte each stored byte replaced. -/
theorem State.mem_stale_ioStore (s : State) (addr : Word) (bs : List Byte) (h : bs.length < 2 ^ 32) (e : StaleByte) :
    e ∈ (s.ioStore addr bs).stale ↔
      e ∈ s.stale ∨ (e.bus = .io ∧ (e.addr - addr).toNat < bs.length ∧ e.old = s.ioByte e.addr) := by
  induction bs generalizing s addr with
  | nil => simp [State.ioStore]
  | cons b bs ih =>
    simp only [List.length_cons] at h
    rw [State.ioStore, ih _ _ (by omega), State.ioByte_noteRomWrite, State.ioByte_busWrite, State.noteRomWrite_stale]
    simp only [State.busWrite, mem_staleAfterStore]
    obtain ⟨bus, a, old⟩ := e
    simp only [StaleByte.mk.injEq, List.length_cons]
    by_cases ha : a = addr
    · subst ha
      have : (a - (a + 1)).toNat = 2 ^ 32 - 1 := by bv_omega
      simp [State.ioByte]
      omega
    · have : (a - addr).toNat = (a - (addr + 1)).toNat + 1 := by bv_omega
      simp [this, ha]

theorem State.pending_request (s : State) (i : IntSource) :
    (s.request i).pending = if i ∈ s.pending then s.pending else s.pending ++ [i] := by
  by_cases h : i ∈ s.pending
  · rw [State.request, if_pos (List.contains_iff_mem.mpr h), if_pos h]
  · rw [State.request, if_neg (mt List.contains_iff_mem.mp h), if_neg h]

theorem State.pending_noteRomWrite (s : State) (c : Bool) :
    (s.noteRomWrite c).pending = if c = true ∧ IntSource.mmu ∉ s.pending then s.pending ++ [.mmu] else s.pending := by
  unfold State.noteRomWrite
  by_cases hc : c = true <;> by_cases hm : IntSource.mmu ∈ s.pending <;> simp [hc, hm, State.pending_request]

/-- The pending set after a store: the MMU interrupt is added if a byte of it changes the ROM control signals, asked of the
state that the bytes before it leave. -/
theorem State.pending_ioStore (s : State) (addr : Word) (bs : List Byte) (h : bs.length < 2 ^ 32) :
    (s.ioStore addr bs).pending =
      if (List.range bs.length).any (fun k => (s.ioStore addr (bs.take k)).romSignals (addr + BitVec.ofNat 32 k)
          (addr + BitVec.ofNat 32 k) .ioBus (bs.getD k 0)) = true ∧ IntSource.mmu ∉ s.pending then s.pending ++ [.mmu]
      else s.pending := by
  induction bs generalizing s addr with
  | nil => simp [State.ioStore]
  | cons b bs ih =>
    simp only [List.length_cons] at h
    rw [State.ioStore, ih _ _ (by omega), State.pending_noteRomWrite, List.length_cons, List.range_succ_eq_map,
      List.any_cons, List.any_map]
    have e : ∀ k, addr + 1 + BitVec.ofNat 32 k = addr + BitVec.ofNat 32 (k + 1) := fun k => by bv_omega
    simp only [Function.comp_def, Nat.succ_eq_add_one, List.take_succ_cons, List.take_zero, State.ioStore,
      List.getD_cons_succ, List.getD_cons_zero, BitVec.add_zero, e]
    rw [show (s.busWrite .io addr b).pending = s.pending from rfl]
    by_cases h0 : s.romSignals addr addr .ioBus b = true <;> by_cases hm : IntSource.mmu ∈ s.pending <;> simp [h0, hm]

theorem length_littleBytes (n : Nat) (v : Word) : (littleBytes n v).length = n := by
  induction n generalizing v with
  | zero => rfl
  | succ n ih => simp [littleBytes, ih]

theorem getElem?_littleBytes (n k : Nat) (v : Word) (h : k < n) :
    (littleBytes n v)[k]? = some (v.extractLsb' (8 * k) 8) := by
  induction n generalizing v k with
  | zero => omega
  | succ n ih =>
    cases k with
    | zero =>
      simp only [littleBytes, List.getElem?_cons_zero, Option.some.injEq]
      ext i hi; simp
    | succ k =>
      simp only [littleBytes, List.getElem?_cons_succ]
      rw [ih _ _ (by omega)]
      congr 1
      ext i hi
      simp only [BitVec.getElem_extractLsb', BitVec.getLsbD_ushiftRight]
      congr 1; omega

theorem storeBytes_untranslated {s : State} (h : s.untranslated) (addr : Word) (bs : List Byte) :
    storeBytes addr bs s = .ok () (s.ioStore addr bs) := by
  induction bs generalizing s addr with
  | nil => rfl
  | cons b bs ih =>
    rw [storeBytes, storeByte, translate_untranslated h]
    simp only [Res.bind_ok]
    rw [ih (untranslated_of_flags h (by rw [State.noteRomWrite_flags]; rfl))]
    rfl

/-- `MemWrite` stores the low bytes of the value. -/
theorem memWrite_untranslated {s : State} (h : s.untranslated) (n : Size) (addr v : Word) :
    memWrite n addr v s = .ok () (s.ioStore addr (littleBytes (Size.bytes n) v)) := by
  rw [memWrite, accessAddr_eq, storeBytes_untranslated h]; rfl

/-- What a store does, in the words of claims. -/
theorem stored_ioStore {s : State} (h : s.untranslated) (n : Size) (addr v : Word) :
    Stored s (s.ioStore addr (littleBytes (Size.bytes n) v)) addr (Size.bytes n) v := by
  have hn : Size.bytes n ≤ 4 := by cases n <;> simp [Size.bytes]
  have hl := length_littleBytes (Size.bytes n) v
  refine ⟨fun k hk => ?_, fun a ha => ?_, fun a => ?_, fun e => ?_, ?_, ?_, ⟨by simp, by simp⟩⟩
  · rw [State.ioByte_ioStore _ _ _ _ (by omega)]
    have : (addr + BitVec.ofNat 32 k - addr).toNat = k := by bv_omega
    rw [this, getElem?_littleBytes _ _ _ hk]; rfl
  · rw [State.ioByte_ioStore _ _ _ _ (by omega), List.getElem?_eq_none (by omega)]; rfl
  · simp [State.busByte, State.busMem]
  · rw [State.mem_stale_ioStore _ _ _ (by omega), hl]
  · simp
  · rw [State.pending_ioStore _ _ _ (by omega), hl]
    have e : (List.range (Size.bytes n)).any (fun k => (s.ioStore addr ((littleBytes (Size.bytes n) v).take k)).romSignals
          (addr + BitVec.ofNat 32 k) (addr + BitVec.ofNat 32 k) .ioBus ((littleBytes (Size.bytes n) v).getD k 0)) =
        (List.range (Size.bytes n)).any (s.romChange addr v) := by
      refine Bool.eq_iff_iff.mpr ?_
      simp only [List.any_eq_true, List.mem_range]
      refine exists_congr fun k => and_congr_right fun hk => ?_
      have hio : (s.ioStore addr ((littleBytes (Size.bytes n) v).take k)).busByte .io = s.ioByteAfter addr k v := by
        funext a
        refine (State.ioByte_ioStore _ _ _ _ (by rw [List.length_take]; omega)).trans ?_
        unfold State.ioByteAfter
        split
        · next h => rw [List.getElem?_take_of_lt h, getElem?_littleBytes _ _ _ (by omega)]; rfl
        · next h => rw [List.getElem?_eq_none (by rw [List.length_take]; omega)]; rfl
      have hs : (s.ioStore addr ((littleBytes (Size.bytes n) v).take k)).busByte .sdram = s.busByte .sdram := by
        funext a; simp [State.busByte, State.busMem]
      unfold State.romSignals State.romChange
      rw [hio, hs, List.getD_eq_getElem?_getD, getElem?_littleBytes _ _ _ hk, Bool.or_self,
        State.mmuView_untranslated (untranslated_of_flags h (State.ioStore_flags ..))]
      rfl
    rw [e]
    rfl

/-! ### The stack -/

theorem push_untranslated {s : State} (h : s.untranslated) (n : Size) (v : Word) :
    push n v s = .ok () ((s.ioStore s.r6 (littleBytes (Size.bytes n) v)).regWrite .r6
      (s.r6 - BitVec.ofNat 32 (Size.bytes n))) := by
  rw [push, memWrite_untranslated h]
  simp [stackAddr, params, State.regRead]

theorem pop_untranslated {s : State} (h : s.untranslated) (n : Size) :
    pop n s = .ok (s.ioValue n (s.r6 + BitVec.ofNat 32 (Size.bytes n)))
      (s.regWrite .r6 (s.r6 + BitVec.ofNat 32 (Size.bytes n))) := by
  rw [pop, memRead_untranslated (untranslated_of_flags h (by simp))]
  cases n <;> rfl

end Sys2Proof.Machine
end

