-- ==== Sys2Proof/Laws/Forms.lean ====
section
/-! SUPPORT. What every operand form answers while Flags.MMU = 0, and how the end of an instruction reads in the words of
claims. -/

namespace Sys2Proof.Machine

/-! ### The start of an instruction changes no operand -/

@[simp] theorem State.regRead_startInstr (s : State) (n : Word) (i : Reg) : (s.startInstr n).regRead i = s.regRead i := by
  cases i <;> rfl
@[simp] theorem State.regRead_withFlags (s : State) (f : Half) (i : Reg) : (s.withFlags f).regRead i = s.regRead i := by
  cases i <;> rfl
@[simp] theorem State.regRead_ioStore (s : State) (a : Word) (bs : List Byte) (i : Reg) :
    (s.ioStore a bs).regRead i = s.regRead i := by
  rw [State.ioStore_rest]; cases i <;> rfl
@[simp] theorem State.regRead_afterFlagsRead (s : State) (i : Reg) : s.afterFlagsRead.regRead i = s.regRead i := by
  rw [State.afterFlagsRead_rest]; cases i <;> rfl
@[simp] theorem State.laneRead_startInstr (s : State) (n : Word) (i : Reg) (w : Width) :
    (s.startInstr n).laneRead i w = s.laneRead i w := by simp [State.laneRead]
@[simp] theorem State.ioValue_startInstr (s : State) (n : Word) (k : Size) (a : Word) :
    (s.startInstr n).ioValue k a = s.ioValue k a := by cases k <;> rfl
@[simp] theorem State.immediate_startInstr (s : State) (n : Word) (w : Width) (o : Half) :
    (s.startInstr n).immediate w o = s.immediate w o := by cases w <;> rfl
@[simp] theorem State.aluValue_startInstr (s : State) (n : Word) (src : AluSrc) (w : Width) :
    (s.startInstr n).aluValue src w = s.aluValue src w := by cases src <;> simp [State.aluValue]
@[simp] theorem State.unValue_startInstr (s : State) (n : Word) (op : UnOp) (w : Width) :
    (s.startInstr n).unValue op w = s.unValue op w := by cases op <;> simp [State.unValue]
@[simp] theorem State.movOperand_startInstr (s : State) (n : Word) (src : MovSrc) (w : Width) :
    (s.startInstr n).movOperand src w = s.movOperand src w := by cases src <;> simp [State.movOperand]
@[simp] theorem State.memOpAddr_startInstr (s : State) (l : Word) (m : MemOp) (n : Size) :
    (s.startInstr l).memOpAddr m n = s.memOpAddr m n := by cases m <;> simp [State.memOpAddr]
@[simp] theorem State.mmuReg_startInstr (s : State) (l : Word) (n : MmuReg) : (s.startInstr l).mmuReg n = s.mmuReg n := by
  cases n <;> rfl
@[simp] theorem State.jsrValue_startInstr (s : State) (l : Word) (src : AluSrc) (w : TransferWidth) :
    (s.startInstr l).jsrValue src w = s.jsrValue src w := by
  cases src <;> cases w <;> simp [State.jsrValue]
@[simp] theorem State.flagsImage_startInstr (s : State) (l : Word) : (s.startInstr l).flagsImage = s.flagsImage := rfl

theorem State.laneWrite_eq (s : State) (i : Reg) (w : Width) (v : BitVec (widthBitCount w)) :
    s.laneWrite i w v = s.regWrite i (laneMerge w (s.regRead i) v) := rfl

theorem State.unResult_eq (s : State) (op : UnOp) (w : Width) (v : BitVec (widthBitCount w)) :
    s.unResult op w v = s.regWrite (unOpTarget op) (laneMerge w (s.regRead (unOpTarget op)) v) := rfl

/-! ### Operands while Flags.MMU = 0 -/

theorem offsetWord_eq (o : Half) : offsetWord o = o.setWidth 32 := rfl

theorem aluOperand_untranslated {s : State} (h : s.untranslated) (src : AluSrc) (w : Width) :
    aluOperand src w s = .ok (s.aluValue src w) s := by
  cases src <;> simp [aluOperand, memRead_untranslated h, State.aluValue, offsetWord_eq]

theorem unOperand_untranslated {s : State} (h : s.untranslated) (op : UnOp) (w : Width) :
    unOperand op w s = .ok (s.unValue op w) s := by
  cases op <;> simp [unOperand, memRead_untranslated h, State.unValue, offsetWord_eq]

theorem effAddr_ok {m : MemOp} (h : autoBaseOk m) (n : Size) (s : State) :
    effAddr m n s = .ok (s.memOpAddr m n) (s.afterMemOp m n) := by
  cases hm : isAuto m with
  | false => simp [effAddr, hm]
  | true => simp [effAddr, hm, h hm]

theorem effAddr_refused {m : MemOp} (h : isAuto m = true) (h0 : memOpBase m = .r0) (n : Size) (s : State) :
    effAddr m n s = .refused .autoModeBaseR0 := by simp [effAddr, h, h0]

theorem memOpAddr_sp_push (s : State) (n : Size) : s.memOpAddr (.autoDec .r6) n = s.r6 := rfl

theorem memOpAddr_sp_pop (s : State) (n : Size) :
    s.memOpAddr (.autoInc .r6) n = s.r6 + BitVec.ofNat 32 (Size.bytes n) := rfl

@[simp] theorem State.ioByte_startInstr (s : State) (n a : Word) : (s.startInstr n).ioByte a = s.ioByte a := rfl

@[simp] theorem State.ioByte_regWrite (s : State) (i : Reg) (v a : Word) : (s.regWrite i v).ioByte a = s.ioByte a := by
  cases i <;> rfl

@[simp] theorem State.ioValue_regWrite (s : State) (i : Reg) (v a : Word) (n : Size) :
    (s.regWrite i v).ioValue n a = s.ioValue n a := by cases n <;> simp [State.ioValue]

@[simp] theorem State.ioByte_withFlags (s : State) (f : Half) (a : Word) : (s.withFlags f).ioByte a = s.ioByte a := rfl

@[simp] theorem State.ioValue_withFlags (s : State) (f : Half) (a : Word) (n : Size) :
    (s.withFlags f).ioValue n a = s.ioValue n a := by cases n <;> rfl

@[simp] theorem State.ioValue_afterMemOp (s : State) (m : MemOp) (k n : Size) (a : Word) :
    (s.afterMemOp m k).ioValue n a = s.ioValue n a := by cases m <;> simp [State.afterMemOp]

/-! ### Reading the next state -/

theorem bytesKept_of_eq {s t : State} (hm : t.mem = s.mem) (hs : t.sdram = s.sdram) : BytesKept s t := by
  intro bus a
  cases bus <;> simp only [State.busByte, State.busMem, hm, hs]

theorem memoryKept_of_eq {s t : State} (hm : t.mem = s.mem) (hs : t.sdram = s.sdram) (hl : t.stale = s.stale)
    (ht : t.tlb = s.tlb) (hp : t.pending = s.pending) : MemoryKept s t :=
  ⟨bytesKept_of_eq hm hs, hl, ht, hp⟩

/-- The registers after an instruction that wrote `w` inside: the fields it leaves, seen from outside. -/
theorem regsAfter_endInstr {s t : State} {w : RegWrites} {next : Word}
    (h1 : t.r1 = (w .r1).getD s.r1) (h2 : t.r2 = (w .r2).getD s.r2) (h3 : t.r3 = (w .r3).getD s.r3)
    (h4 : t.r4 = (w .r4).getD s.r4) (h5 : t.r5 = (w .r5).getD s.r5) (h6 : t.r6 = (w .r6).getD s.r6)
    (h7 : t.nextPc = (w .r7).getD next) (hw : t.riWritten = (w .r0).isSome) (hh : t.riHoldNext = (w .r0).isSome)
    (h0 : ∀ v, w .r0 = some v → t.ri = v) : RegsAfter s t.endInstr w next := by
  refine ⟨?_, ?_, by simpa using hw, by simpa using hh, by simpa using h7⟩
  · intro r hr0 hr7
    cases r <;> simp_all [State.reg]
  · cases hw0 : w .r0 with
    | none => simp [State.reg, hw, hw0]
    | some v => simp [State.reg, hw, hw0, h0 v hw0]

theorem regsAfter_none (s : State) (len : Word) (f : Half) :
    RegsAfter s ((s.startInstr len).withFlags f).endInstr noRegs (s.pc + len) := by
  apply regsAfter_endInstr <;> simp [noRegs]

/-- One register written through `regWrite`. -/
theorem regsAfter_regWrite (s : State) (len : Word) (rd : Reg) (v : Word) (f : Half) :
    RegsAfter s (((s.startInstr len).regWrite rd v).withFlags f).endInstr (onlyReg rd v) (s.pc + len) := by
  apply regsAfter_endInstr <;> cases rd <;> simp [onlyReg]

theorem memoryKept_regWrite (s : State) (len : Word) (rd : Reg) (v : Word) (f : Half) :
    MemoryKept s (((s.startInstr len).regWrite rd v).withFlags f).endInstr := by
  refine ⟨fun bus a => ?_, ?_, ?_, ?_⟩ <;> cases rd <;> rfl

theorem mmuRegsKept_regWrite (s : State) (len : Word) (rd : Reg) (v : Word) (f : Half) :
    MmuRegsKept s (((s.startInstr len).regWrite rd v).withFlags f).endInstr := by
  refine ⟨?_, ?_⟩ <;> cases rd <;> rfl

/-- An instruction that ends with one register and Flags written runs as claims say. -/
theorem runsTo_regWrite {i : Instr} {s : State} {len : Word} {rd : Reg} {v : Word} {f : Half} {w : FlagWrites}
    (h : exec i s = .next (((s.startInstr len).regWrite rd v).withFlags f).endInstr)
    (hf : FlagsAfter s.flags f w) : RunsTo i s (onlyReg rd v) (s.pc + len) w :=
  ⟨_, h, regsAfter_regWrite s len rd v f, hf, memoryKept_regWrite s len rd v f, mmuRegsKept_regWrite s len rd v f⟩

/-- The same for an instruction that writes no register. -/
theorem runsTo_none {i : Instr} {s : State} {len : Word} {f : Half} {w : FlagWrites}
    (h : exec i s = .next ((s.startInstr len).withFlags f).endInstr) (hf : FlagsAfter s.flags f w) :
    RunsTo i s noRegs (s.pc + len) w :=
  ⟨_, h, regsAfter_none s len f, hf, ⟨fun bus _ => by cases bus <;> rfl, rfl, rfl, rfl⟩, ⟨rfl, rfl⟩⟩

/-! ### Updated base registers -/

theorem State.regRead_regWrite_ne (s : State) {i q : Reg} (v : Word) (h : i ≠ q) :
    (s.regWrite i v).regRead q = s.regRead q := by
  cases i <;> cases q <;> first | rfl | exact absurd rfl h

/-- The base update of an auto mode leaves every other register as it reads. -/
theorem State.regRead_afterMemOp (s : State) (m : MemOp) (n : Size) (q : Reg)
    (h : isAuto m = true → memOpBase m ≠ q) : (s.afterMemOp m n).regRead q = s.regRead q := by
  cases m with
  | indirect b => rfl
  | indexed b o => rfl
  | autoInc b => exact State.regRead_regWrite_ne _ _ (h rfl)
  | autoDec b => exact State.regRead_regWrite_ne _ _ (h rfl)

/-- Two registers written, the first the base of an auto mode. -/
theorem regsAfter_two (s : State) (len : Word) {b rd : Reg} (v u : Word) (f : Half) (hb : b ≠ .r0) :
    RegsAfter s ((((s.startInstr len).regWrite b v).regWrite rd u).withFlags f).endInstr
      (fun q => if q = rd then some u else onlyReg b v q) (s.pc + len) := by
  have e : ∀ (q : Reg) (x y : Word), x = y →
      (if rd = q then u else if b = q then v else x) =
        (if q = rd then some u else if q = b then some v else none).getD y := by
    rintro q x y rfl
    by_cases h1 : rd = q
    · simp [h1]
    · by_cases h2 : b = q
      · simp [h1, h2, Ne.symm h1]
      · simp [h1, h2, Ne.symm h1, Ne.symm h2]
  have e0 : ((if Reg.r0 = rd then some u else if Reg.r0 = b then some v else none).isSome) = decide (rd = .r0) := by
    cases rd <;> simp [Ne.symm hb]
  apply regsAfter_endInstr <;> simp only [State.withFlags_r1, State.withFlags_r2, State.withFlags_r3, State.withFlags_r4,
    State.withFlags_r5, State.withFlags_r6, State.withFlags_nextPc, State.withFlags_riWritten,
    State.withFlags_riHoldNext, State.withFlags_ri, State.regWrite_r1, State.regWrite_r2, State.regWrite_r3,
    State.regWrite_r4, State.regWrite_r5, State.regWrite_r6, State.regWrite_nextPc, State.regWrite_riWritten,
    State.regWrite_riHoldNext, State.regWrite_ri, onlyReg]
  case hw => rw [e0]; simp [hb]
  case hh => rw [e0]; simp [hb]
  case h0 =>
    intro x
    by_cases h1 : rd = .r0
    · simp [h1]
    · simp [h1, Ne.symm h1, Ne.symm hb]
  all_goals exact e _ _ _ rfl

/-- The registers after an instruction that updates at most the base of its memory operand. -/
theorem regsAfter_base {s t : State} {m : MemOp} {n : Size} (hb : autoBaseOk m)
    (ht : t = { (s.startInstr (memOpLen m)).afterMemOp m n with
      mem := t.mem, sdram := t.sdram, stale := t.stale, tlb := t.tlb, pending := t.pending, flags := t.flags,
      m0 := t.m0, m1 := t.m1, draws := t.draws }) :
    RegsAfter s t.endInstr (s.baseWrite m n) (s.pc + memOpLen m) := by
  rw [ht]
  clear ht
  cases m with
  | indirect b => apply regsAfter_endInstr <;> first | rfl | simp [State.baseWrite, noRegs]
  | indexed b => apply regsAfter_endInstr <;> first | rfl | simp [State.baseWrite, noRegs]
  | autoInc b =>
    have h0 : b ≠ .r0 := hb rfl
    apply regsAfter_endInstr
    case h0 => intro x; cases b <;> first | (exact absurd rfl h0) | simp [State.baseWrite, onlyReg]
    all_goals cases b <;> first | (exact absurd rfl h0) | rfl
  | autoDec b =>
    have h0 : b ≠ .r0 := hb rfl
    apply regsAfter_endInstr
    case h0 => intro x; cases b <;> first | (exact absurd rfl h0) | simp [State.baseWrite, onlyReg]
    all_goals cases b <;> first | (exact absurd rfl h0) | rfl

/-- `Stored` reads the memories, the stale bytes, the TLB, the pending set and the MMU registers only. -/
theorem stored_congr {s s' t t' : State} {a : Word} {n : Nat} {v : Word} (h : Stored s t a n v)
    (hs : s'.mem = s.mem ∧ s'.sdram = s.sdram ∧ s'.stale = s.stale ∧ s'.tlb = s.tlb ∧ s'.pending = s.pending ∧
      s'.m0 = s.m0 ∧ s'.m1 = s.m1)
    (ht : t'.mem = t.mem ∧ t'.sdram = t.sdram ∧ t'.stale = t.stale ∧ t'.tlb = t.tlb ∧ t'.pending = t.pending ∧
      t'.m0 = t.m0 ∧ t'.m1 = t.m1) :
    Stored s' t' a n v := by
  obtain ⟨e1, e2, e3, e4, e5, e6, e7⟩ := hs
  obtain ⟨f1, f2, f3, f4, f5, f6, f7⟩ := ht
  have es : ∀ a, s'.ioByte a = s.ioByte a := fun a => by simp [State.ioByte, State.busByte, State.busMem, e1]
  have et : ∀ a, t'.ioByte a = t.ioByte a := fun a => by simp [State.ioByte, State.busByte, State.busMem, f1]
  refine ⟨fun k hk => ?_, fun a ha => ?_, fun a => ?_, fun e => ?_, ?_, ?_, ?_⟩
  · rw [et]; exact h.inside k hk
  · rw [et, es]; exact h.outside a ha
  · have := h.sdram a
    simp only [State.busByte, State.busMem] at this ⊢
    rw [f2, e2, this]
  · rw [f3, e3, es]; exact h.stale e
  · rw [f4, e4, h.tlb]
  · have eb : s'.busByte .sdram = s.busByte .sdram := by funext a; simp only [State.busByte, State.busMem, e2]
    have ei : ∀ k, s'.ioByteAfter a k v = s.ioByteAfter a k v := fun k => by
      funext b; simp only [State.ioByteAfter, es]
    have er : s'.romChange a v = s.romChange a v := by funext k; simp only [State.romChange, ei, eb]
    simp only [f5, h.pending, State.pendingAfterStore, er, e5]
  · exact ⟨by rw [f6, e6, h.mmuRegs.m0], by rw [f7, e7, h.mmuRegs.m1]⟩

/-! ### Reading back what was stored -/

theorem append_extract (v : Word) {k n m p : Nat} (h : k = n + m) :
    v.extractLsb' k p ++ v.extractLsb' n m = v.extractLsb' n (p + m) := by
  apply BitVec.eq_of_getLsbD_eq
  intro i hi
  rw [BitVec.getLsbD_append, BitVec.getLsbD_extractLsb', BitVec.getLsbD_extractLsb', BitVec.getLsbD_extractLsb']
  by_cases hm : i < m
  · simp [hm, hi]
  · simp only [hm, hi, decide_true, Bool.true_and]
    simp [show i - m < p by omega, h, show n + m + (i - m) = n + i by omega]

/-- The value a read of the same size gives after a store: the low bytes stored. -/
theorem ioValue_of_stored {s t : State} {a : Word} {n : Size} {v : Word} (h : Stored s t a (Size.bytes n) v) :
    t.ioValue n a = (v.extractLsb' 0 (8 * Size.bytes n)).setWidth 32 := by
  have i := h.inside
  cases n with
  | one =>
    have h0 := i 0 (by decide)
    rw [BitVec.add_zero] at h0
    rw [State.ioValue, h0]; rfl
  | two =>
    have h0 := i 0 (by decide)
    have h1 := i 1 (by decide)
    rw [BitVec.add_zero] at h0
    rw [State.ioValue, h0, show t.ioByte (a + 1) = _ from h1]
    exact congrArg (BitVec.setWidth 32) (append_extract v rfl)
  | four =>
    have h0 := i 0 (by decide)
    have h1 := i 1 (by decide)
    have h2 := i 2 (by decide)
    have h3 := i 3 (by decide)
    rw [BitVec.add_zero] at h0
    rw [State.ioValue, h0, show t.ioByte (a + 1) = _ from h1, show t.ioByte (a + 2) = _ from h2,
      show t.ioByte (a + 3) = _ from h3]
    change v.extractLsb' 24 8 ++ v.extractLsb' 16 8 ++ v.extractLsb' 8 8 ++ v.extractLsb' 0 8 =
      (v.extractLsb' 0 32).setWidth 32
    rw [append_extract v (k := 24) rfl, append_extract v (k := 16) rfl, append_extract v (k := 8) rfl,
      BitVec.setWidth_eq]

end Sys2Proof.Machine
end

