-- ==== Sys2Proof/Laws/Access.lean ====
section
/-! SUPPORT. What each operation on memory can do, whatever the MMU answers: one lemma per operation, which says the byte
accesses it makes, or the one that traps. None of them refuses. -/

namespace Sys2Proof.Machine

/-! ### What stays -/

theorem OnlyAccessed.refl (s : State) : OnlyAccessed s s := rfl

theorem OnlyAccessed.trans {s t u : State} (h : OnlyAccessed s t) (k : OnlyAccessed t u) : OnlyAccessed s u := by
  unfold OnlyAccessed at *
  rw [k, h]

theorem OnlyAccessed.flags {s t : State} (h : OnlyAccessed s t) : t.flags = s.flags := by rw [h]

theorem OnlyAccessed.r6 {s t : State} (h : OnlyAccessed s t) : t.r6 = s.r6 := by rw [h]

theorem SameMemory.refl (s : State) : SameMemory s s := ⟨rfl, rfl, rfl, rfl, rfl, rfl, rfl, rfl, rfl, rfl⟩

theorem SameMemory.symm {s t : State} (h : SameMemory s t) : SameMemory t s :=
  ⟨h.mem.symm, h.sdram.symm, h.stale.symm, h.tlb.symm, h.pending.symm, h.draws.symm, h.m0.symm, h.m1.symm, h.mmu.symm,
    h.ica.symm⟩

theorem SameMemory.trans {s t u : State} (h : SameMemory s t) (k : SameMemory t u) : SameMemory s u :=
  ⟨k.mem.trans h.mem, k.sdram.trans h.sdram, k.stale.trans h.stale, k.tlb.trans h.tlb, k.pending.trans h.pending,
    k.draws.trans h.draws, k.m0.trans h.m0, k.m1.trans h.m1, k.mmu.trans h.mmu, k.ica.trans h.ica⟩

theorem SameMemory.busByte {s t : State} (h : SameMemory s t) (bus : Bus) (a : Word) : t.busByte bus a = s.busByte bus a :=
  bytesKept_of_eq h.mem h.sdram bus a

theorem SameMemory.blockSetting {s t : State} (h : SameMemory s t) (block : BitVec 22) :
    t.blockSetting block = s.blockSetting block := by
  simp only [State.blockSetting, State.tableSetting, State.drawn, h.tlb, h.draws, h.m0, h.m1, h.mem, h.sdram]

theorem SameMemory.mmuView {s t : State} (h : SameMemory s t) : t.mmuView = s.mmuView := by
  simp only [State.mmuView, h.mmu, h.m0, h.m1, h.tlb]

theorem SameMemory.answer {s t : State} (h : SameMemory s t) (kind : AccessKind) (va : Word) :
    t.answer kind va = s.answer kind va := by
  simp only [State.answer, State.blockMapping, h.mmu, h.blockSetting]

/-- An access made reads the parts `SameMemory` compares only. -/
theorem AccessMade.congr {s s' t t' : State} {x : ByteAccess} (h : AccessMade s t x) (hs : SameMemory s' s)
    (ht : SameMemory t t') : AccessMade s' t' x := by
  obtain ⟨block, r, ha, h⟩ := h
  refine ⟨block, r, hs.answer _ _ ▸ ha, ?_⟩
  constructor
  · rw [← hs.busByte, ← hs.ica, ← hs.stale]; exact h.answered
  · exact fun bus a => by rw [ht.busByte, h.bytes, hs.busByte]
  · exact fun e => by rw [ht.stale, h.stale, hs.stale, hs.busByte]
  · exact fun e => by rw [ht.tlb, h.tlb, hs.tlb, hs.mmu, hs.blockSetting]
  · have hb : ∀ bus, s'.busByte bus = s.busByte bus := fun bus => funext fun a => (hs.busByte bus a).symm
    rw [ht.pending, h.pending, ← hs.pending, hb, hb, ← hs.mmuView]
  · rw [ht.draws, ← hs.draws, ← hs.mmu]; exact h.draws
  · rw [ht.m0, h.m0, hs.m0]
  · rw [ht.m1, h.m1, hs.m1]
  · rw [ht.mmu, h.mmu, hs.mmu]
  · rw [ht.ica, h.ica, hs.ica]

theorem AccessesMade.congr {s s' t t' : State} {l : List ByteAccess} (h : AccessesMade s t l) (hs : SameMemory s' s)
    (ht : SameMemory t t') : AccessesMade s' t' l := by
  induction l generalizing s s' with
  | nil => exact hs.trans (SameMemory.trans h ht)
  | cons x l ih =>
    obtain ⟨u, h1, h2⟩ := h
    exact ⟨u, h1.congr hs (.refl u), ih h2 (.refl u)⟩

theorem AccessesMade.append {s t u : State} {l m : List ByteAccess} (h : AccessesMade s t l) (k : AccessesMade t u m) :
    AccessesMade s u (l ++ m) := by
  induction l generalizing s with
  | nil => exact k.congr h (.refl u)
  | cons x l ih =>
    obtain ⟨v, h1, h2⟩ := h
    exact ⟨v, h1, ih h2⟩

theorem TrapsAt.head {s : State} {x : ByteAccess} (l : List ByteAccess) (h : s.answer x.kind x.va = .trap) :
    TrapsAt s s (x :: l) x.kind x.va := ⟨[], x, l, rfl, rfl, rfl, .refl s, h⟩

theorem TrapsAt.after {s t u : State} {l m : List ByteAccess} {kind : AccessKind} {va : Word} (h : AccessesMade s t l)
    (k : TrapsAt t u m kind va) : TrapsAt s u (l ++ m) kind va := by
  obtain ⟨b, x, a, rfl, h1, h2, h3, h4⟩ := k
  exact ⟨l ++ b, x, a, by simp, h1, h2, h.append h3, h4⟩

theorem TrapsAt.cons {s t u : State} {x : ByteAccess} {m : List ByteAccess} {kind : AccessKind} {va : Word}
    (h : AccessMade s t x) (k : TrapsAt t u m kind va) : TrapsAt s u (x :: m) kind va :=
  TrapsAt.after (l := [x]) ⟨t, h, .refl t⟩ k

theorem TrapsAt.congr {s s' u : State} {l : List ByteAccess} {kind : AccessKind} {va : Word} (h : TrapsAt s u l kind va)
    (hs : SameMemory s' s) : TrapsAt s' u l kind va := by
  obtain ⟨b, x, a, e, h1, h2, h3, h4⟩ := h
  exact ⟨b, x, a, e, h1, h2, h3.congr hs (.refl u), h4⟩

/-! ### Translation -/

theorem mem_tlbAfterUse (l : List TlbEntry) (e x : TlbEntry) : x ∈ tlbAfterUse l e ↔ x ∈ l ∨ x = e := by
  unfold tlbAfterUse
  split
  · next h =>
    rw [List.contains_iff_mem] at h
    exact ⟨.inl, by rintro (h' | rfl) <;> assumption⟩
  · simp [or_comm]

theorem block_append_offset (va : Word) : va.extractLsb' 10 22 ++ va.extractLsb' 0 10 = va :=
  (append_extract va (k := 10) (n := 0) (m := 10) (p := 22) rfl).trans (by simp)

/-- The state after a translation, if there is one. -/
def State.translatedIf (s : State) (va : Word) : State := if s.flag .mmu then s.translatedBy va else s

theorem State.translatedIf_rest (s : State) (va : Word) :
    s.translatedIf va = { s with tlb := (s.translatedIf va).tlb, draws := (s.translatedIf va).draws } := by
  unfold State.translatedIf
  split <;> rfl

@[simp] theorem State.busByte_translatedIf (s : State) (va : Word) (bus : Bus) (a : Word) :
    (s.translatedIf va).busByte bus a = s.busByte bus a := by rw [State.translatedIf_rest]; cases bus <;> rfl

theorem State.translatedIf_draws (s : State) (va : Word) :
    (s.translatedIf va).draws = s.draws + (s.flag .mmu).toNat := by
  unfold State.translatedIf
  split <;> simp_all

theorem State.mem_translatedIf_tlb (s : State) (va : Word) (e : TlbEntry) :
    e ∈ (s.translatedIf va).tlb ↔ e ∈ s.tlb ∨ (s.flag .mmu = true ∧ e.block = va.extractLsb' 10 22 ∧
      e.setting = s.blockSetting (va.extractLsb' 10 22)) := by
  unfold State.translatedIf
  split
  · next h =>
    rw [show (s.translatedBy va).tlb = tlbAfterUse s.tlb ⟨va.extractLsb' 10 22, s.blockSetting (va.extractLsb' 10 22)⟩
      from rfl, mem_tlbAfterUse]
    obtain ⟨block, setting⟩ := e
    simp [h]
  · next h => simp [h]

/-- What a translation can do: name the place the block is mapped to, or trap, as the setting in force answers. -/
theorem translate_cases (kind : AccessKind) (va : Word) (s : State) :
    (∃ block r, s.answer kind va = .mapped block r ∧
      translate kind va s = .ok (r, block ++ va.extractLsb' 0 10) (s.translatedIf va)) ∨
    (s.answer kind va = .trap ∧ translate kind va s = .trap va kind (s.translatedBy va)) := by
  unfold translate State.answer State.translatedIf
  split
  · split
    · next block r h => exact .inl ⟨block, r, h, rfl⟩
    · next h => exact .inr ⟨h, rfl⟩
  · exact .inl ⟨_, _, rfl, by rw [block_append_offset]⟩

/-- A byte answered at a place, and the state after it, as a read or a fetch makes them. -/
theorem accessMade_read {s t : State} {x : ByteAccess} {block : BitVec 22} {r : Routing} (hx : x.kind ≠ .write)
    (ha : s.answer x.kind x.va = .mapped block r)
    (ht : t = { s.translatedIf x.va with draws := t.draws })
    (hd : x.kind = .fetch ∨ t.draws = (s.translatedIf x.va).draws)
    (hb : x.byte = s.busByte (readBus r) (block ++ x.va.extractLsb' 0 10) ∨ x.kind = .fetch ∧ s.flag .ica = true ∧
      ({ bus := readBus r, addr := block ++ x.va.extractLsb' 0 10, old := x.byte } : StaleByte) ∈ s.stale) :
    AccessMade s t x := by
  have ht' : t = { s with tlb := (s.translatedIf x.va).tlb, draws := t.draws } := by
    rw [State.translatedIf_rest] at ht
    exact ht
  refine ⟨block, r, ha, .inr hb, fun bus a => ?_, fun e => ?_, fun e => ?_, ?_, ?_, ?_, ?_, ?_, ?_⟩
  · rw [if_neg (fun h => hx h.1), ht']; cases bus <;> rfl
  · rw [ht']; simp [hx]
  · rw [ht']; exact State.mem_translatedIf_tlb s x.va e
  · rw [if_neg (fun h => hx h.1), ht']
  · exact hd.imp id fun h => h.trans (State.translatedIf_draws s x.va)
  · rw [ht']
  · rw [ht']
  all_goals rw [ht']; rfl

/-! ### Reading -/

theorem loadByte_cases (va : Word) (s : State) :
    (∃ b t, loadByte va s = .ok b t ∧ AccessMade s t ⟨.read, va, b⟩ ∧ OnlyAccessed s t) ∨
    (s.answer .read va = .trap ∧ loadByte va s = .trap va .read (s.translatedBy va)) := by
  rw [loadByte]
  rcases translate_cases .read va s with ⟨block, r, ha, e⟩ | ⟨ha, e⟩
  · rw [e]
    refine .inl ⟨_, _, rfl, accessMade_read (by simp) ha rfl (.inr rfl) (.inl (by simp)), ?_⟩
    unfold OnlyAccessed
    rw [State.translatedIf_rest]
  · rw [e]; exact .inr ⟨ha, rfl⟩

/-- What a read of `n` bytes can do. -/
theorem loadBytes_cases (n : Nat) (va : Word) (s : State) :
    (∃ bs t, loadBytes n va s = .ok bs t ∧ bs.length = n ∧ AccessesMade s t (byteAccesses .read va bs) ∧
      OnlyAccessed s t) ∨
    (∃ bs u va', bs.length = n ∧ TrapsAt s u (byteAccesses .read va bs) .read va' ∧ OnlyAccessed s u ∧
      loadBytes n va s = .trap va' .read (u.translatedBy va')) := by
  induction n generalizing va s with
  | zero => exact .inl ⟨[], s, rfl, rfl, .refl s, .refl s⟩
  | succ n ih =>
    rw [loadBytes]
    rcases loadByte_cases va s with ⟨b, t, e, hb, hk⟩ | ⟨ha, e⟩
    · rw [e, Res.bind_ok]
      rcases ih (va + 1) t with ⟨bs, u, e', hl, hbs, hk'⟩ | ⟨bs, u, va', hl, ht, hk', e'⟩
      · rw [e']
        exact .inl ⟨b :: bs, u, rfl, by simp [hl], ⟨t, hb, hbs⟩, hk.trans hk'⟩
      · rw [e']
        exact .inr ⟨b :: bs, u, va', by simp [hl], .cons hb ht, hk.trans hk', rfl⟩
    · rw [e]
      exact .inr ⟨List.replicate (n + 1) 0, s, va, by simp, TrapsAt.head (x := ⟨.read, va, 0⟩) _ ha, .refl s, rfl⟩

theorem littleValue_byte (bs : List Byte) (k : Nat) (b : Byte) (hk : k < 4) (h : bs[k]? = some b) :
    (littleValue bs).extractLsb' (8 * k) 8 = b := by
  induction bs generalizing k with
  | nil => simp at h
  | cons c bs ih =>
    rw [littleValue]
    apply BitVec.eq_of_getLsbD_eq
    intro i hi
    cases k with
    | zero =>
      simp only [List.getElem?_cons_zero, Option.some.injEq] at h
      subst h
      simp [hi, show i < 32 by omega]
    | succ k =>
      rw [List.getElem?_cons_succ] at h
      have := congrArg (fun x => x.getLsbD i) (ih k (by omega) h)
      simp only [BitVec.getLsbD_extractLsb', hi, decide_true, Bool.true_and] at this
      simp only [BitVec.getLsbD_extractLsb', hi, decide_true, Bool.true_and, BitVec.getLsbD_or, BitVec.getLsbD_shiftLeft,
        BitVec.getLsbD_setWidth, show 8 * (k + 1) + i < 32 by omega, show ¬ 8 * (k + 1) + i < 8 by omega,
        show 8 * (k + 1) + i - 8 = 8 * k + i by omega, this, decide_false, Bool.not_false,
        BitVec.getLsbD_of_ge c (8 * (k + 1) + i) (by omega), Bool.or_false]

theorem littleValue_lt (bs : List Byte) : (littleValue bs).toNat < 2 ^ (8 * bs.length) := by
  induction bs with
  | nil => simp [littleValue]
  | cons b bs ih =>
    rw [littleValue, List.length_cons]
    have hb : b.toNat < 2 ^ (8 * (bs.length + 1)) :=
      Nat.lt_of_lt_of_le b.isLt (Nat.pow_le_pow_right (by omega) (by omega))
    rw [BitVec.toNat_or]
    refine Nat.or_lt_two_pow ?_ ?_
    · rw [BitVec.toNat_shiftLeft]
      refine Nat.lt_of_le_of_lt (Nat.mod_le _ _) ?_
      rw [Nat.shiftLeft_eq, show 8 * (bs.length + 1) = 8 * bs.length + 8 by omega, Nat.pow_add]
      exact Nat.mul_lt_mul_of_pos_right ih (by decide)
    · rw [BitVec.toNat_setWidth]
      exact Nat.lt_of_le_of_lt (Nat.mod_le _ _) hb

theorem getElem?_lowBytes (n k : Nat) (v : Word) :
    (lowBytes n v)[k]? = if k < n then some (v.extractLsb' (8 * k) 8) else none := by
  unfold lowBytes
  rw [List.getElem?_map]
  split
  · next h => rw [List.getElem?_range h]; rfl
  · next h => rw [List.getElem?_eq_none (by simpa using h)]; rfl

theorem lowBytes_eq (n : Nat) (v : Word) : lowBytes n v = littleBytes n v := by
  apply List.ext_getElem?
  intro k
  rw [getElem?_lowBytes]
  split
  · next h => exact (getElem?_littleBytes n k v h).symm
  · next h => exact (List.getElem?_eq_none (by rw [length_littleBytes]; omega)).symm

theorem lowBytes_littleValue (bs : List Byte) (h : bs.length ≤ 4) : lowBytes bs.length (littleValue bs) = bs := by
  apply List.ext_getElem?
  intro k
  rw [getElem?_lowBytes]
  split
  · next hk =>
    obtain ⟨b, hb⟩ : ∃ b, bs[k]? = some b := ⟨_, List.getElem?_eq_getElem hk⟩
    rw [littleValue_byte bs k b (by omega) hb, hb]
  · next hk => exact (List.getElem?_eq_none (by omega)).symm

/-- What `MemRead` can do. -/
theorem memRead_cases (n : Size) (addr : Word) (s : State) :
    (∃ v t, memRead n addr s = .ok v t ∧ AccessesMade s t (byteAccesses .read addr (lowBytes (Size.bytes n) v)) ∧
      OnlyAccessed s t ∧ v.toNat < 2 ^ (8 * Size.bytes n)) ∨
    (∃ v u va', TrapsAt s u (byteAccesses .read addr (lowBytes (Size.bytes n) v)) .read va' ∧ OnlyAccessed s u ∧
      memRead n addr s = .trap va' .read (u.translatedBy va')) := by
  have hn : Size.bytes n ≤ 4 := by cases n <;> simp [Size.bytes]
  rw [memRead, accessAddr_eq]
  rcases loadBytes_cases (Size.bytes n) addr s with ⟨bs, t, e, hl, hbs, hk⟩ | ⟨bs, u, va', hl, ht, hk, e⟩
  · rw [e]
    refine .inl ⟨_, t, rfl, ?_, hk, hl ▸ littleValue_lt bs⟩
    rwa [show bytesValue bs = littleValue bs from rfl, ← hl, lowBytes_littleValue bs (by omega)]
  · rw [e]
    refine .inr ⟨littleValue bs, u, va', ?_, hk, rfl⟩
    rwa [← hl, lowBytes_littleValue bs (by omega)]

/-! ### Writing -/

/-- Where a routed write lands, in the words of claims. -/
theorem State.busByte_routedWrite (s : State) (r : Routing) (addr a : Word) (v : Byte) (bus : Bus) :
    (s.routedWrite r addr v).busByte bus a = if a = addr ∧ writesBus r bus = true then v else s.busByte bus a := by
  cases r <;> cases bus <;>
    simp [State.routedWrite, State.busWrite, State.busByte, State.busMem, Memory.read_write, BitVec.toNat_inj, writesBus]

/-- The older bytes after a routed write (20_memory.md R91). -/
theorem State.mem_stale_routedWrite (s : State) (r : Routing) (addr : Word) (v : Byte) (e : StaleByte) :
    e ∈ (s.routedWrite r addr v).stale ↔
      e ∈ s.stale ∨ (e.addr = addr ∧ writesBus r e.bus = true ∧ e.old = s.busByte e.bus addr) := by
  obtain ⟨bus, ea, old⟩ := e
  cases r <;> cases bus <;>
    simp [State.routedWrite, State.busWrite, mem_staleAfterStore, writesBus, State.busByte, State.busMem]

theorem State.routedWrite_rest (s : State) (r : Routing) (addr : Word) (v : Byte) :
    s.routedWrite r addr v = { s with
      mem := (s.routedWrite r addr v).mem, sdram := (s.routedWrite r addr v).sdram,
      stale := (s.routedWrite r addr v).stale } := by cases r <;> rfl

theorem storeByte_cases (va : Word) (v : Byte) (s : State) :
    (∃ t, storeByte va v s = .ok () t ∧ AccessMade s t ⟨.write, va, v⟩ ∧ OnlyAccessed s t) ∨
    (s.answer .write va = .trap ∧ storeByte va v s = .trap va .write (s.translatedBy va)) := by
  rw [storeByte]
  rcases translate_cases .write va s with ⟨block, r, ha, e⟩ | ⟨ha, e⟩
  case inr => rw [e]; exact .inr ⟨ha, rfl⟩
  rw [e, Res.bind_ok]
  dsimp only
  let u := s.translatedIf va
  let pa := block ++ va.extractLsb' 0 10
  let t := (u.routedWrite r pa v).noteRomWrite (s.romSignals va pa r v)
  have hu : u = { s with tlb := u.tlb, draws := u.draws } := State.translatedIf_rest s va
  have ht : t = { u.routedWrite r pa v with pending := t.pending } := State.noteRomWrite_rest ..
  have hw := State.routedWrite_rest u r pa v
  have hb : ∀ bus a, u.busByte bus a = s.busByte bus a := State.busByte_translatedIf s va
  have h : t = { s with
      mem := t.mem, sdram := t.sdram, stale := t.stale, tlb := u.tlb, pending := t.pending, draws := u.draws } := by
    rw [ht, hw, hu]
  refine .inl ⟨t, rfl, ⟨block, r, ha, .inl rfl, fun bus a => ?_, fun e => ?_, fun e => ?_, ?_, .inr ?_, ?_, ?_, ?_, ?_⟩, ?_⟩
  · rw [ht]
    refine Eq.trans (b := (u.routedWrite r pa v).busByte bus a) (by cases bus <;> rfl) ?_
    rw [State.busByte_routedWrite, hb]
    simp [pa]
  · rw [ht]
    refine (State.mem_stale_routedWrite u r pa v e).trans ?_
    rw [hb, show u.stale = s.stale by rw [hu]]
    simp [pa]
  · rw [h]; exact State.mem_translatedIf_tlb s va e
  · refine (State.pending_noteRomWrite ..).trans ?_
    rw [show (u.routedWrite r pa v).pending = s.pending by rw [hw, hu]]
    refine ite_congr (propext ?_) (fun _ => rfl) fun _ => rfl
    simp only [State.romSignals, Bool.and_eq_true, Bool.or_eq_true, decide_eq_true_eq, pa]
    exact ⟨fun h => ⟨trivial, h.1.1, h.2, h.1.2⟩, fun h => ⟨⟨h.2.1, h.2.2.2⟩, h.2.2.1⟩⟩
  · rw [h]; exact State.translatedIf_draws s va
  · rw [h]
  · rw [h]
  · rw [h]; rfl
  · rw [h]; rfl
  · rw [h]; rfl

/-- What a write of bytes can do. -/
theorem storeBytes_cases (bs : List Byte) (va : Word) (s : State) :
    (∃ t, storeBytes va bs s = .ok () t ∧ AccessesMade s t (byteAccesses .write va bs) ∧ OnlyAccessed s t) ∨
    (∃ u va', TrapsAt s u (byteAccesses .write va bs) .write va' ∧ OnlyAccessed s u ∧
      storeBytes va bs s = .trap va' .write (u.translatedBy va')) := by
  induction bs generalizing va s with
  | nil => exact .inl ⟨s, rfl, .refl s, .refl s⟩
  | cons b bs ih =>
    rw [storeBytes]
    rcases storeByte_cases va b s with ⟨t, e, hb, hk⟩ | ⟨ha, e⟩
    · rw [e, Res.bind_ok]
      rcases ih (va + 1) t with ⟨u, e', hbs, hk'⟩ | ⟨u, va', ht, hk', e'⟩
      · exact .inl ⟨u, e', ⟨t, hb, hbs⟩, hk.trans hk'⟩
      · exact .inr ⟨u, va', .cons hb ht, hk.trans hk', e'⟩
    · rw [e]
      exact .inr ⟨s, va, TrapsAt.head (x := ⟨.write, va, b⟩) _ ha, .refl s, rfl⟩

/-- What `MemWrite` can do. -/
theorem memWrite_cases (n : Size) (addr v : Word) (s : State) :
    (∃ t, memWrite n addr v s = .ok () t ∧
      AccessesMade s t (byteAccesses .write addr (lowBytes (Size.bytes n) v)) ∧ OnlyAccessed s t) ∨
    (∃ u va', TrapsAt s u (byteAccesses .write addr (lowBytes (Size.bytes n) v)) .write va' ∧ OnlyAccessed s u ∧
      memWrite n addr v s = .trap va' .write (u.translatedBy va')) := by
  rw [memWrite, accessAddr_eq, lowBytes_eq]
  exact storeBytes_cases _ addr s

/-- What `Push` can do: a write at SP, then SP lowered. -/
theorem push_cases (n : Size) (v : Word) (s : State) :
    (∃ t, push n v s = .ok () (t.regWrite .r6 (s.r6 - BitVec.ofNat 32 (Size.bytes n))) ∧
      AccessesMade s t (byteAccesses .write s.r6 (lowBytes (Size.bytes n) v)) ∧ OnlyAccessed s t) ∨
    (∃ u va', TrapsAt s u (byteAccesses .write s.r6 (lowBytes (Size.bytes n) v)) .write va' ∧ OnlyAccessed s u ∧
      push n v s = .trap va' .write (u.translatedBy va')) := by
  rw [push]
  rcases memWrite_cases n (stackAddr n (s.regRead .r6)) v s with ⟨t, e, hs, hk⟩ | ⟨u, va', ht, hk, e⟩
  · rw [e]
    have e6 : t.regRead .r6 = s.r6 := hk.r6
    exact .inl ⟨t, by rw [Res.bind_ok, e6], hs, hk⟩
  · rw [e]
    exact .inr ⟨u, va', ht, hk, rfl⟩

/-! ### Fetching -/

theorem mem_oldBytes (l : List StaleByte) (bus : Bus) (addr : Word) (b : Byte) :
    b ∈ oldBytes l bus addr ↔ ({ bus := bus, addr := addr, old := b } : StaleByte) ∈ l := by
  simp only [oldBytes, List.mem_map, List.mem_filter, Bool.and_eq_true, beq_iff_eq]
  constructor
  · rintro ⟨⟨_, _, _⟩, ⟨h, rfl, rfl⟩, rfl⟩; exact h
  · exact fun h => ⟨_, ⟨h, rfl, rfl⟩, rfl⟩

/-- A fetch from a place answers the byte there, or an older one while Flags.ICA = 1, and uses up free values only. -/
theorem fetchFrom_cases (bus : Bus) (addr : Word) (s : State) :
    (fetchFrom bus addr s).2 = { s with draws := (fetchFrom bus addr s).2.draws } ∧
    ((fetchFrom bus addr s).1 = s.busByte bus addr ∨ s.flag .ica = true ∧
      ({ bus := bus, addr := addr, old := (fetchFrom bus addr s).1 } : StaleByte) ∈ s.stale) := by
  unfold fetchFrom
  split
  · next b bs hi ho =>
    refine ⟨rfl, ?_⟩
    cases hg : (b :: bs)[s.drawn.toNat]? with
    | none => exact .inl (by simp)
    | some x => exact .inr ⟨hi, (mem_oldBytes _ _ _ _).mp (ho ▸ List.mem_of_getElem? hg)⟩
  · exact ⟨rfl, .inl rfl⟩

theorem fetchByte_cases (va : Word) (s : State) :
    (∃ b t, fetchByte va s = .ok b t ∧ AccessMade s t ⟨.fetch, va, b⟩ ∧
      t = { s with tlb := t.tlb, draws := t.draws }) ∨
    (s.answer .fetch va = .trap ∧ fetchByte va s = .trap va .fetch (s.translatedBy va)) := by
  rw [fetchByte]
  rcases translate_cases .fetch va s with ⟨block, r, ha, e⟩ | ⟨ha, e⟩
  case inr => rw [e]; exact .inr ⟨ha, rfl⟩
  rw [e, Res.bind_ok]
  obtain ⟨h1, h2⟩ := fetchFrom_cases (readBus r) (block ++ va.extractLsb' 0 10) (s.translatedIf va)
  have hu := State.translatedIf_rest s va
  have hf : (s.translatedIf va).flag .ica = s.flag .ica := by rw [hu]; rfl
  have hs : (s.translatedIf va).stale = s.stale := by rw [hu]
  refine .inl ⟨_, _, rfl, accessMade_read (by simp) ha h1 (.inl rfl) ?_, ?_⟩
  · rw [State.busByte_translatedIf, hf, hs] at h2
    exact h2.imp id fun h => ⟨rfl, h⟩
  · dsimp only
    rw [h1, hu]

/-- What fetching an instruction can do: answer the bytes up to the end of an instruction, or the one byte of a 6502 opcode;
or trap at the byte after some that do not yet hold an instruction. -/
theorem fetch_cases (s : State) :
    ∃ bs u, AccessesMade s u (byteAccesses .fetch s.pc bs) ∧ u = { s with tlb := u.tlb, draws := u.draws } ∧
      match decode bs with
      | .instr _ rest => rest = [] ∧ fetch s = .ok bs u
      | .rejected (.sixFiveOhTwo b) => bs = [b] ∧ fetch s = .ok bs u
      | .rejected .truncated =>
        u.answer .fetch (s.pc + BitVec.ofNat 32 bs.length) = .trap ∧
          fetch s = .trap (s.pc + BitVec.ofNat 32 bs.length) .fetch
            (u.translatedBy (s.pc + BitVec.ofNat 32 bs.length)) := by
  have n1 : s.pc + 1 + 1 = s.pc + 2 := by bv_omega
  have n2 : s.pc + 2 + 1 = s.pc + 3 := by bv_omega
  have pcOf : ∀ {s t : State}, t = { s with tlb := t.tlb, draws := t.draws } → t.pc = s.pc := fun h => by rw [h]
  rw [fetch]
  -- the first byte
  rcases fetchByte_cases s.pc s with ⟨b0, t0, e0, a0, k0⟩ | ⟨ha, e0⟩
  case inr => exact ⟨[], s, .refl s, rfl, by simpa using ha, by rw [e0]; simp⟩
  rw [e0, Res.bind_ok]
  by_cases hx : isExtended b0 = true
  case neg =>
    have hx : isExtended b0 = false := by simpa using hx
    refine ⟨[b0], t0, ⟨t0, a0, .refl t0⟩, k0, ?_⟩
    simp only [decode, hx, Bool.false_eq_true, if_false]
    exact ⟨trivial, trivial⟩
  simp only [hx, if_true, pcOf k0]
  -- the second byte
  rcases fetchByte_cases (s.pc + 1) t0 with ⟨b1, t1, e1, a1, k1⟩ | ⟨ha, e1⟩
  case inr =>
    refine ⟨[b0], t0, ⟨t0, a0, .refl t0⟩, k0, ?_⟩
    simp only [decode, hx, if_true]
    exact ⟨ha, by rw [e1]; rfl⟩
  have k1 := k1.trans (congrArg (fun x : State => { x with tlb := t1.tlb, draws := t1.draws }) k0)
  rw [e1, Res.bind_ok]
  by_cases ho : takesOperand (fieldsOf (b0 ++ b1)) = true
  case neg =>
    have ho : takesOperand (fieldsOf (b0 ++ b1)) = false := by simpa using ho
    refine ⟨[b0, b1], t1, ⟨t0, a0, t1, a1, .refl t1⟩, k1, ?_⟩
    simp only [decode, hx, ho, Bool.false_eq_true, if_false, if_true]
    exact ⟨trivial, trivial⟩
  simp only [ho, if_true, pcOf k1]
  -- the operand word
  rcases fetchByte_cases (s.pc + 2) t1 with ⟨b2, t2, e2, a2, k2⟩ | ⟨ha, e2⟩
  case inr =>
    refine ⟨[b0, b1], t1, ⟨t0, a0, t1, a1, .refl t1⟩, k1, ?_⟩
    simp only [decode, hx, ho, if_true]
    exact ⟨ha, by rw [e2]; rfl⟩
  have k2 := k2.trans (congrArg (fun x : State => { x with tlb := t2.tlb, draws := t2.draws }) k1)
  rw [e2, Res.bind_ok, pcOf k2]
  rcases fetchByte_cases (s.pc + 3) t2 with ⟨b3, t3, e3, a3, k3⟩ | ⟨ha, e3⟩
  case inr =>
    refine ⟨[b0, b1, b2], t2, ⟨t0, a0, t1, a1, t2, by rwa [n1], .refl t2⟩, k2, ?_⟩
    simp only [decode, hx, ho, if_true]
    exact ⟨ha, by rw [e3]; rfl⟩
  have k3 := k3.trans (congrArg (fun x : State => { x with tlb := t3.tlb, draws := t3.draws }) k2)
  rw [e3, Res.bind_ok]
  refine ⟨[b0, b1, b2, b3], t3, ⟨t0, a0, t1, a1, t2, by rwa [n1], t3, by rwa [n1, n2], .refl t3⟩, k3, ?_⟩
  simp only [decode, hx, ho, if_true]
  exact ⟨trivial, trivial⟩

/-! ### Taking an exception -/

/-- SP, the pc of the next instruction and the flags but MMU and ICA do not belong to what accesses work on. -/
theorem sameMemory_of_flags {s t : State} (f : Half) (h : t = { s with r6 := t.r6, nextPc := t.nextPc, flags := f })
    (hm : getFlag f .mmu = s.flag .mmu) (hi : getFlag f .ica = s.flag .ica) : SameMemory s t := by
  rw [h]
  exact ⟨rfl, rfl, rfl, rfl, rfl, rfl, rfl, rfl, hm, hi⟩

/-- What taking an exception can do (60_exceptions.md R260): the frame is pushed, I is set, B becomes `brk`, SP is lowered,
and execution continues at the address found at the vector; or an access of its own traps. -/
theorem takeException_cases (w : TransferWidth) (ret vec : Word) (brk : Bool) (s : State) :
    let n := Size.bytes (transferSize w)
    ∃ image k, FlagsReadAs s.flags image ∧
      ((∃ t handler,
        takeException w ret vec brk s = .ok () (((t.regWrite .r6 (s.r6 - BitVec.ofNat 32 n - 2)).withFlags
          (enteredFlags brk s.flags)).withNextPc handler) ∧
        OnlyAccessed s t ∧ handler.toNat < 2 ^ (8 * n) ∧
        AccessesMade { s with draws := k } t (entryAccesses w ret vec s.r6 image handler)) ∨
      ∃ u kind va, EntryTrapsAt s k w ret vec image brk u kind va ∧
        takeException w ret vec brk s = .trap va kind (u.translatedBy va)) := by
  intro n
  have h0 := State.afterFlagsRead_rest s
  have f0 : s.afterFlagsRead.flags = s.flags := by rw [h0]
  have k0 : OnlyAccessed s s.afterFlagsRead := by unfold OnlyAccessed; rw [h0]
  have hi := flagsReadAs_flagsImage s
  simp only [takeException, params]
  generalize s.flagsImage = image at hi ⊢
  refine ⟨image, s.afterFlagsRead.draws, hi, ?_⟩
  -- the return address
  rcases push_cases (transferSize w) ret s.afterFlagsRead with ⟨t1, e1, a1, k1⟩ | ⟨u, va', a1, k1, e1⟩
  case inr =>
    rw [k0.r6, h0] at a1
    rw [e1]
    exact .inr ⟨u, _, va', .inl ⟨rfl, a1, k0.trans k1⟩, rfl⟩
  rw [k0.r6] at e1 a1
  rw [e1, Res.bind_ok]
  have K1 := k0.trans k1
  have s1 : SameMemory t1 (t1.regWrite .r6 (s.r6 - BitVec.ofNat 32 n)) := ⟨rfl, rfl, rfl, rfl, rfl, rfl, rfl, rfl, rfl, rfl⟩
  have A1 := a1.congr (s' := { s with draws := s.afterFlagsRead.draws }) (h0 ▸ .refl _) s1
  -- the Flags image
  rcases push_cases .two (image.setWidth 32) (t1.regWrite .r6 (s.r6 - BitVec.ofNat 32 n)) with
    ⟨t2, e2, a2, k2⟩ | ⟨u, va', a2, k2, e2⟩
  case inr =>
    rw [e2]
    exact .inr ⟨u, _, va', .inr (.inl ⟨rfl, _, A1, a2, by unfold OnlyAccessed; rw [k2, K1]; rfl⟩), rfl⟩
  rw [e2, Res.bind_ok]
  have f2 : t2.flags = s.flags := k2.flags.trans K1.flags
  -- the handler's address
  let t3 := (t2.regWrite .r6 (s.r6 - BitVec.ofNat 32 n - 2)).withFlags (enteredFlags brk s.flags)
  have hf := flagsAfter_entered brk s.flags
  have s3 : SameMemory t2 t3 := sameMemory_of_flags (enteredFlags brk s.flags) rfl
    ((hf .mmu).trans (by rw [State.flag, f2]; rfl)) ((hf .ica).trans (by rw [State.flag, f2]; rfl))
  have A2 := (A1.append a2).congr (.refl _) s3
  have e3 : ∀ k : Word → State → Res Unit,
      (memRead (transferSize w) vec ((t2.regWrite .r6 ((t1.regWrite .r6 (s.r6 - BitVec.ofNat 32 n)).r6 -
        BitVec.ofNat 32 (Size.bytes .two))).withFlags (enteredFlags brk (t2.regWrite .r6
          ((t1.regWrite .r6 (s.r6 - BitVec.ofNat 32 n)).r6 - BitVec.ofNat 32 (Size.bytes .two))).flags))).bind k =
        (memRead (transferSize w) vec t3).bind k := fun k => by
    rw [show (t2.regWrite .r6 ((t1.regWrite .r6 (s.r6 - BitVec.ofNat 32 n)).r6 -
      BitVec.ofNat 32 (Size.bytes .two))).flags = s.flags from f2]; rfl
  rw [e3]
  rcases memRead_cases (transferSize w) vec t3 with ⟨v, t4, e4, a4, k4, lt⟩ | ⟨v, u, va', a4, k4, e4⟩
  case inr =>
    rw [e4]
    refine .inr ⟨u, _, va', .inr (.inr ⟨rfl, t3, v, A2, a4, ?_, ?_⟩), rfl⟩
    · unfold OnlyAccessed
      rw [k4]
      dsimp only [t3]
      rw [k2, K1]
      rfl
    · rw [k4.flags]; exact hf
  rw [e4, Res.bind_ok]
  let t := { s with
    mem := t4.mem, sdram := t4.sdram, stale := t4.stale, tlb := t4.tlb, pending := t4.pending, draws := t4.draws }
  have eq4 : t4 = (t.regWrite .r6 (s.r6 - BitVec.ofNat 32 n - 2)).withFlags (enteredFlags brk s.flags) := by
    rw [k4]
    dsimp only [t3]
    rw [k2, K1]
    rfl
  have s4 : SameMemory t4 t := by
    refine ⟨rfl, rfl, rfl, rfl, rfl, rfl, by rw [eq4]; rfl, by rw [eq4]; rfl, ?_, ?_⟩
    · rw [eq4]; exact (hf .mmu).symm
    · rw [eq4]; exact (hf .ica).symm
  exact .inl ⟨t, v, by rw [← eq4], rfl, lt, (A2.append a4).congr (.refl _) s4⟩

end Sys2Proof.Machine
end

