-- ==== Sys2Proof/Laws/Decode.lean ====
section
/-! SUPPORT. What the decoder does with the words the encoder writes. -/

namespace Sys2Proof

/-- Taking the fields of packed fields gives them back. -/
theorem fieldsOf_packFields (f : Fields) : fieldsOf (packFields f) = f := by
  obtain ⟨op, mm, a, b, c⟩ := f
  simp only [fieldsOf, packFields, Fields.mk.injEq]
  refine ⟨?_, ?_, ?_, ?_, ?_⟩ <;>
    (apply BitVec.eq_of_getLsbD_eq; intro i hi
     simp only [BitVec.getLsbD_extractLsb', BitVec.getLsbD_append, hi, decide_true, Bool.true_and])
  · simp [show ¬ 12 + i < 2 by omega, show ¬ 12 + i - 2 < 3 by omega, show ¬ 12 + i - 2 - 3 < 3 by omega,
      show ¬ 12 + i - 2 - 3 - 3 < 2 by omega, show ¬ 12 + i - 2 - 3 - 3 - 2 < 2 by omega,
      show 12 + i - 2 - 3 - 3 - 2 - 2 = i by omega]
  · simp [show ¬ 10 + i < 2 by omega, show ¬ 10 + i - 2 < 3 by omega, show ¬ 10 + i - 2 - 3 < 3 by omega,
      show ¬ 10 + i - 2 - 3 - 3 < 2 by omega, show 10 + i - 2 - 3 - 3 - 2 = i by omega]
    intro h; omega
  · simp [show ¬ 5 + i < 2 by omega, show ¬ 5 + i - 2 < 3 by omega, show 5 + i - 2 - 3 = i by omega]
    intro h; omega
  · simp [show ¬ 2 + i < 2 by omega, show 2 + i - 2 = i by omega]
    intro h; omega
  · simp [hi]

/-- The two bytes of a word, put together again. -/
theorem append_bytes (h : Half) : h.extractLsb' 8 8 ++ h.extractLsb' 0 8 = h := by
  apply BitVec.eq_of_getLsbD_eq
  intro i hi
  rw [BitVec.getLsbD_append]
  by_cases h8 : i < 8
  · simp [h8]
  · simp [h8, show i - 8 < 8 by omega, show 8 + (i - 8) = i by omega]

/-- Every packed word is an extended opcode (30_encoding.md R100). -/
theorem isExtended_packFields (f : Fields) : isExtended ((packFields f).extractLsb' 8 8) = true := by
  obtain ⟨op, mm, a, b, c⟩ := f
  rw [isExtended, beq_iff_eq]
  apply BitVec.eq_of_getLsbD_eq
  intro i hi
  rw [BitVec.getLsbD_extractLsb', BitVec.getLsbD_extractLsb']
  simp only [packFields, BitVec.getLsbD_append]
  obtain rfl | rfl : i = 0 ∨ i = 1 := by omega
  · simp
  · simp

/-- Decoding a word written with the operand its length asks for. -/
theorem decode_wordBytes (f : Fields) (o : Option Half) (rest : List Byte) (h : takesOperand f = o.isSome) :
    decode (wordBytes (packFields f) o ++ rest) = .instr (decodeFields f (o.getD 0)) rest := by
  cases o with
  | none => simp [wordBytes, decode, isExtended_packFields, append_bytes, fieldsOf_packFields, h]
  | some o => simp [wordBytes, decode, isExtended_packFields, append_bytes, fieldsOf_packFields, h]

/-- The length of a word is 2 or 4 (R102). -/
theorem length_wordBytes (hw : Half) (o : Option Half) :
    (wordBytes hw o).length = if o.isSome then 4 else 2 := by cases o <;> rfl

/-! ### Operand fields -/

theorem regOfBits_regBits (r : Reg) : regOfBits (regBits r) = r := by cases r <;> rfl
theorem widthOfBits_widthBits (w : Width) : widthOfBits (widthBits w) = w := by cases w <;> rfl
theorem amountOfBits_amountBits (k : Amount) : amountOfBits (amountBits k) = k := by cases k <;> rfl
theorem transferOfBit_transferBit (w : TransferWidth) : transferOfBit (transferBit w) = w := by cases w <;> rfl
theorem cntrOfBit_cntrBit (w : CntrWidth) : cntrOfBit (cntrBit w) = w := by cases w <;> rfl
theorem mmuRegOfBit_mmuRegBit (n : MmuReg) : mmuRegOfBit (mmuRegBit n) = n := by cases n <;> rfl
theorem bits2_getLsbD_one (x y : Bool) : (bits2 x y).getLsbD 1 = x := by cases x <;> cases y <;> rfl
theorem bits2_getLsbD_zero (x y : Bool) : (bits2 x y).getLsbD 0 = y := by cases x <;> cases y <;> rfl

theorem aluSrcOf_aluSrcFields (s : AluSrc) :
    aluSrcOf (aluSrcFields s).1 (aluSrcFields s).2.1 ((aluSrcFields s).2.2.getD 0#16) = s := by
  cases s with
  | indirect b => simp [aluSrcFields, aluSrcOf, regOfBits_regBits]
  | indexed b o => simp [aluSrcFields, aluSrcOf, regOfBits_regBits]
  | reg r => simp [aluSrcFields, aluSrcOf, regOfBits_regBits]
  | imm v => simp [aluSrcFields, aluSrcOf]

theorem unOpOf_unOpFields (s : UnOp) :
    unOpOf (unOpFields s).1 (unOpFields s).2.1 ((unOpFields s).2.2.getD 0#16) = s := by
  cases s with
  | indirect b => simp [unOpFields, unOpOf, regOfBits_regBits]
  | indexed b o => simp [unOpFields, unOpOf, regOfBits_regBits]
  | reg r => simp [unOpFields, unOpOf, regOfBits_regBits]

theorem memOpOf_memOpFields (m : MemOp) :
    memOpOf (memOpFields m).1 (memOpFields m).2.1 ((memOpFields m).2.2.getD 0#16) = m := by
  cases m with
  | indirect b => simp [memOpFields, memOpOf, regOfBits_regBits]
  | indexed b o => simp [memOpFields, memOpOf, regOfBits_regBits]
  | autoInc b => simp [memOpFields, memOpOf, regOfBits_regBits]
  | autoDec b => simp [memOpFields, memOpOf, regOfBits_regBits]

theorem unOpFields_mode (s : UnOp) : (unOpFields s).1 ≠ 3#2 := by cases s <;> simp [unOpFields]

/-- A branch of a test that is not reserved has an operand word. -/
theorem takesOperand_branchFields (test : BitVec 4) (t : Bool) (d : BitVec 20) (h : test ≠ 13#4 ∧ test ≠ 15#4) :
    takesOperand (branchFields test t d).1 = (branchFields test t d).2.isSome := by
  have e : ((1#1 ++ d.extractLsb' 18 2 : BitVec (1 + 2)).getLsbD 2) = true := by
    rw [BitVec.getLsbD_append]; simp
  have key : ∀ test : BitVec 4, test ≠ 13#4 ∧ test ≠ 15#4 → ∀ t : Bool,
      ((test.extractLsb' 2 2 ++ BitVec.ofBool t : BitVec 3).extractLsb' 1 2 == 3#2 &&
        (test.extractLsb' 0 2).getLsbD 0) = false := by decide
  change ((1#1 ++ d.extractLsb' 18 2 : BitVec (1 + 2)).getLsbD 2 && !_) = true
  rw [e, Bool.true_and]
  exact congrArg not (key test h t)

end Sys2Proof
end

