-- ==== Sys2Proof/Laws/Exception.lean ====
section
/-! SUPPORT. What the shared operations of calls, traps and returns answer while Flags.MMU = 0. -/

namespace Sys2Proof.Machine

theorem afterFlagsRead_untranslated {s : State} (h : s.untranslated) : s.afterFlagsRead.untranslated :=
  untranslated_of_flags h (by rw [State.afterFlagsRead_rest])

/-- The state with the two items of an exception frame pushed (43_control_system.md R194). -/
def State.framed (s : State) (w : TransferWidth) (returnTo : Word) : State :=
  let n := Size.bytes (transferSize w)
  let s1 := (s.afterFlagsRead.ioStore s.r6 (littleBytes n returnTo)).regWrite .r6 (s.r6 - BitVec.ofNat 32 n)
  (s1.ioStore (s.r6 - BitVec.ofNat 32 n) (littleBytes 2 (s.flagsImage.setWidth 32))).regWrite .r6
    (s.r6 - BitVec.ofNat 32 n - 2)

@[simp] theorem State.afterFlagsRead_r6 (s : State) : s.afterFlagsRead.r6 = s.r6 := by rw [State.afterFlagsRead_rest]
@[simp] theorem State.afterFlagsRead_flags (s : State) : s.afterFlagsRead.flags = s.flags := by
  rw [State.afterFlagsRead_rest]
@[simp] theorem State.afterFlagsRead_mem (s : State) : s.afterFlagsRead.mem = s.mem := by
  rw [State.afterFlagsRead_rest]
@[simp] theorem State.afterFlagsRead_sdram (s : State) : s.afterFlagsRead.sdram = s.sdram := by
  rw [State.afterFlagsRead_rest]
@[simp] theorem State.afterFlagsRead_stale (s : State) : s.afterFlagsRead.stale = s.stale := by
  rw [State.afterFlagsRead_rest]
@[simp] theorem State.afterFlagsRead_tlb (s : State) : s.afterFlagsRead.tlb = s.tlb := by
  rw [State.afterFlagsRead_rest]
@[simp] theorem State.afterFlagsRead_pending (s : State) : s.afterFlagsRead.pending = s.pending := by
  rw [State.afterFlagsRead_rest]

@[simp] theorem State.afterFlagsRead_m0 (s : State) : s.afterFlagsRead.m0 = s.m0 := by rw [State.afterFlagsRead_rest]
@[simp] theorem State.afterFlagsRead_m1 (s : State) : s.afterFlagsRead.m1 = s.m1 := by rw [State.afterFlagsRead_rest]

/-- The frame changes SP, memory and what stands behind it, and nothing else. -/
theorem State.framed_rest (s : State) (w : TransferWidth) (returnTo : Word) :
    s.framed w returnTo = { s with
      r6 := s.r6 - BitVec.ofNat 32 (Size.bytes (transferSize w)) - 2
      mem := (s.framed w returnTo).mem
      stale := (s.framed w returnTo).stale
      pending := (s.framed w returnTo).pending
      draws := (s.framed w returnTo).draws } := by
  have key : ∀ t : State, t.r1 = s.r1 → t.r2 = s.r2 → t.r3 = s.r3 → t.r4 = s.r4 → t.r5 = s.r5 →
      t.r6 = s.r6 - BitVec.ofNat 32 (Size.bytes (transferSize w)) - 2 → t.pc = s.pc → t.nextPc = s.nextPc →
      t.ri = s.ri → t.riValid = s.riValid → t.riWritten = s.riWritten → t.riHold = s.riHold →
      t.riHoldNext = s.riHoldNext → t.flags = s.flags → t.m0 = s.m0 → t.m1 = s.m1 → t.sdram = s.sdram →
      t.tlb = s.tlb → t = { s with
        r6 := s.r6 - BitVec.ofNat 32 (Size.bytes (transferSize w)) - 2
        mem := t.mem
        stale := t.stale
        pending := t.pending
        draws := t.draws } := by
    intro t
    cases t
    simp only [State.mk.injEq]
    intros
    simp_all
  have hr := State.afterFlagsRead_rest s
  apply key <;> simp only [State.framed, State.regWrite_r1, State.regWrite_r2, State.regWrite_r3, State.regWrite_r4,
    State.regWrite_r5, State.regWrite_r6, State.regWrite_pc, State.regWrite_nextPc, State.regWrite_ri,
    State.regWrite_riValid, State.regWrite_riWritten, State.regWrite_riHold, State.regWrite_riHoldNext,
    State.regWrite_flags, State.regWrite_m0, State.regWrite_m1, State.regWrite_sdram, State.regWrite_tlb,
    State.ioStore_r1, State.ioStore_r2, State.ioStore_r3, State.ioStore_r4, State.ioStore_r5, State.ioStore_pc,
    State.ioStore_nextPc, State.ioStore_ri, State.ioStore_riValid, State.ioStore_riWritten, State.ioStore_riHold,
    State.ioStore_riHoldNext, State.ioStore_flags, State.ioStore_m0, State.ioStore_m1, State.ioStore_sdram,
    State.ioStore_tlb, reduceCtorEq, if_false, if_true] <;> first | rfl | rw [hr]

@[simp] theorem State.framed_r1 (s : State) (w : TransferWidth) (a : Word) : (s.framed w a).r1 = s.r1 := by
  rw [State.framed_rest]
@[simp] theorem State.framed_r2 (s : State) (w : TransferWidth) (a : Word) : (s.framed w a).r2 = s.r2 := by
  rw [State.framed_rest]
@[simp] theorem State.framed_r3 (s : State) (w : TransferWidth) (a : Word) : (s.framed w a).r3 = s.r3 := by
  rw [State.framed_rest]
@[simp] theorem State.framed_r4 (s : State) (w : TransferWidth) (a : Word) : (s.framed w a).r4 = s.r4 := by
  rw [State.framed_rest]
@[simp] theorem State.framed_r5 (s : State) (w : TransferWidth) (a : Word) : (s.framed w a).r5 = s.r5 := by
  rw [State.framed_rest]
@[simp] theorem State.framed_pc (s : State) (w : TransferWidth) (a : Word) : (s.framed w a).pc = s.pc := by
  rw [State.framed_rest]
@[simp] theorem State.framed_nextPc (s : State) (w : TransferWidth) (a : Word) : (s.framed w a).nextPc = s.nextPc := by
  rw [State.framed_rest]
@[simp] theorem State.framed_ri (s : State) (w : TransferWidth) (a : Word) : (s.framed w a).ri = s.ri := by
  rw [State.framed_rest]
@[simp] theorem State.framed_riValid (s : State) (w : TransferWidth) (a : Word) : (s.framed w a).riValid = s.riValid := by
  rw [State.framed_rest]
@[simp] theorem State.framed_riWritten (s : State) (w : TransferWidth) (a : Word) : (s.framed w a).riWritten = s.riWritten := by
  rw [State.framed_rest]
@[simp] theorem State.framed_riHold (s : State) (w : TransferWidth) (a : Word) : (s.framed w a).riHold = s.riHold := by
  rw [State.framed_rest]
@[simp] theorem State.framed_riHoldNext (s : State) (w : TransferWidth) (a : Word) : (s.framed w a).riHoldNext = s.riHoldNext := by
  rw [State.framed_rest]
@[simp] theorem State.framed_flags (s : State) (w : TransferWidth) (a : Word) : (s.framed w a).flags = s.flags := by
  rw [State.framed_rest]
@[simp] theorem State.framed_m0 (s : State) (w : TransferWidth) (a : Word) : (s.framed w a).m0 = s.m0 := by
  rw [State.framed_rest]
@[simp] theorem State.framed_m1 (s : State) (w : TransferWidth) (a : Word) : (s.framed w a).m1 = s.m1 := by
  rw [State.framed_rest]
@[simp] theorem State.framed_sdram (s : State) (w : TransferWidth) (a : Word) : (s.framed w a).sdram = s.sdram := by
  rw [State.framed_rest]
@[simp] theorem State.framed_tlb (s : State) (w : TransferWidth) (a : Word) : (s.framed w a).tlb = s.tlb := by
  rw [State.framed_rest]
@[simp] theorem State.framed_r6 (s : State) (w : TransferWidth) (a : Word) :
    (s.framed w a).r6 = s.r6 - BitVec.ofNat 32 (Size.bytes (transferSize w)) - 2 := rfl

/-- Taking an exception (60_exceptions.md R260): frame, Flags, and the handler's address read from the vector. -/
theorem takeException_untranslated {s : State} (h : s.untranslated) (w : TransferWidth) (returnTo vector : Word)
    (brk : Bool) :
    takeException w returnTo vector brk s =
      .ok () (((s.framed w returnTo).withFlags (enteredFlags brk s.flags)).withNextPc
        ((s.framed w returnTo).ioValue (transferSize w) vector)) := by
  have h0 := afterFlagsRead_untranslated h
  have h1 : ((s.afterFlagsRead.ioStore s.r6 (littleBytes (Size.bytes (transferSize w)) returnTo)).regWrite .r6
      (s.r6 - BitVec.ofNat 32 (Size.bytes (transferSize w)))).untranslated := untranslated_of_flags h (by simp)
  have h2 : ((s.framed w returnTo).withFlags (enteredFlags brk s.flags)).untranslated := by
    have := flagsAfter_entered brk s.flags .mmu
    exact this.trans h
  simp only [takeException, params]
  rw [push_untranslated h0, Res.bind_ok, State.afterFlagsRead_r6, push_untranslated h1, Res.bind_ok]
  simp only [State.regWrite_r6, if_true, show Size.bytes Size.two = 2 from rfl, State.regWrite_flags,
    State.ioStore_flags, State.afterFlagsRead_flags]
  have e : ((((s.afterFlagsRead.ioStore s.r6 (littleBytes (Size.bytes (transferSize w)) returnTo)).regWrite .r6
      (s.r6 - BitVec.ofNat 32 (Size.bytes (transferSize w)))).ioStore
        (s.r6 - BitVec.ofNat 32 (Size.bytes (transferSize w))) (littleBytes 2 (s.flagsImage.setWidth 32))).regWrite .r6
        (s.r6 - BitVec.ofNat 32 (Size.bytes (transferSize w)) - BitVec.ofNat 32 2)) = s.framed w returnTo := rfl
  rw [e, memRead_untranslated h2, Res.bind_ok, State.ioValue_withFlags]

/-- The two stores of a frame: the return address at SP, then the Flags image below it. -/
theorem stored_framed {s : State} (h : s.untranslated) (w : TransferWidth) (returnTo : Word) :
    ∃ u, Stored s u s.r6 (Size.bytes (transferSize w)) returnTo ∧
      Stored u (s.framed w returnTo) (s.r6 - BitVec.ofNat 32 (Size.bytes (transferSize w))) 2
        (s.flagsImage.setWidth 32) := by
  refine ⟨(s.afterFlagsRead.ioStore s.r6 (littleBytes (Size.bytes (transferSize w)) returnTo)).regWrite .r6
      (s.r6 - BitVec.ofNat 32 (Size.bytes (transferSize w))), ?_, ?_⟩
  · exact stored_congr (stored_ioStore (afterFlagsRead_untranslated h) (transferSize w) s.r6 returnTo) (by simp) (by simp)
  · exact stored_congr (stored_ioStore (untranslated_of_flags h (by simp)) .two _ _) ⟨rfl, rfl, rfl, rfl, rfl, rfl, rfl⟩ ⟨rfl, rfl, rfl, rfl, rfl, rfl, rfl⟩

/-- The state after the entry of an exception taken in `s` (60_exceptions.md R260), before the instruction ends. -/
def State.entered (s : State) (w : TransferWidth) (returnTo vector : Word) (brk : Bool) : State :=
  ((s.framed w returnTo).withFlags (enteredFlags brk s.flags)).withNextPc
    ((s.framed w returnTo).ioValue (transferSize w) vector)

/-- Taking an interrupt (60_exceptions.md R256). -/
theorem takeInterrupt_untranslated {s : State} (h : s.untranslated) (src : IntSource) :
    takeInterrupt src s =
      .next (((s.startInstr 0).entered (Config.intEntry src).width s.pc (Config.intEntry src).vector
        false).endInstr.dropSource src) := by
  have hu : (s.startInstr 0).untranslated := h
  simp only [takeInterrupt, takeException_untranslated hu, State.startInstr_flags, State.entered]

/-- The registers after an entry: SP has moved, execution continues at the address found at the vector. -/
theorem regsAfter_entered (s : State) (len : Word) (w : TransferWidth) (returnTo vector : Word) (brk : Bool)
    (next : Word) (hn : next = ((s.startInstr len).framed w returnTo).ioValue (transferSize w) vector) :
    RegsAfter s ((s.startInstr len).entered w returnTo vector brk).endInstr
      (onlyReg .r6 (s.r6 - BitVec.ofNat 32 (Size.bytes (transferSize w)) - 2)) next := by
  apply regsAfter_endInstr <;> simp [State.entered, onlyReg, hn]

theorem regsAfter_dropSource {s t : State} {w : RegWrites} {next : Word} (h : RegsAfter s t w next) (src : IntSource) :
    RegsAfter s (t.dropSource src) w next :=
  ⟨fun r h0 h7 => (by cases r <;> rfl : (t.dropSource src).reg r = t.reg r).trans (h.general r h0 h7),
    h.implicit, h.valid, h.held, h.pc⟩

theorem State.ioValue_entered (s : State) (w : TransferWidth) (returnTo vector : Word) (brk : Bool) (n : Size) (a : Word) :
    (s.entered w returnTo vector brk).endInstr.ioValue n a = (s.framed w returnTo).ioValue n a := by
  cases n <;> simp only [State.entered, State.ioValue, State.ioByte, State.busByte, State.busMem, State.endInstr_mem,
    State.withNextPc_mem, State.withFlags_mem]

theorem State.ioValue_dropSource (s : State) (src : IntSource) (n : Size) (a : Word) :
    (s.dropSource src).ioValue n a = s.ioValue n a := by cases n <;> rfl

/-- Returning (43_control_system.md R187): Flags from the word above SP, the address from above that. -/
theorem returnFromException_untranslated {s : State} (h : s.untranslated) (w : TransferWidth) :
    returnFromException w s =
      .ok () (((s.regWrite .r6 (s.r6 + 2 + BitVec.ofNat 32 (Size.bytes (transferSize w)))).writeFlags
        ((s.ioValue .two (s.r6 + 2)).setWidth 16) ((s.ioValue .two (s.r6 + 2)).setWidth 16)).withNextPc
          (s.ioValue (transferSize w) (s.r6 + 2 + BitVec.ofNat 32 (Size.bytes (transferSize w))))) := by
  have h1 : (s.regWrite .r6 (s.r6 + 2)).untranslated := untranslated_of_flags h (by simp)
  rw [returnFromException, pop_untranslated h, Res.bind_ok]
  change ((pop (transferSize w) (s.regWrite .r6 (s.r6 + 2))).bind _) = _
  rw [pop_untranslated h1, Res.bind_ok]
  simp only [State.regWrite_r6, if_true, State.ioValue_regWrite]
  rfl

/-- The target of JSR is found before the push (43_control_system.md R181). -/
theorem jsrTarget_untranslated {s : State} (h : s.untranslated) (target : AluSrc) (w : TransferWidth) :
    jsrTarget target w s = .ok (s.jsrValue target w) s := by
  cases target <;> cases w <;>
    simp [jsrTarget, memRead_untranslated h, State.jsrValue, offsetWord_eq, transferTarget, State.longImmediate]
  ext i hi; simp

end Sys2Proof.Machine
end

