-- ==== Sys2Proof/Laws/Keeps.lean ====
section
/-! SUPPORT. What every shared operation keeps, whatever the MMU answers: a property of the state that the primitive
updates keep is kept by each operation, where it ends normally and where it meets an access trap. -/

namespace Sys2Proof.Machine

/-- Every state a part of an instruction can leave, by its end or by an access trap, has `P`. -/
def Res.All {α : Type} (P : State → Prop) (x : Res α) : Prop :=
  match x with
  | .ok _ s => P s
  | .trap _ _ s => P s
  | .refused _ => True

theorem Res.All.bind {α β : Type} {P Q : State → Prop} {x : Res α} {k : α → State → Res β} (hx : x.All P)
    (ht : ∀ s, P s → Q s) (hk : ∀ a s, P s → (k a s).All Q) : (x.bind k).All Q := by
  cases x with
  | ok a s => exact hk a s hx
  | trap va kind s => exact ht s hx
  | refused r => trivial

theorem Res.All.bind_same {α β : Type} {P : State → Prop} {x : Res α} {k : α → State → Res β} (hx : x.All P)
    (hk : ∀ a s, P s → (k a s).All P) : (x.bind k).All P := hx.bind (fun _ h => h) hk

/-- The updates a data access is made of keep `P`. -/
structure MemStable (P : State → Prop) : Prop where
  draw : ∀ s, P s → P s.afterDraw
  tlb : ∀ s l, P s → P { s with tlb := l }
  write : ∀ s bus a v, P s → P (s.busWrite bus a v)
  request : ∀ s i, P s → P (s.request i)

/-- The updates of registers keep `P` too. -/
structure Stable (P : State → Prop) : Prop extends MemStable P where
  regWrite : ∀ s i v, P s → P (s.regWrite i v)
  nextPc : ∀ s t, P s → P (s.withNextPc t)

variable {P : State → Prop}

/-! ### Data accesses -/

theorem translate_all (h : MemStable P) (kind : AccessKind) (va : Word) {s : State} (hs : P s) :
    (translate kind va s).All P := by
  unfold translate
  split
  · split
    · exact h.tlb _ _ (h.draw _ hs)
    · exact h.tlb _ _ (h.draw _ hs)
  · exact hs

theorem loadByte_all (h : MemStable P) (va : Word) {s : State} (hs : P s) : (loadByte va s).All P :=
  (translate_all h _ _ hs).bind_same fun _ _ h => h

theorem routedWrite_all (h : MemStable P) (r : Routing) (a : Word) (v : Byte) {s : State} (hs : P s) :
    P (s.routedWrite r a v) := by
  cases r with
  | ioBus => exact h.write s .io a v hs
  | sdram => exact h.write s .sdram a v hs
  | writeBothReadSdram => exact h.write _ .sdram a v (h.write s .io a v hs)

theorem storeByte_all (h : MemStable P) (va : Word) (v : Byte) {s : State} (hs : P s) : (storeByte va v s).All P := by
  refine (translate_all h _ _ hs).bind_same fun p s hs => ?_
  change P (State.noteRomWrite _ _)
  unfold State.noteRomWrite
  split
  · exact h.request _ _ (routedWrite_all h _ _ _ hs)
  · exact routedWrite_all h _ _ _ hs

theorem loadBytes_all (h : MemStable P) (n : Nat) (va : Word) {s : State} (hs : P s) : (loadBytes n va s).All P := by
  induction n generalizing va s with
  | zero => exact hs
  | succ n ih =>
    exact (loadByte_all h va hs).bind_same fun _ _ hs => (ih (va + 1) hs).bind_same fun _ _ hs => hs

theorem storeBytes_all (h : MemStable P) (bs : List Byte) (va : Word) {s : State} (hs : P s) :
    (storeBytes va bs s).All P := by
  induction bs generalizing va s with
  | nil => exact hs
  | cons b bs ih => exact (storeByte_all h va b hs).bind_same fun _ _ hs => ih (va + 1) hs

theorem memRead_all (h : MemStable P) (n : Size) (a : Word) {s : State} (hs : P s) : (memRead n a s).All P :=
  (loadBytes_all h _ _ hs).bind_same fun _ _ hs => hs

theorem memWrite_all (h : MemStable P) (n : Size) (a v : Word) {s : State} (hs : P s) : (memWrite n a v s).All P :=
  storeBytes_all h _ _ hs

/-! ### Operand forms, the stack, exceptions -/

theorem laneWrite_all (h : Stable P) (i : Reg) (w : Width) (v : BitVec (widthBitCount w)) {s : State} (hs : P s) :
    P (s.laneWrite i w v) := h.regWrite _ _ _ hs

theorem effAddr_all (h : Stable P) (m : MemOp) (n : Size) {s : State} (hs : P s) : (effAddr m n s).All P := by
  unfold effAddr
  split
  · trivial
  · cases m with
    | indirect b => exact hs
    | indexed b o => exact hs
    | autoInc b => exact h.regWrite _ _ _ hs
    | autoDec b => exact h.regWrite _ _ _ hs

theorem stAddr_all (h : Stable P) (m : MemOp) (d : Reg) (n : Size) {s : State} (hs : P s) :
    (stAddr m d n s).All P := by
  unfold stAddr
  split
  · exact hs
  · exact effAddr_all h _ _ hs

theorem aluOperand_all (h : Stable P) (src : AluSrc) (w : Width) {s : State} (hs : P s) :
    (aluOperand src w s).All P := by
  cases src with
  | indirect b => exact (memRead_all h.toMemStable _ _ hs).bind_same fun _ _ h => h
  | indexed b o => exact (memRead_all h.toMemStable _ _ hs).bind_same fun _ _ h => h
  | reg r => exact hs
  | imm v => exact hs

theorem unOperand_all (h : Stable P) (op : UnOp) (w : Width) {s : State} (hs : P s) : (unOperand op w s).All P := by
  cases op with
  | indirect b => exact (memRead_all h.toMemStable _ _ hs).bind_same fun _ _ h => h
  | indexed b o => exact (memRead_all h.toMemStable _ _ hs).bind_same fun _ _ h => h
  | reg r => exact hs

theorem shiftResult_all (h : Stable P) (op : UnOp) (w : Width) (r : BitVec (widthBitCount w)) {s : State} (hs : P s) :
    (shiftResult op w r s).All P := by
  unfold shiftResult
  split
  · split
    · exact memWrite_all h.toMemStable _ _ _ (laneWrite_all h _ _ _ hs)
    · exact laneWrite_all h _ _ _ hs
  · exact laneWrite_all h _ _ _ hs

theorem push_all (h : Stable P) (n : Size) (v : Word) {s : State} (hs : P s) : (push n v s).All P :=
  (memWrite_all h.toMemStable _ _ _ hs).bind_same fun _ _ hs => h.regWrite _ _ _ hs

theorem pop_all (h : Stable P) (n : Size) {s : State} (hs : P s) : (pop n s).All P :=
  memRead_all h.toMemStable _ _ (h.regWrite _ _ _ hs)

theorem jsrTarget_all (h : Stable P) (t : AluSrc) (w : TransferWidth) {s : State} (hs : P s) :
    (jsrTarget t w s).All P := by
  cases t with
  | indirect b => exact memRead_all h.toMemStable _ _ hs
  | indexed b o => exact memRead_all h.toMemStable _ _ hs
  | reg r => exact hs
  | imm v => cases w <;> exact hs

theorem afterFlagsRead_all (h : Stable P) {s : State} (hs : P s) : P s.afterFlagsRead := by
  unfold State.afterFlagsRead
  split
  · split
    · exact hs
    · exact h.draw _ hs
  · exact hs
  · exact hs

/-- Taking an exception keeps what the primitive updates and setting I and B keep. -/
theorem takeException_all (h : Stable P) (hf : ∀ s b, P s → P (s.withFlags (enteredFlags b s.flags)))
    (w : TransferWidth) (ret vec : Word) (brk : Bool) {s : State} (hs : P s) :
    (takeException w ret vec brk s).All P := by
  refine (push_all h _ _ (afterFlagsRead_all h hs)).bind_same fun _ s hs => ?_
  refine (push_all h _ _ hs).bind_same fun _ s hs => ?_
  exact (memRead_all h.toMemStable _ _ (hf s brk hs)).bind_same fun _ _ hs => h.nextPc _ _ hs

theorem returnFromException_all (h : Stable P) (hf : ∀ s f r, P s → P (s.writeFlags f r)) (w : TransferWidth)
    {s : State} (hs : P s) : (returnFromException w s).All P := by
  refine (pop_all h _ hs).bind_same fun _ s hs => ?_
  exact (pop_all h _ hs).bind_same fun _ s hs => h.nextPc _ _ (hf _ _ _ hs)

/-! ### Whole instructions -/

/-- What a next state of an outcome has. -/
def NextAll (P : State → Prop) (o : Host.Outcome State Fault Refusal) : Prop :=
  match o with
  | .next s => P s
  | .fault _ => True
  | .refused _ => True

theorem takeMmuTrap_all {Q : State → Prop} (h : Stable P) (hf : ∀ s b, P s → P (s.withFlags (enteredFlags b s.flags)))
    (he : ∀ s, P s → Q s.endInstr) (va : Word) (kind : AccessKind) {s0 s1 : State}
    (h0 : P { s0 with tlb := s1.tlb, draws := s1.draws }) (h1 : P s1) : NextAll Q (takeMmuTrap va kind s0 s1) := by
  unfold takeMmuTrap
  dsimp only
  have ha : P (if (Config.mmuTrapEntry va s0.pc kind).undo then { s0 with tlb := s1.tlb, draws := s1.draws } else s1) := by
    split
    · exact h0
    · exact h1
  have := takeException_all h hf (Config.mmuTrapEntry va s0.pc kind).width (Config.mmuTrapEntry va s0.pc kind).returnTo
    (Config.mmuTrapEntry va s0.pc kind).vector false ha
  revert this
  cases takeException _ _ _ _ _ with
  | ok a s => exact fun h => he s h
  | trap va kind s => exact fun _ => trivial
  | refused r => exact fun _ => trivial

/-- An instruction whose body keeps `P` ends in a state with `Q`, an access trap taken or not. -/
theorem run_all {Q : State → Prop} (h : Stable P) (hf : ∀ s b, P s → P (s.withFlags (enteredFlags b s.flags)))
    (he : ∀ s, P s → Q s.endInstr) {len : Word} {body : State → Res Unit} {s : State}
    (hd : ∀ n l, P { s.startInstr len with tlb := l, draws := n })
    (hb : (body (s.startInstr len)).All P) : NextAll Q (run len body s) := by
  unfold run
  revert hb
  cases body (s.startInstr len) with
  | ok a s' => exact fun h => he s' h
  | trap va kind s' => exact fun h' => takeMmuTrap_all h hf he va kind (hd _ _) h'
  | refused r => exact fun _ => trivial

end Sys2Proof.Machine
end

