-- ==== Sys2Proof/Laws/PerInstr.lean ====
section
/-! SUPPORT. What is stated of every instruction as syntax, one lemma per constructor. -/

namespace Sys2Proof.Laws

/-- The encoder writes an operand word exactly where the decoder asks for one (30_encoding.md R102), so that the length
known from the first two bytes is the length of the encoding. -/
def OperandMatchesEncoding.Statement (i : Sys2Proof.Instr) : Prop :=
  i.WellFormed → Sys2Proof.takesOperand (Sys2Proof.encodeFields i).1 = (Sys2Proof.encodeFields i).2.isSome

namespace OperandMatchesEncoding

open Sys2Proof

theorem or (src : AluSrc) (rd : Reg) (w : Width) :
    Statement (.or src rd w) := by intro _; cases src <;> rfl

theorem and (src : AluSrc) (rd : Reg) (w : Width) :
    Statement (.and src rd w) := by intro _; cases src <;> rfl

theorem eor (src : AluSrc) (rd : Reg) (w : Width) :
    Statement (.eor src rd w) := by intro _; cases src <;> rfl

theorem add (src : AluSrc) (rd : Reg) (w : Width) :
    Statement (.add src rd w) := by intro _; cases src <;> rfl

theorem addc (src : AluSrc) (rd : Reg) (w : Width) :
    Statement (.addc src rd w) := by intro _; cases src <;> rfl

theorem sub (src : AluSrc) (rd : Reg) (w : Width) :
    Statement (.sub src rd w) := by intro _; cases src <;> rfl

theorem subc (src : AluSrc) (rd : Reg) (w : Width) :
    Statement (.subc src rd w) := by intro _; cases src <;> rfl

theorem cmp (src : AluSrc) (rd : Reg) (w : Width) :
    Statement (.cmp src rd w) := by intro _; cases src <;> rfl

theorem ld (src : MemOp) (rd : Reg) (w : Width) :
    Statement (.ld src rd w) := by intro _; cases src <;> rfl

theorem st (dst : MemOp) (data : Reg) (w : Width) :
    Statement (.st dst data w) := by intro _; cases dst <;> rfl

theorem mov (src : MovSrc) (rd : Reg) (w : Width) :
    Statement (.mov src rd w) := by
  intro _
  cases src <;> simp [encodeFields, withMode, movSrcFields, takesOperand]

theorem movx (src : MovSrc) (rd : Reg) (w : Width) :
    Statement (.movx src rd w) := by
  intro _
  cases src <;> simp [encodeFields, withMode, movSrcFields, takesOperand]

theorem jsr (target : AluSrc) (w : TransferWidth) :
    Statement (.jsr target w) := by intro _; cases target <;> rfl

theorem ret (w : TransferWidth) :
    Statement (.ret w) := fun _ => rfl

theorem trap (t : BitVec 5) (w : TransferWidth) :
    Statement (.trap t w) := fun _ => rfl

theorem trapb (t : BitVec 5) (w : TransferWidth) :
    Statement (.trapb t w) := fun _ => rfl

theorem reti (w : TransferWidth) :
    Statement (.reti w) := fun _ => rfl

theorem lcntr (src : MemOp) (w : CntrWidth) :
    Statement (.lcntr src w) := by intro _; cases src <;> rfl

theorem scntr (dst : MemOp) (w : CntrWidth) :
    Statement (.scntr dst w) := by intro _; cases dst <;> rfl

theorem cflag (k : BitVec 4) :
    Statement (.cflag k) := fun _ => rfl

theorem sflag (k : BitVec 4) :
    Statement (.sflag k) := fun _ => rfl

theorem lmmu (src : MemOp) (n : MmuReg) :
    Statement (.lmmu src n) := by intro _; cases src <;> rfl

theorem smmu (dst : MemOp) (n : MmuReg) :
    Statement (.smmu dst n) := by intro _; cases dst <;> rfl

theorem shl (op : UnOp) (k : Amount) (w : Width) :
    Statement (.shl op k w) := by intro _; cases op <;> rfl

theorem shlc (op : UnOp) (k : Amount) (w : Width) :
    Statement (.shlc op k w) := by intro _; cases op <;> rfl

theorem shr (op : UnOp) (k : Amount) (w : Width) :
    Statement (.shr op k w) := by intro _; cases op <;> rfl

theorem shrc (op : UnOp) (k : Amount) (w : Width) :
    Statement (.shrc op k w) := by intro _; cases op <;> rfl

theorem inc (op : UnOp) (w : Width) :
    Statement (.inc op w) := by intro _; cases op <;> rfl

theorem dec (op : UnOp) (w : Width) :
    Statement (.dec op w) := by intro _; cases op <;> rfl

theorem swap (op : UnOp) (w : Width) :
    Statement (.swap op w) := by
  intro h
  cases op <;> cases w <;>
    first
    | (exfalso; revert h; exact (by decide : ¬ false = true))
    | simp [encodeFields, withMode, unOpFields, takesOperand, widthBits]

theorem mirror (op : UnOp) (w : Width) :
    Statement (.mirror op w) := by
  intro h
  cases op <;> cases w <;>
    first
    | (exfalso; revert h; exact (by decide : ¬ false = true))
    | simp [encodeFields, withMode, unOpFields, takesOperand, widthBits]

theorem bit (op : UnOp) (w : Width) :
    Statement (.bit op w) := by intro _; cases op <;> rfl

theorem bpl (taken : Bool) (disp : BitVec 20) :
    Statement (.bpl taken disp) := fun _ =>
  takesOperand_branchFields _ _ _ (by decide)

theorem bmi (taken : Bool) (disp : BitVec 20) :
    Statement (.bmi taken disp) := fun _ =>
  takesOperand_branchFields _ _ _ (by decide)

theorem bvc (taken : Bool) (disp : BitVec 20) :
    Statement (.bvc taken disp) := fun _ =>
  takesOperand_branchFields _ _ _ (by decide)

theorem bvs (taken : Bool) (disp : BitVec 20) :
    Statement (.bvs taken disp) := fun _ =>
  takesOperand_branchFields _ _ _ (by decide)

theorem bcc (taken : Bool) (disp : BitVec 20) :
    Statement (.bcc taken disp) := fun _ =>
  takesOperand_branchFields _ _ _ (by decide)

theorem bcs (taken : Bool) (disp : BitVec 20) :
    Statement (.bcs taken disp) := fun _ =>
  takesOperand_branchFields _ _ _ (by decide)

theorem bne (taken : Bool) (disp : BitVec 20) :
    Statement (.bne taken disp) := fun _ =>
  takesOperand_branchFields _ _ _ (by decide)

theorem beq (taken : Bool) (disp : BitVec 20) :
    Statement (.beq taken disp) := fun _ =>
  takesOperand_branchFields _ _ _ (by decide)

theorem bge (taken : Bool) (disp : BitVec 20) :
    Statement (.bge taken disp) := fun _ =>
  takesOperand_branchFields _ _ _ (by decide)

theorem blt (taken : Bool) (disp : BitVec 20) :
    Statement (.blt taken disp) := fun _ =>
  takesOperand_branchFields _ _ _ (by decide)

theorem bgt (taken : Bool) (disp : BitVec 20) :
    Statement (.bgt taken disp) := fun _ =>
  takesOperand_branchFields _ _ _ (by decide)

theorem ble (taken : Bool) (disp : BitVec 20) :
    Statement (.ble taken disp) := fun _ =>
  takesOperand_branchFields _ _ _ (by decide)

theorem bpo (taken : Bool) (disp : BitVec 20) :
    Statement (.bpo taken disp) := fun _ =>
  takesOperand_branchFields _ _ _ (by decide)

theorem bra (taken : Bool) (disp : BitVec 20) :
    Statement (.bra taken disp) := fun _ =>
  takesOperand_branchFields _ _ _ (by decide)

theorem reserved1011x111 (mm : BitVec 2) (a : BitVec 3) (c : BitVec 2) :
    Statement (.reserved1011x111 mm a c) := fun _ => rfl

theorem reserved1110x101 (mm : BitVec 2) (a : BitVec 3) (c : BitVec 2) :
    Statement (.reserved1110x101 mm a c) := by
  intro _
  simp [encodeFields, plainFields, takesOperand]

theorem reserved1110x110 (mm : BitVec 2) (a : BitVec 3) (c : BitVec 2) :
    Statement (.reserved1110x110 mm a c) := by
  intro _
  simp [encodeFields, plainFields, takesOperand]

theorem reserved1110x111 (mm : BitVec 2) (a : BitVec 3) (c : BitVec 2) :
    Statement (.reserved1110x111 mm a c) := by
  intro _
  simp [encodeFields, plainFields, takesOperand]

theorem reservedShlMode11 (a : BitVec 3) (b : BitVec 3) (c : BitVec 2) :
    Statement (.reservedShlMode11 a b c) := by
  intro _
  simp [encodeFields, plainFields, takesOperand]

theorem reservedShrMode11 (a : BitVec 3) (b : BitVec 3) (c : BitVec 2) :
    Statement (.reservedShrMode11 a b c) := by
  intro _
  simp [encodeFields, plainFields, takesOperand]

theorem reservedUnaryMode11 (a : BitVec 3) (b : BitVec 3) (c : BitVec 2) :
    Statement (.reservedUnaryMode11 a b c) := by
  intro _
  simp only [encodeFields, plainFields, takesOperand]
  simp
  split <;> simp

theorem reservedSwapB (mm : BitVec 2) (a : BitVec 3) :
    Statement (.reservedSwapB mm a) := by
  intro _
  simp [encodeFields, plainFields, takesOperand]

theorem reservedMirrorHL (mm : BitVec 2) (a : BitVec 3) (c0 : Bool) :
    Statement (.reservedMirrorHL mm a c0) := by
  intro _
  simp [encodeFields, plainFields, takesOperand]
  cases c0 <;> exact fun _ => rfl

theorem reservedBranchTest1101 (taken : Bool) (b : BitVec 3) (c : BitVec 2) :
    Statement (.reservedBranchTest1101 taken b c) := by
  intro _
  cases taken <;> simp [encodeFields, plainFields, takesOperand]

theorem reservedBranchTest1111 (taken : Bool) (b : BitVec 3) (c : BitVec 2) :
    Statement (.reservedBranchTest1111 taken b c) := by
  intro _
  cases taken <;> simp [encodeFields, plainFields, takesOperand]

theorem reservedBranchExtend0 (mm : BitVec 2) (a : BitVec 3) (d : BitVec 2) (c : BitVec 2) :
    Statement (.reservedBranchExtend0 mm a d c) := by
  intro _
  have e : (0#1 ++ d : BitVec (1 + 2)).getLsbD 2 = false := by rw [BitVec.getLsbD_append]; simp
  change ((0#1 ++ d : BitVec (1 + 2)).getLsbD 2 && _) = false
  rw [e, Bool.false_and]

end OperandMatchesEncoding

end Sys2Proof.Laws
end

