-- ==== Sys2Proof/Tests/Slice0.lean ====
section
/-! SUPPORT. The model's own tests: the well-formedness checks, the decoding of a word of every row of the opcode table
written out field by field from its pattern (op, mm, 11, and the fields of its format), one or two single steps of each
instruction with the start and end states of spec/95_test_vectors.md (the label stands in the name), and for each
obligation that has hypotheses a state and operands that meet them. -/

namespace Sys2Proof.Tests

open Sys2Proof Sys2Proof.Machine

/-! ### Well-formedness refuses what has no encoding -/

theorem test_wf_swap_byte : (Instr.swap (.reg .r1) .byte).wf = false := by decide
theorem test_wf_mirror_high : (Instr.mirror (.reg .r1) .high).wf = false := by decide
theorem test_wf_mirror_long : (Instr.mirror (.reg .r1) .long).wf = false := by decide
theorem test_wf_unary_mode11_b5 : (Instr.reservedUnaryMode11 0 5 0).wf = false := by decide
theorem test_wf_unary_mode11_b6 : (Instr.reservedUnaryMode11 0 6 0).wf = false := by decide
theorem test_wf_unary_mode11_b7 : (Instr.reservedUnaryMode11 0 7 0).wf = false := by decide
theorem test_wf_swapB_mode11 : (Instr.reservedSwapB 3 0).wf = false := by decide
theorem test_wf_mirrorHL_mode11 : (Instr.reservedMirrorHL 3 0 false).wf = false := by decide
theorem test_wf_extend0_test1101 : (Instr.reservedBranchExtend0 1 6 0 0).wf = false := by decide
theorem test_wf_extend0_test1111 : (Instr.reservedBranchExtend0 3 7 0 0).wf = false := by decide

/-! ### One word of every row, its bits written out -/

theorem test_decode_or : decode [0b0000_10_11, 0b010_001_00] =
    .instr (.or (.reg .r2) .r1 .byte) [] := by decide
theorem test_decode_and : decode [0b0001_11_11, 0b000_011_01, 0x0F, 0x0F] =
    .instr (.and (.imm 0x0F0F) .r3 .word) [] := by decide
theorem test_decode_eor : decode [0b0010_01_11, 0b010_001_00, 0x00, 0x80] =
    .instr (.eor (.indexed .r2 0x8000) .r1 .byte) [] := by decide
theorem test_decode_add : decode [0b0011_11_11, 0b000_001_11, 0x34, 0x12] =
    .instr (.add (.imm 0x1234) .r1 .long) [] := by decide
theorem test_decode_addc : decode [0b0100_00_11, 0b101_110_10] =
    .instr (.addc (.indirect .r5) .r6 .high) [] := by decide
theorem test_decode_sub : decode [0b0101_11_11, 0b000_001_00, 0x03, 0x00] =
    .instr (.sub (.imm 3) .r1 .byte) [] := by decide
theorem test_decode_subc : decode [0b0110_11_11, 0b000_001_01, 0x34, 0x12] =
    .instr (.subc (.imm 0x1234) .r1 .word) [] := by decide
theorem test_decode_cmp : decode [0b0111_10_11, 0b001_111_11] =
    .instr (.cmp (.reg .r1) .r7 .long) [] := by decide
theorem test_decode_ld : decode [0b1000_01_11, 0b010_001_10, 0x10, 0x00] =
    .instr (.ld (.indexed .r2 0x10) .r1 .high) [] := by decide
theorem test_decode_st : decode [0b1001_11_11, 0b110_000_11] =
    .instr (.st (.autoDec .r6) .r0 .long) [] := by decide
theorem test_decode_mov : decode [0b1010_01_11, 0b000_000_10, 0x34, 0x12] =
    .instr (.mov (.imm 0x1234) .r0 .high) [] := by decide
theorem test_decode_movx : decode [0b1010_10_11, 0b010_001_00] =
    .instr (.movx (.reg .r2) .r1 .byte) [] := by decide
theorem test_decode_jsr : decode [0b1011_11_11, 0b000_000_01, 0x00, 0x20] =
    .instr (.jsr (.imm 0x2000) .long) [] := by decide
theorem test_decode_ret : decode [0b1011_00_11, 0b000_001_01] =
    .instr (.ret .long) [] := by decide
theorem test_decode_trap : decode [0b1011_01_11, 0b001_010_01] =
    .instr (.trap 5 .long) [] := by decide
theorem test_decode_trapb : decode [0b1011_11_11, 0b111_010_10] =
    .instr (.trapb 31 .word) [] := by decide
theorem test_decode_reti : decode [0b1011_00_11, 0b000_011_00] =
    .instr (.reti .word) [] := by decide
theorem test_decode_lcntr : decode [0b1011_10_11, 0b010_100_01] =
    .instr (.lcntr (.autoInc .r2) .word) [] := by decide
theorem test_decode_scntr : decode [0b1011_01_11, 0b010_100_11, 0x02, 0x00] =
    .instr (.scntr (.indexed .r2 2) .word) [] := by decide
theorem test_decode_cflag : decode [0b1011_01_11, 0b100_101_00] =
    .instr (.cflag 9) [] := by decide
theorem test_decode_sflag : decode [0b1011_11_11, 0b101_101_00] =
    .instr (.sflag 11) [] := by decide
theorem test_decode_lmmu : decode [0b1011_00_11, 0b010_110_00] =
    .instr (.lmmu (.indirect .r2) .m0) [] := by decide
theorem test_decode_smmu : decode [0b1011_11_11, 0b010_110_11] =
    .instr (.smmu (.autoDec .r2) .m1) [] := by decide
theorem test_decode_shl : decode [0b1100_10_11, 0b001_000_11] =
    .instr (.shl (.reg .r1) .four .long) [] := by decide
theorem test_decode_shlc : decode [0b1100_10_11, 0b001_101_00] =
    .instr (.shlc (.reg .r1) .one .byte) [] := by decide
theorem test_decode_shr : decode [0b1101_01_11, 0b101_011_11, 0x34, 0x12] =
    .instr (.shr (.indexed .r5 0x1234) .three .long) [] := by decide
theorem test_decode_shrc : decode [0b1101_00_11, 0b011_110_10] =
    .instr (.shrc (.indirect .r3) .two .high) [] := by decide
theorem test_decode_inc : decode [0b1110_01_11, 0b000_000_00, 0xFF, 0x00] =
    .instr (.inc (.indexed .r0 0xFF) .byte) [] := by decide
theorem test_decode_dec : decode [0b1110_10_11, 0b001_001_10] =
    .instr (.dec (.reg .r1) .high) [] := by decide
theorem test_decode_swap : decode [0b1110_00_11, 0b010_010_11] =
    .instr (.swap (.indirect .r2) .long) [] := by decide
theorem test_decode_mirror : decode [0b1110_10_11, 0b001_011_01] =
    .instr (.mirror (.reg .r1) .word) [] := by decide
theorem test_decode_bit : decode [0b1110_01_11, 0b011_100_01, 0x04, 0x00] =
    .instr (.bit (.indexed .r3 4) .word) [] := by decide
theorem test_decode_bpl : decode [0b1111_00_11, 0b00_0_1_0000, 0x10, 0x00] =
    .instr (.bpl false 0x10) [] := by decide
theorem test_decode_bmi : decode [0b1111_01_11, 0b00_1_1_0000, 0x10, 0x00] =
    .instr (.bmi true 0x10) [] := by decide
theorem test_decode_bvc : decode [0b1111_10_11, 0b00_0_1_1000, 0x00, 0x00] =
    .instr (.bvc false 0x80000) [] := by decide
theorem test_decode_bvs : decode [0b1111_11_11, 0b00_0_1_0111, 0xFF, 0xFF] =
    .instr (.bvs false 0x7FFFF) [] := by decide
theorem test_decode_bcc : decode [0b1111_00_11, 0b01_0_1_0001, 0x02, 0x00] =
    .instr (.bcc false 0x10002) [] := by decide
theorem test_decode_bcs : decode [0b1111_01_11, 0b01_1_1_0000, 0x00, 0x01] =
    .instr (.bcs true 0x100) [] := by decide
theorem test_decode_bne : decode [0b1111_10_11, 0b01_0_1_1111, 0xF8, 0xFF] =
    .instr (.bne false 0xFFFF8) [] := by decide
theorem test_decode_beq : decode [0b1111_11_11, 0b01_1_1_0000, 0x10, 0x00] =
    .instr (.beq true 0x10) [] := by decide
theorem test_decode_bge : decode [0b1111_00_11, 0b10_0_1_0000, 0x10, 0x00] =
    .instr (.bge false 0x10) [] := by decide
theorem test_decode_blt : decode [0b1111_01_11, 0b10_0_1_0000, 0x34, 0x12] =
    .instr (.blt false 0x1234) [] := by decide
theorem test_decode_bgt : decode [0b1111_10_11, 0b10_1_1_1010, 0xCD, 0xAB] =
    .instr (.bgt true 0xAABCD) [] := by decide
theorem test_decode_ble : decode [0b1111_11_11, 0b10_0_1_0000, 0x10, 0x00] =
    .instr (.ble false 0x10) [] := by decide
theorem test_decode_bpo : decode [0b1111_00_11, 0b11_0_1_0000, 0x10, 0x00] =
    .instr (.bpo false 0x10) [] := by decide
theorem test_decode_bra : decode [0b1111_10_11, 0b11_0_1_1111, 0xFE, 0xFF] =
    .instr (.bra false 0xFFFFE) [] := by decide
theorem test_decode_reserved1011x111 : decode [0b1011_10_11, 0b011_111_01] =
    .instr (.reserved1011x111 2 3 1) [] := by decide
theorem test_decode_reserved1110x101 : decode [0b1110_01_11, 0b100_101_10] =
    .instr (.reserved1110x101 1 4 2) [] := by decide
theorem test_decode_reserved1110x110 : decode [0b1110_11_11, 0b001_110_11] =
    .instr (.reserved1110x110 3 1 3) [] := by decide
theorem test_decode_reserved1110x111 : decode [0b1110_00_11, 0b111_111_00] =
    .instr (.reserved1110x111 0 7 0) [] := by decide
theorem test_decode_reservedShlMode11 : decode [0b1100_11_11, 0b001_001_11] =
    .instr (.reservedShlMode11 1 1 3) [] := by decide
theorem test_decode_reservedShrMode11 : decode [0b1101_11_11, 0b010_100_01] =
    .instr (.reservedShrMode11 2 4 1) [] := by decide
theorem test_decode_reservedUnaryMode11 : decode [0b1110_11_11, 0b001_100_10] =
    .instr (.reservedUnaryMode11 1 4 2) [] := by decide
theorem test_decode_reservedSwapB : decode [0b1110_10_11, 0b001_010_00] =
    .instr (.reservedSwapB 2 1) [] := by decide
theorem test_decode_reservedMirrorHL : decode [0b1110_01_11, 0b110_011_10] =
    .instr (.reservedMirrorHL 1 6 false) [] := by decide
theorem test_decode_reservedBranchTest1101 : decode [0b1111_01_11, 0b11_0_1_0000] =
    .instr (.reservedBranchTest1101 false 4 0) [] := by decide
theorem test_decode_reservedBranchTest1111 : decode [0b1111_11_11, 0b11_1_0_0110] =
    .instr (.reservedBranchTest1111 true 1 2) [] := by decide
theorem test_decode_reservedBranchExtend0 : decode [0b1111_10_11, 0b11_0_0_0101] =
    .instr (.reservedBranchExtend0 2 6 1 1) [] := by decide

/-! ### Words that are no extended instruction, or cut short -/

theorem test_decode_base_set : decode [0xEA] = .rejected (.sixFiveOhTwo 0xEA) := by decide
theorem test_decode_one_byte : decode [0x0B] = .rejected .truncated := by decide
theorem test_decode_no_operand : decode [0x5F, 0x04, 0x03] = .rejected .truncated := by decide

/-! ### Single steps -/

/-- Registers 0, pc = $1000, the instruction's bytes there (95_test_vectors.md, conventions). -/
def at1000 (code : List Byte) : State :=
  { State.reset with pc := 0x1000, nextPc := 0x1000, mem := placeBytes [] 0x1000 code }

/-- More bytes in memory. -/
def withBytes (s : State) (a : Word) (bs : List Byte) : State := { s with mem := placeBytes s.mem a bs }

/-- R0 readable with the value `v`. -/
def withRi (s : State) (v : Word) : State := { s with ri := v, riValid := true, riHold := true }

/-- The step gives a next state with `p`. -/
def nextHas (s : State) (p : State → Bool) : Bool :=
  match step s with
  | .next t => p t
  | .fault _ => false
  | .refused _ => false

/-- The step is refused for the reason `r`. -/
def refusedFor (s : State) (r : Refusal) : Bool :=
  match step s with
  | .next _ => false
  | .fault _ => false
  | .refused q => q == r

theorem test_or_VA1 :
    nextHas ({ at1000 [0x0B, 0x44] with r1 := 0x12345678, r2 := 0xF0 })
    (fun t => t.r1 == 0x123456F8 && t.flags == 0x0080) = true := by decide

theorem test_and_VA4 :
    nextHas ({ at1000 [0x1B, 0x46] with r1 := 0xFFFF5555, r2 := 0xFFAAAA })
    (fun t => t.r1 == 0x00FF5555 && t.flags == 0) = true := by decide

theorem test_eor_VA6 :
    nextHas (withBytes { at1000 [0x27, 0x44, 0x00, 0x80] with r1 := 0xFF, r2 := 0x1000 } 0x9000 [0x0F])
    (fun t => t.r1 == 0xF0 && t.flags == 0x0080) = true := by decide

theorem test_add_VA9 :
    nextHas ({ at1000 [0x3B, 0x45] with r1 := 0xAAAA8000, r2 := 0x8000 })
    (fun t => t.r1 == 0xAAAA0000 && t.flags == 0x0043) = true := by decide

theorem test_add_VA12 :
    nextHas ({ at1000 [0x3B, 0x3F] with r1 := 0x100 })
    (fun t => t.pc == 0x1102 && t.flags == 0) = true := by decide

theorem test_addc_VA14 :
    nextHas ({ at1000 [0x4B, 0x47] with r1 := 0x7FFFFFFF, flags := 1 })
    (fun t => t.r1 == 0x80000000 && t.flags == 0x00C0) = true := by decide

theorem test_addc_VA15 :
    nextHas ({ at1000 [0x4B, 0x47] with r1 := 0xFFFFFFFF, flags := 1 })
    (fun t => t.r1 == 0 && t.flags == 0x0003) = true := by decide

theorem test_sub_VA16 :
    nextHas ({ at1000 [0x5F, 0x04, 0x03, 0x00] with r1 := 5 })
    (fun t => t.r1 == 0xFE && t.flags == 0x0081) = true := by decide

theorem test_sub_VA18 :
    nextHas ({ at1000 [0x5F, 0x04, 0x80, 0x00] with r1 := 1 })
    (fun t => t.r1 == 0x7F && t.flags == 0x0040) = true := by decide

theorem test_subc_VA21 :
    nextHas ({ at1000 [0x6B, 0x45] with r1 := 3, r2 := 3, flags := 1 })
    (fun t => t.r1 == 0xFFFF && t.flags == 0x0081) = true := by decide

theorem test_cmp_VA22 :
    nextHas ({ at1000 [0x7F, 0x07, 0x10, 0x00] with r1 := 0x10, flags := 0x40 })
    (fun t => t.r1 == 0x10 && t.flags == 0x0042) = true := by decide

theorem test_cmp_VA23 :
    nextHas ({ at1000 [0x7B, 0x44] with r1 := 0x20, r2 := 0x10 })
    (fun t => t.r1 == 0x20 && t.flags == 0x0081) = true := by decide

theorem test_ld_VL3 :
    nextHas (withBytes { at1000 [0x87, 0x46, 0x10, 0x00] with r1 := 0x11223344, r2 := 0x2000 } 0x2010 [0xCD, 0xAB])
    (fun t => t.r1 == 0xABCD3344 && t.flags == 0x0080) = true := by decide

theorem test_ld_VL7 :
    nextHas (withBytes { at1000 [0x8F, 0xC5] with r6 := 0x8000 } 0x8000 [0x34, 0x12])
    (fun t => t.r1 == 0x1234 && t.r6 == 0x7FFE) = true := by decide

theorem test_st_VS16 :
    nextHas ({ at1000 [0x9F, 0xC7] with r1 := 0x11223344, r6 := 0x8000 })
    (fun t => t.r6 == 0x7FFC && t.ioValue .four 0x8000 == 0x11223344) = true := by decide

theorem test_st_VS19 :
    nextHas (withRi (at1000 [0x97, 0x00, 0xFF, 0x00]) 0x41)
    (fun t => t.ioByte 0xFF == 0x41 && !t.riValid) = true := by decide

theorem test_mov_VM6 :
    nextHas (withRi (at1000 [0xA7, 0x0B, 0x78, 0x56]) 0x12340000)
    (fun t => t.r2 == 0x12345678 && t.flags == 0) = true := by decide

theorem test_mov_VM9 :
    nextHas (at1000 [0xA3, 0xE7])
    (fun t => t.r1 == 0x1002 && t.pc == 0x1002) = true := by decide

theorem test_movx_VM10 :
    nextHas ({ at1000 [0xAB, 0x44] with r1 := 0x11223344, r2 := 0x80 })
    (fun t => t.r1 == 0xFFFFFF80 && t.flags == 0x0080) = true := by decide

theorem test_movx_VM13 :
    nextHas ({ at1000 [0xAB, 0x46] with r2 := 0x8001FFFF })
    (fun t => t.r1 == 0xFFFF8001) = true := by decide

theorem test_jsr_VC2 :
    nextHas (withRi ({ at1000 [0xBF, 0x01, 0x00, 0x20] with r6 := 0x8000 }) 0x120000)
    (fun t => t.pc == 0x122000 && t.ioValue .four 0x8000 == 0x1003) = true := by decide

theorem test_jsr_VC3 :
    nextHas ({ at1000 [0xBB, 0x40] with r2 := 0x12343000, r6 := 0x1FF })
    (fun t => t.pc == 0x3000 && t.r6 == 0x1FD && t.ioValue .two 0x1FF == 0x1001) = true := by decide

theorem test_ret_VC9 :
    nextHas (withBytes { at1000 [0xB3, 0x04] with r6 := 0x1FD } 0x1FF [0xFF, 0xFF])
    (fun t => t.pc == 0x10000 && t.r6 == 0x1FF) = true := by decide

theorem test_trap_VC10 :
    nextHas ({ at1000 [0xB7, 0x29] with r6 := 0x8000, flags := 0xC1 })
    (fun t => t.r6 == 0x7FFA && t.flags == 0x00C5 && t.ioValue .four 0x8000 == 0x1002 && t.ioValue .two 0x7FFC == 0xC1) = true := by decide

theorem test_trapb_VC11 :
    nextHas ({ at1000 [0xBF, 0xEA] with r6 := 0x1FF })
    (fun t => t.r6 == 0x1FB && t.flags == 0x0014 && t.ioValue .two 0x1FF == 0x1002) = true := by decide

theorem test_reti_VC14 :
    nextHas (withBytes (withBytes { at1000 [0xB3, 0x0D] with r6 := 0x7FFA, flags := 4 } 0x7FFC [0xC1, 0x00]) 0x8000 [0x02, 0x10, 0x00, 0x00])
    (fun t => t.pc == 0x1002 && t.r6 == 0x8000 && t.flags == 0x00C1) = true := by decide

theorem test_lcntr_VC16 :
    nextHas (withBytes { at1000 [0xBB, 0x51] with r2 := 0x2000 } 0x2000 [0xC3, 0x30])
    (fun t => t.flags == 0x30C3 && t.r2 == 0x2002) = true := by decide

theorem test_lcntr_VC17 :
    nextHas (withBytes { at1000 [0xB3, 0x50] with r2 := 0x2000, flags := 0x3000 } 0x2000 [0xFF])
    (fun t => t.flags == 0x30FF) = true := by decide

theorem test_scntr_VC19 :
    nextHas ({ at1000 [0xB7, 0x53, 0x02, 0x00] with r2 := 0x2000, flags := 0x30C3 })
    (fun t => t.ioValue .two 0x2002 == 0x30C3 && t.flags == 0x30C3) = true := by decide

theorem test_scntr_VC20 :
    nextHas ({ at1000 [0xBF, 0xD2] with r6 := 0x1FF, flags := 0x30C3 })
    (fun t => t.ioByte 0x1FF == 0xC3 && t.r6 == 0x1FE) = true := by decide

theorem test_cflag_VC22 :
    nextHas ({ at1000 [0xB7, 0x94] with flags := 0x7FFF })
    (fun t => t.flags == 0x7DFF) = true := by decide

theorem test_sflag_VC24 :
    nextHas (at1000 [0xBB, 0x14])
    (fun t => t.flags == 1) = true := by decide

theorem test_lmmu_VC27 :
    nextHas (withBytes { at1000 [0xB3, 0x58] with r2 := 0x2000, m0 := 1, m1 := 2 } 0x2000 [0x00, 0x10, 0x00, 0x80])
    (fun t => t.m0 == 0x80001000 && t.m1 == 2 && t.flags == 0x0080) = true := by decide

theorem test_smmu_VC29 :
    nextHas ({ at1000 [0xBF, 0x5B] with r2 := 0x2004, m0 := 1, m1 := 0x12345678 })
    (fun t => t.r2 == 0x2000 && t.ioValue .four 0x2000 == 0x12345678) = true := by decide

theorem test_shl_VH4 :
    nextHas ({ at1000 [0xCB, 0x2A] with r1 := 0x4001FFFF })
    (fun t => t.r1 == 0x0004FFFF && t.flags == 1) = true := by decide

theorem test_shlc_VH7 :
    nextHas ({ at1000 [0xCB, 0x31] with r1 := 0x1234, flags := 1 })
    (fun t => t.r1 == 0x234F && t.flags == 1) = true := by decide

theorem test_shr_VH9 :
    nextHas (withBytes { at1000 [0xD7, 0xAF, 0x34, 0x12] with r5 := 0x2000 } 0x3234 [0x09, 0x00, 0x00, 0x80])
    (fun t => t.ri == 0x10000001 && t.riValid && t.ioByte 0x3234 == 9) = true := by decide

theorem test_shrc_VH13 :
    nextHas ({ at1000 [0xDB, 0x3E] with r1 := 0x8004AAAA, flags := 1 })
    (fun t => t.r1 == 0xF000AAAA && t.flags == 0x0081) = true := by decide

theorem test_inc_VU1 :
    nextHas ({ at1000 [0xEB, 0x20] with r1 := 0x112233FF, flags := 0x41 })
    (fun t => t.r1 == 0x11223300 && t.flags == 0x0043) = true := by decide

theorem test_inc_VU3 :
    nextHas (withBytes (at1000 [0xE7, 0x00, 0xFF, 0x00]) 0xFF [0x41])
    (fun t => t.ri == 0x42 && t.riValid && t.ioByte 0xFF == 0x41) = true := by decide

theorem test_dec_VU7 :
    nextHas ({ at1000 [0xEB, 0x26] with r1 := 0x1234 })
    (fun t => t.r1 == 0xFFFF1234 && t.flags == 0x0080) = true := by decide

theorem test_swap_VU9 :
    nextHas ({ at1000 [0xEB, 0x2A] with r1 := 0x11223344 })
    (fun t => t.r1 == 0x22113344) = true := by decide

theorem test_swap_VU10 :
    nextHas ({ at1000 [0xEB, 0x2B] with r1 := 0x11223344 })
    (fun t => t.r1 == 0x33441122) = true := by decide

theorem test_mirror_VU14 :
    nextHas ({ at1000 [0xEB, 0x2D] with r1 := 0x11221234 })
    (fun t => t.r1 == 0x11222C48) = true := by decide

theorem test_bit_VU17 :
    nextHas (withBytes { at1000 [0xE7, 0x71, 0x04, 0x00] with r1 := 0x8000, r3 := 0x3000, flags := 0xC2 } 0x3004 [0x00, 0x80])
    (fun t => t.flags == 0) = true := by decide

theorem test_bit_VU18 :
    nextHas ({ at1000 [0xEB, 0x52] with r1 := 0x400000, r2 := 0xC0FFFF })
    (fun t => t.flags == 0x00C0) = true := by decide

theorem test_bpl_VB1 :
    nextHas (at1000 [0xF3, 0x10, 0x10, 0x00])
    (fun t => t.pc == 0x1012) = true := by decide

theorem test_bmi_VB3 :
    nextHas ({ at1000 [0xF7, 0x10, 0x10, 0x00] with flags := 0x80 })
    (fun t => t.pc == 0x1012) = true := by decide

theorem test_bvc_VB6 :
    nextHas ({ at1000 [0xFB, 0x10, 0x10, 0x00] with flags := 0x40 })
    (fun t => t.pc == 0x1004) = true := by decide

theorem test_bvs_VB7 :
    nextHas ({ at1000 [0xFF, 0x10, 0x10, 0x00] with flags := 0x40 })
    (fun t => t.pc == 0x1012) = true := by decide

theorem test_bcc_VB10 :
    nextHas ({ at1000 [0xF3, 0x50, 0x10, 0x00] with flags := 1 })
    (fun t => t.pc == 0x1004) = true := by decide

theorem test_bcs_VB11 :
    nextHas ({ at1000 [0xF7, 0x50, 0x10, 0x00] with flags := 1 })
    (fun t => t.pc == 0x1012) = true := by decide

theorem test_bne_VB13 :
    nextHas (at1000 [0xFB, 0x50, 0x10, 0x00])
    (fun t => t.pc == 0x1012) = true := by decide

theorem test_beq_VB34 :
    nextHas (at1000 [0xFF, 0x70, 0x10, 0x00])
    (fun t => t.pc == 0x1004) = true := by decide

theorem test_bge_VB17 :
    nextHas ({ at1000 [0xF3, 0x90, 0x10, 0x00] with flags := 0xC0 })
    (fun t => t.pc == 0x1012) = true := by decide

theorem test_bge_VB18 :
    nextHas ({ at1000 [0xF3, 0x90, 0x10, 0x00] with flags := 0x80 })
    (fun t => t.pc == 0x1004) = true := by decide

theorem test_blt_VB19 :
    nextHas ({ at1000 [0xF7, 0x90, 0x10, 0x00] with flags := 0x40 })
    (fun t => t.pc == 0x1012) = true := by decide

theorem test_bgt_VB22 :
    nextHas ({ at1000 [0xFB, 0x90, 0x10, 0x00] with flags := 2 })
    (fun t => t.pc == 0x1004) = true := by decide

theorem test_bgt_VB27 :
    nextHas ({ at1000 [0xFB, 0x90, 0x10, 0x00] with flags := 0x80 })
    (fun t => t.pc == 0x1004) = true := by decide

theorem test_ble_VB28 :
    nextHas ({ at1000 [0xFF, 0x90, 0x10, 0x00] with flags := 0xC2 })
    (fun t => t.pc == 0x1012) = true := by decide

theorem test_bpo_VB25 :
    nextHas (at1000 [0xF3, 0xD0, 0x10, 0x00])
    (fun t => t.pc == 0x1012) = true := by decide

theorem test_bpo_VB29 :
    nextHas ({ at1000 [0xF3, 0xD0, 0x10, 0x00] with flags := 0x80 })
    (fun t => t.pc == 0x1004) = true := by decide

theorem test_bra_VB32 :
    nextHas (at1000 [0xFB, 0xF7, 0xFF, 0xFF])
    (fun t => t.pc == 0x81001) = true := by decide

theorem test_bra_VB33 :
    nextHas (at1000 [0xFB, 0xD8, 0x00, 0x00])
    (fun t => t.pc == 0xFFF81002) = true := by decide

theorem test_ld_base_is_destination_VL10 :
    refusedFor ({ at1000 [0x8B, 0x4B] with r2 := 0x2000 })
    .autoModeBaseIsDestination = true := by decide

theorem test_ld_base_r0_VL11 :
    refusedFor (at1000 [0x8B, 0x04])
    .autoModeBaseR0 = true := by decide

theorem test_st_base_is_data_VS22 :
    refusedFor ({ at1000 [0x9F, 0x4B] with r2 := 0x2004 })
    .autoModeBaseIsData = true := by decide

theorem test_reserved1011x111_VC31 :
    refusedFor (at1000 [0xB3, 0x1C])
    .reservedExpansion = true := by decide

theorem test_reserved1110x101_VU20 :
    refusedFor (at1000 [0xE3, 0x34])
    .reservedExpansion = true := by decide

theorem test_reserved1110x110 :
    refusedFor (at1000 [0xE3, 0x18])
    .reservedExpansion = true := by decide

theorem test_reserved1110x111 :
    refusedFor (at1000 [0xE3, 0x1C])
    .reservedExpansion = true := by decide

theorem test_reservedShlMode11_VH17 :
    refusedFor (at1000 [0xCF, 0x27])
    .reservedMode11 = true := by decide

theorem test_reservedShrMode11 :
    refusedFor (at1000 [0xDF, 0x27])
    .reservedMode11 = true := by decide

theorem test_reservedUnaryMode11_VU21 :
    refusedFor (at1000 [0xEF, 0x20])
    .reservedMode11 = true := by decide

theorem test_reservedSwapB_VU12 :
    refusedFor (at1000 [0xEB, 0x28])
    .reservedWidth = true := by decide

theorem test_reservedMirrorHL_VU15 :
    refusedFor (at1000 [0xEB, 0x2E])
    .reservedWidth = true := by decide

theorem test_reservedBranchTest1101_VB35 :
    refusedFor (at1000 [0xF7, 0xD0])
    .reservedBranchTest = true := by decide

theorem test_reservedBranchTest1111_VB36 :
    refusedFor (at1000 [0xFF, 0xD0])
    .reservedBranchTest = true := by decide

theorem test_reservedBranchExtend0_VB37 :
    refusedFor (at1000 [0xFB, 0xC0])
    .reservedExtend0 = true := by decide

/-! ### The hypotheses of the obligations can be met -/

/-- A state between two instructions, with nothing at rest, for the witnesses: R2 = $2000, SP = $8000. -/
def ready : State := { at1000 [0x0B, 0x44] with r2 := 0x2000, r6 := 0x8000 }

/-- The same with the MMU enabled. -/
def readyMmu : State := { ready with flags := 0x8000 }

/-- The instruction completes from the state. -/
def completes (i : Instr) (s : State) : Bool :=
  match exec i s with
  | .next _ => true
  | .fault _ => false
  | .refused _ => false

theorem exists_next {i : Instr} {s : State} (h : completes i s = true) : ∃ t, exec i s = .next t := by
  unfold completes at h
  revert h
  cases exec i s with
  | next t => exact fun _ => ⟨t, rfl⟩
  | fault r => exact (fun h => nomatch h)
  | refused r => exact (fun h => nomatch h)

theorem test_witness_DecodeEncodeAgree : (Instr.swap (.indexed .r7 0xFFFF) .long).WellFormed ∧
    (Instr.mirror (.reg .r0) .word).WellFormed ∧ (Instr.reservedUnaryMode11 7 4 3).WellFormed ∧
    (Instr.reservedBranchExtend0 1 5 3 3).WellFormed ∧ (Instr.bra true 0x80000).WellFormed := by decide

theorem test_witness_EveryWordDecodes : isExtended 0x03 = true ∧ isExtended 0xFF = true ∧
    isExtended 0x00 = false ∧ isExtended 0xFE = false := by decide

theorem test_witness_StepRunsDecodedInstruction : ready.untranslated ∧ ready.flag .ica = false ∧
    ready.interruptible = false ∧
    decode [ready.ioByte ready.pc, ready.ioByte (ready.pc + 1), ready.ioByte (ready.pc + 2),
      ready.ioByte (ready.pc + 3)] = .instr (.or (.reg .r2) .r1 .byte) [0, 0] := by decide

/-- The same with Flags.ICA = 1 and no byte stored to since the last flush. -/
def readyCached : State := { ready with flags := 0x2000, pending := [.mmu], riHold := true }

theorem test_witness_StepRunsDecodedInstruction_cached : readyCached.untranslated ∧ readyCached.flag .ica = true ∧
    readyCached.stale = [] ∧ readyCached.interruptible = false ∧
    decode [readyCached.ioByte readyCached.pc, readyCached.ioByte (readyCached.pc + 1),
      readyCached.ioByte (readyCached.pc + 2), readyCached.ioByte (readyCached.pc + 3)] =
        .instr (.or (.reg .r2) .r1 .byte) [0, 0] := by decide

theorem test_witness_BaseSetOpcodeRefused : State.reset.untranslated ∧ State.reset.flag .ica = false ∧
    State.reset.interruptible = false ∧ isExtended (State.reset.ioByte State.reset.pc) = false := by decide

theorem test_witness_InvariantKeptByStep : ready.Inv ∧ nextHas ready (fun _ => true) = true :=
  ⟨⟨by decide, by decide, rfl, rfl, rfl, by decide, by decide⟩, by decide⟩

theorem test_witness_UntranslatedStepsNeverFault :
    ready.untranslated ∧ ∃ t, exec (.st (.indirect .r2) .r1 .long) ready = .next t :=
  ⟨rfl, exists_next (by decide)⟩

theorem test_witness_LaneWriteIsExact : 0 < 32 ∧ 31 < 32 ∧ 15 < laneLow .high ∧ laneLow .high ≤ 16 ∧
    31 < laneLow .high + widthBitCount .high := by decide

theorem test_witness_LogicResult : ready.untranslated := rfl
theorem test_witness_AddResult : ready.untranslated := rfl
theorem test_witness_SubtractResult : ready.untranslated := rfl
theorem test_witness_CompareResult : ready.untranslated ∧ Reg.r7 ≠ .r0 := by decide

theorem test_witness_ComparisonDecidesOrder : ready.untranslated ∧
    (∃ t, exec (.cmp (.imm 0x8000) .r2 .word) ready = .next t) ∧
    ∃ u, exec (.sub (.imm 0x8000) .r2 .word) ready = .next u :=
  ⟨rfl, exists_next (by decide), exists_next (by decide)⟩

theorem test_witness_LoadResult : ready.untranslated ∧ autoBaseOk (.autoInc .r6) ∧
    (isAuto (.autoInc .r6) = true → memOpBase (.autoInc .r6) ≠ .r7) ∧ autoBaseOk (.indirect .r0) ∧
    (isAuto (.indirect .r0) = true → memOpBase (.indirect .r0) ≠ .r0) :=
  ⟨rfl, fun _ => by decide, fun _ => by decide, (fun h => nomatch h), (fun h => nomatch h)⟩

theorem test_witness_StoreResult : ready.untranslated ∧ autoBaseOk (.autoDec .r2) ∧
    (isAuto (.autoDec .r2) = true → memOpBase (.autoDec .r2) ≠ .r0) ∧ autoBaseOk (.indexed .r0 0xFFFF) ∧
    (isAuto (.indexed .r0 0xFFFF) = true → memOpBase (.indexed .r0 0xFFFF) ≠ .r0) :=
  ⟨rfl, fun _ => by decide, fun _ => by decide, (fun h => nomatch h), (fun h => nomatch h)⟩

theorem test_witness_RomControlStoreRequestsInterrupt : ready.untranslated ∧ autoBaseOk (.indexed .r0 0) ∧
    (isAuto (.indexed .r0 0) = true → memOpBase (.indexed .r0 0) ≠ .r0) ∧ autoBaseOk (.autoDec .r6) ∧
    (isAuto (.autoDec .r6) = true → memOpBase (.autoDec .r6) ≠ .r0) ∧
    storesMemory (.ld (.indirect .r0) .r1 .byte) = false ∧
    ∃ t, exec (.ld (.indirect .r0) .r1 .byte) ready = .next t :=
  ⟨rfl, (fun h => nomatch h), (fun h => nomatch h), fun _ => by decide, fun _ => by decide, rfl, exists_next (by decide)⟩

/-- M0, M1 and the TLB are consulted while Flags.MMU = 1 only (70_reset_and_hazards.md R281). -/
theorem test_mmuView : ({ ready with m0 := 1, m1 := 2 } : State).mmuView = none ∧
    ({ readyMmu with m0 := 1, m1 := 2 } : State).mmuView = some { m0 := 1, m1 := 2, tlb := [] } := by decide

/-- Which bytes a store covers, at the boundaries: $0000, $0001 (its other byte already written), the address before with a
wrap, and the first address after (60_exceptions.md R255). -/
theorem test_rom_addresses (v : Word) : ready.romChange 2 v 0 = false ∧ ready.romChange 0xFFFFFFFF v 0 = false ∧
    ready.romChange 0 v 0 = Config.romSignalsChange none (ready.ioByteAfter 0 0 v) (ready.busByte .sdram) 0 0 .ioBus
      (v.extractLsb' 0 8) ∧
    ready.romChange 0xFFFFFFFF v 2 = Config.romSignalsChange none (ready.ioByteAfter 0xFFFFFFFF 2 v)
      (ready.busByte .sdram) 1 1 .ioBus (v.extractLsb' 16 8) ∧
    ready.ioByteAfter 0xFFFFFFFF 2 0xABCDEF 0 = 0xCD ∧ ready.ioByteAfter 0xFFFFFFFF 1 0xABCDEF 0 = 0 :=
  ⟨rfl, rfl, rfl, rfl, by decide, by decide⟩

theorem test_witness_JsrResult : ready.untranslated := rfl
theorem test_witness_RetResult : ready.untranslated := rfl
theorem test_witness_CallReturnRoundTrip : ready.untranslated := rfl
theorem test_witness_MismatchedCallReturn : ready.untranslated := rfl
theorem test_witness_TrapResult : ready.untranslated := rfl
theorem test_witness_RetiResult : ready.untranslated := rfl

theorem test_witness_TrapReturnRoundTrip : ({ ready with flags := 0x33FF } : State).untranslated ∧
    ({ ready with flags := 0x33FF } : State).flags &&& flushMask = 0 := by decide

theorem test_witness_LoadFlagsResult : ready.untranslated ∧ autoBaseOk (.autoInc .r6) ∧ autoBaseOk (.indirect .r0) :=
  ⟨rfl, fun _ => by decide, (fun h => nomatch h)⟩
theorem test_witness_StoreFlagsResult : ready.untranslated ∧ autoBaseOk (.autoDec .r6) ∧ autoBaseOk (.indirect .r0) :=
  ⟨rfl, fun _ => by decide, (fun h => nomatch h)⟩
theorem test_witness_MmuRegisterTransfer : ready.untranslated ∧ autoBaseOk (.autoDec .r2) ∧ autoBaseOk (.indexed .r0 0) :=
  ⟨rfl, fun _ => by decide, (fun h => nomatch h)⟩

theorem test_witness_ShiftLeftResult : ready.untranslated ∧ 0 < widthBitCount .byte ∧ 31 < widthBitCount .long := by
  decide
theorem test_witness_ShiftRightResult : ready.untranslated ∧ 0 < widthBitCount .byte ∧ 31 < widthBitCount .long := by
  decide
theorem test_witness_IncrementResult : ready.untranslated := rfl
theorem test_witness_SwapMirrorResult : ready.untranslated ∧ Width.high ≠ .byte ∧
    (Width.byte = .byte ∨ Width.byte = .word) ∧ 15 < widthBitCount .high := by decide
theorem test_witness_BitTestResult : ready.untranslated := rfl

theorem test_witness_AutoModeConflictsRefused : isAuto (.autoInc .r0) = true ∧ memOpBase (.autoInc .r0) = .r0 ∧
    isAuto (.autoDec .r6) = true ∧ memOpBase (.autoDec .r6) ≠ .r0 ∧ memOpBase (.autoDec .r6) = .r6 := by decide

theorem test_witness_PushPopRoundTrip : ready.untranslated ∧ Reg.r7 ≠ .r6 ∧ Reg.r0 ≠ .r6 := by decide

theorem test_witness_MemoryIncrementIdiom : ready.untranslated ∧ Reg.r6 ≠ .r7 ∧ (Reg.r6 = .r0 → ready.riValid = false) ∧
    Reg.r0 ≠ .r7 ∧ (Reg.r0 = .r0 → ready.riValid = false) ∧ 4 ≤ (4 : Half).toNat ∧ 4 ≤ (0xFFFF : Half).toNat := by decide

theorem test_witness_ImplicitRegisterLivesOneInstruction : ready.untranslated ∧
    isCmpR0 (.ld (.indirect .r2) .r0 .byte) = false ∧ writesR0 (.ld (.indirect .r2) .r0 .byte) = true ∧
    (∃ t, exec (.ld (.indirect .r2) .r0 .byte) ready = .next t) ∧
    isCmpR0 (.cmp (.imm 0) .r1 .byte) = false ∧ writesR0 (.cmp (.imm 0) .r1 .byte) = false ∧
    ∃ t, exec (.cmp (.imm 0) .r1 .byte) ready = .next t :=
  ⟨rfl, rfl, rfl, exists_next (by decide), rfl, rfl, exists_next (by decide)⟩

theorem test_witness_OnlyLmmuWritesMmuRegisters : isLmmu (.smmu (.autoDec .r2) .m1) = false ∧
    ∃ t, exec (.smmu (.autoDec .r2) .m1) ready = .next t := ⟨rfl, exists_next (by decide)⟩

theorem test_witness_FlagsWrittenOnlyWhereListed : Flag.v ≠ .i ∧ Flag.v ≠ .b ∧
    mayWriteFlag (.cmp (.imm 0) .r1 .long) .v = false ∧ (∃ t, exec (.cmp (.imm 0) .r1 .long) ready = .next t) ∧
    Flag.bit8 ≠ .i ∧ Flag.bit8 ≠ .b ∧ mayWriteFlag (.lcntr (.indirect .r2) .byte) .bit8 = false ∧
    ∃ t, exec (.lcntr (.indirect .r2) .byte) ready = .next t :=
  ⟨by decide, by decide, rfl, exists_next (by decide), by decide, by decide, rfl, exists_next (by decide)⟩

theorem test_witness_NonStoringInstructionsKeepMemory : ready.untranslated ∧
    storesMemory (.inc (.indirect .r2) .long) = false ∧ ∃ t, exec (.inc (.indirect .r2) .long) ready = .next t :=
  ⟨rfl, rfl, exists_next (by decide)⟩

theorem test_witness_InstructionFetchCoherence : ready.untranslated ∧ ready.flag .ica = false ∧
    ({ ready with flags := 0x2000 } : State).untranslated := by decide

theorem test_witness_InterruptHeldOff : ready.pending = [] ∧ ({ ready with flags := 4 } : State).flag .i = true ∧
    (withRi ready 0).riHold = true := by decide

theorem test_witness_InterruptEntry : ({ ready with pending := [.mmu, .external 0] } : State).untranslated ∧
    ({ ready with pending := [.mmu, .external 0] } : State).interruptible = true := by decide

theorem test_witness_TranslatedLoad : autoBaseOk (.indexed .r2 0x3FF) ∧
    (isAuto (.indexed .r2 0x3FF) = true → memOpBase (.indexed .r2 0x3FF) ≠ .r2) ∧ autoBaseOk (.autoInc .r6) ∧
    (isAuto (.autoInc .r6) = true → memOpBase (.autoInc .r6) ≠ .r0) :=
  ⟨(fun h => nomatch h), (fun h => nomatch h), fun _ => by decide, fun _ => by decide⟩

theorem test_witness_TranslatedStore : autoBaseOk (.indirect .r0) ∧
    (isAuto (.indirect .r0) = true → memOpBase (.indirect .r0) ≠ .r0) ∧ autoBaseOk (.autoDec .r6) ∧
    (isAuto (.autoDec .r6) = true → memOpBase (.autoDec .r6) ≠ .r7) :=
  ⟨(fun h => nomatch h), (fun h => nomatch h), fun _ => by decide, fun _ => by decide⟩

/-- The byte accesses of a word at the top of the address space: the second wraps to 0 (20_memory.md R74, R75). -/
theorem test_byteAccesses_wrap : byteAccesses .write 0xFFFFFFFF (lowBytes 2 0xABCD) =
    [{ kind := .write, va := 0xFFFFFFFF, byte := 0xCD }, { kind := .write, va := 0, byte := 0xAB }] := by decide

/-- While Flags.MMU = 0 the last block of the address space is itself, on the I/O bus (20_memory.md R80). -/
theorem test_answer_untranslated : ready.answer .read 0xFFFFFFFF = .mapped 0x3FFFFF .ioBus := by decide

theorem test_witness_TranslationAfterFlush : ∃ t, exec (.sflag 14) readyMmu = .next t := exists_next (by decide)

theorem test_witness_TranslatedFetch : readyMmu.interruptible = false ∧ ready.interruptible = false := by decide

theorem test_witness_MmuAccessTrapEntry : readyMmu.riWritten = false ∧ readyMmu.riHoldNext = false ∧
    (readyMmu.startInstr 2).riWritten = false ∧ (readyMmu.startInstr 2).riHoldNext = false := by decide

theorem test_witness_TranslationIsTableOrTlb : readyMmu.flag .mmu = true := by decide

/-- A setting that a read has brought into the TLB stands there for a write and a fetch of the block too (20_memory.md
R85), and for no other block. -/
theorem test_tlb_kinds (a b c : BlockMapping) :
    tlbSettings [{ block := 5, setting := { fetch := a, read := b, write := c } }] 5 =
      [{ fetch := a, read := b, write := c }] ∧
    tlbSettings [{ block := 5, setting := { fetch := a, read := b, write := c } }] 6 = [] ∧
    settingMapping { fetch := a, read := b, write := c } .write = c ∧
    settingMapping { fetch := a, read := b, write := c } .fetch = a := ⟨rfl, rfl, rfl, rfl⟩

end Sys2Proof.Tests
end

section
/-! The bits of a lane write (00_scope.md R10, R11): bit `i` of `laneMask` says whether `i` lies in the lane, and
`laneMerge` selects by it between the value, moved up to `laneLow`, and the old register. -/

namespace Sys2Proof.Machine

/-- Every lane lies inside the register (00_scope.md R10). -/
theorem laneLow_add_widthBitCount_le (w : Width) : laneLow w + widthBitCount w ≤ 32 := by
  cases w <;> decide

/-- The mask of a lane holds exactly the lane's bits. -/
theorem laneMask_getLsbD (w : Width) (i : Nat) :
    (laneMask w).getLsbD i = decide (laneLow w ≤ i ∧ i < laneLow w + widthBitCount w) := by
  have hfit := laneLow_add_widthBitCount_le w
  rw [laneMask, BitVec.getLsbD_shiftLeft, BitVec.getLsbD_setWidth, BitVec.getLsbD_allOnes, Bool.eq_iff_iff]
  simp only [Bool.and_eq_true, Bool.not_eq_true', decide_eq_true_eq, decide_eq_false_iff_not]
  omega

/-- A bit of `laneMerge`: the register's bit where the mask is clear, or the bit of the value moved to the lane. -/
theorem laneMerge_getLsbD (w : Width) (t : Word) (v : BitVec (widthBitCount w)) {i : Nat} (hi : i < 32) :
    (laneMerge w t v).getLsbD i =
      (t.getLsbD i && !(laneMask w).getLsbD i || !decide (i < laneLow w) && v.getLsbD (i - laneLow w)) := by
  have hsub : i - laneLow w < 32 := Nat.lt_of_le_of_lt (Nat.sub_le _ _) hi
  rw [laneMerge, BitVec.getLsbD_or, BitVec.getLsbD_and, BitVec.getLsbD_not, BitVec.getLsbD_shiftLeft,
    BitVec.getLsbD_setWidth]
  simp only [hi, hsub, decide_true, Bool.true_and]

/-- Inside the lane, `laneMerge` holds the value written. -/
theorem laneMerge_getLsbD_of_mem_lane (w : Width) (t : Word) (v : BitVec (widthBitCount w)) {i : Nat}
    (hin : laneLow w ≤ i ∧ i < laneLow w + widthBitCount w) :
    (laneMerge w t v).getLsbD i = v.getLsbD (i - laneLow w) := by
  have hi : i < 32 := Nat.lt_of_lt_of_le hin.2 (laneLow_add_widthBitCount_le w)
  simp [laneMerge_getLsbD w t v hi, laneMask_getLsbD, hin]

/-- Outside the lane, `laneMerge` keeps the register's bits (D6). -/
theorem laneMerge_getLsbD_of_not_mem_lane (w : Width) (t : Word) (v : BitVec (widthBitCount w)) {i : Nat}
    (hi : i < 32) (hout : ¬ (laneLow w ≤ i ∧ i < laneLow w + widthBitCount w)) :
    (laneMerge w t v).getLsbD i = t.getLsbD i := by
  have hvalue : (!decide (i < laneLow w) && v.getLsbD (i - laneLow w)) = false := by
    by_cases hbelow : i < laneLow w
    · simp [hbelow]
    · have hpast : widthBitCount w ≤ i - laneLow w := by omega
      simp [BitVec.getLsbD_of_ge v _ hpast]
  rw [laneMerge_getLsbD w t v hi, laneMask_getLsbD, hvalue, decide_eq_false hout]
  simp

/-- Settles O11, by the two cases of a bit: in the lane or outside it. -/
theorem laneWriteIsExact : Obligations.LaneWriteIsExact := by
  intro w t v i hi
  split
  next hin => exact laneMerge_getLsbD_of_mem_lane w t v hin
  next hout => exact laneMerge_getLsbD_of_not_mem_lane w t v hi hout

end Sys2Proof.Machine
end

section
/-! The decoder on whole words (30_encoding.md R101, R102, R117 to R121): the fields of a first and second byte, the
instruction the fields stand for, and that every word is one. -/

namespace Sys2Proof

/-! ### Two bytes written field by field -/

/-- A first byte whose low two bits are 11 and a second byte are the word of their fields (R101, R103). -/
theorem append_fieldBytes (op : BitVec 4) (mm : BitVec 2) (a b : BitVec 3) (c : BitVec 2) :
    ((op ++ mm ++ 3#2 : Byte) ++ (a ++ b ++ c : Byte) : Half) = packFields ⟨op, mm, a, b, c⟩ := by
  simp only [packFields, BitVec.append_assoc', BitVec.cast_eq]

/-- The first byte of a word is an extended opcode's (R100). -/
theorem isExtended_fieldByte (op : BitVec 4) (mm : BitVec 2) : isExtended (op ++ mm ++ 3#2 : Byte) = true := by
  rw [isExtended, beq_iff_eq, BitVec.extractLsb'_append_eq_right]

/-- Two bytes whose fields ask for no operand word are the instruction of the fields (R102). -/
theorem decode_fieldBytes_short {op : BitVec 4} {mm : BitVec 2} {a b : BitVec 3} {c : BitVec 2} {i : Instr}
    (rest : List Byte) (hlen : takesOperand ⟨op, mm, a, b, c⟩ = false)
    (hinstr : decodeFields ⟨op, mm, a, b, c⟩ 0 = i) :
    decode ((op ++ mm ++ 3#2 : Byte) :: (a ++ b ++ c : Byte) :: rest) = .instr i rest := by
  simp only [decode, isExtended_fieldByte, append_fieldBytes, fieldsOf_packFields, hlen, hinstr, if_true, if_false,
    Bool.false_eq_true]

/-- Two bytes whose fields ask for an operand word are the instruction of the fields and the two bytes that follow, low
byte first (R101, R102). -/
theorem decode_fieldBytes_long {op : BitVec 4} {mm : BitVec 2} {a b : BitVec 3} {c : BitVec 2} {i : Instr}
    (lo hi : Byte) (rest : List Byte) (hlen : takesOperand ⟨op, mm, a, b, c⟩ = true)
    (hinstr : decodeFields ⟨op, mm, a, b, c⟩ (hi ++ lo) = i) :
    decode ((op ++ mm ++ 3#2 : Byte) :: (a ++ b ++ c : Byte) :: lo :: hi :: rest) = .instr i rest := by
  simp only [decode, isExtended_fieldByte, append_fieldBytes, fieldsOf_packFields, hlen, hinstr, if_true]

/-! ### The operand word of a decoded operand -/

/-- The sixteen opcodes of `hw[15:12]` (R103). -/
theorem opField_cases (op : BitVec 4) :
    op = 0#4 ∨ op = 1#4 ∨ op = 2#4 ∨ op = 3#4 ∨ op = 4#4 ∨ op = 5#4 ∨ op = 6#4 ∨ op = 7#4 ∨
      op = 8#4 ∨ op = 9#4 ∨ op = 10#4 ∨ op = 11#4 ∨ op = 12#4 ∨ op = 13#4 ∨ op = 14#4 ∨ op = 15#4 := by
  decide +revert

/-- The four modes of `hw[11:10]` (R105). -/
theorem modeField_cases (mm : BitVec 2) : mm = 0#2 ∨ mm = 1#2 ∨ mm = 2#2 ∨ mm = 3#2 := by
  decide +revert

/-- The eight rows that `hw[4:2]` selects within one opcode (R120). -/
theorem rowField_cases (b : BitVec 3) :
    b = 0#3 ∨ b = 1#3 ∨ b = 2#3 ∨ b = 3#3 ∨ b = 4#3 ∨ b = 5#3 ∨ b = 6#3 ∨ b = 7#3 := by
  decide +revert

theorem aluSrcFields_aluSrcOf_isSome (mm : BitVec 2) (a : BitVec 3) (o : Half) :
    (aluSrcFields (aluSrcOf mm a o)).2.2.isSome = (mm == 1#2 || mm == 3#2) := by
  obtain rfl | rfl | rfl | rfl := modeField_cases mm <;> rfl

theorem memOpFields_memOpOf_isSome (mm : BitVec 2) (a : BitVec 3) (o : Half) :
    (memOpFields (memOpOf mm a o)).2.2.isSome = (mm == 1#2) := by
  obtain rfl | rfl | rfl | rfl := modeField_cases mm <;> rfl

theorem unOpFields_unOpOf_isSome (mm : BitVec 2) (a : BitVec 3) (o : Half) :
    (unOpFields (unOpOf mm a o)).2.2.isSome = (mm == 1#2) := by
  obtain rfl | rfl | rfl | rfl := modeField_cases mm <;> rfl

theorem movSrcFields_movSrcOf_isSome (e : BitVec 1) (m : Bool) (a : BitVec 3) (o : Half) :
    (movSrcFields e (movSrcOf m a o)).2.2.isSome = m := by
  cases m <;> rfl

/-! ### Every word is an instruction -/

/-- What the instruction `i` read from a word is to be: the meaning of some word, and encoded with an operand word
exactly if the word that was read asks for one. -/
def Instr.FitsWord (i : Instr) (operand : Bool) : Prop :=
  i.WellFormed ∧ (encodeFields i).2.isSome = operand

/-- The length of an instruction is that of the word it was read from (R102). -/
theorem Instr.FitsWord.len_eq {i : Instr} {operand : Bool} (h : i.FitsWord operand) :
    i.len = if operand then 4 else 2 := by
  rw [← h.2]
  exact length_wordBytes _ _

/-- A choice fits a word when each side does where it is taken. -/
theorem Instr.FitsWord.ite {p : Prop} [Decidable p] {i j : Instr} {operand : Bool} (hi : p → i.FitsWord operand)
    (hj : ¬ p → j.FitsWord operand) : (if p then i else j).FitsWord operand := by
  split
  next hp => exact hi hp
  next hp => exact hj hp

/-- Opcode 1011, by `hw[4:2]` (R180). -/
theorem decodeSystem_fitsWord (mm : BitVec 2) (a b : BitVec 3) (c : BitVec 2) (o : Half) :
    (decodeSystem ⟨11, mm, a, b, c⟩ o).FitsWord (takesOperand ⟨11, mm, a, b, c⟩) := by
  have hmem := memOpFields_memOpOf_isSome mm a o
  obtain rfl | rfl | rfl | rfl | rfl | rfl | rfl | rfl := rowField_cases b
  · exact ⟨rfl, aluSrcFields_aluSrcOf_isSome mm a o⟩
  · exact ⟨rfl, rfl⟩
  · exact .ite (fun _ => ⟨rfl, rfl⟩) (fun _ => ⟨rfl, rfl⟩)
  · exact ⟨rfl, rfl⟩
  · exact .ite (fun _ => ⟨rfl, hmem⟩) (fun _ => ⟨rfl, hmem⟩)
  · exact .ite (fun _ => ⟨rfl, rfl⟩) (fun _ => ⟨rfl, rfl⟩)
  · exact .ite (fun _ => ⟨rfl, hmem⟩) (fun _ => ⟨rfl, hmem⟩)
  · exact ⟨rfl, rfl⟩

/-- Opcodes 1100 and 1101 with a listed mode (R112). -/
theorem decodeShift_fitsWord (f : Fields) (o : Half) : (decodeShift f o).FitsWord (f.mm == 1#2) := by
  have hop := unOpFields_unOpOf_isSome f.mm f.a o
  unfold decodeShift
  split
  · exact ⟨rfl, hop⟩
  · exact ⟨rfl, hop⟩
  · exact ⟨rfl, hop⟩
  · exact ⟨rfl, hop⟩

/-- The widths of MIRROR are those with `hw[1]` = 0 (R118 item 8). -/
theorem mirror_wf_of_getLsbD_one (op : UnOp) {c : BitVec 2} (h : ¬ c.getLsbD 1 = true) :
    (Instr.mirror op (widthOfBits c)).WellFormed := by
  have key : ∀ c : BitVec 2, ¬ c.getLsbD 1 = true →
      (widthOfBits c == .byte || widthOfBits c == .word) = true := by decide
  exact key c h

/-- The widths of SWAP are those but `.B` (R118 item 7). -/
theorem swap_wf_of_ne_zero (op : UnOp) {c : BitVec 2} (h : c ≠ 0#2) :
    (Instr.swap op (widthOfBits c)).WellFormed := by
  have key : ∀ c : BitVec 2, c ≠ 0#2 → (widthOfBits c != .byte) = true := by decide
  exact key c h

/-- Opcode 1110, by `hw[4:2]`, then mode 11, then the widths SWAP and MIRROR do not list (R118). -/
theorem decodeUnary_fitsWord (mm : BitVec 2) (a b : BitVec 3) (c : BitVec 2) (o : Half) :
    (decodeUnary ⟨14, mm, a, b, c⟩ o).FitsWord (takesOperand ⟨14, mm, a, b, c⟩) := by
  have hop := unOpFields_unOpOf_isSome mm a o
  have hlisted : ∀ v, v = true → (unOpFields (unOpOf mm a o)).2.2.isSome = (mm == 1#2 && v) := by
    rintro _ rfl
    rw [hop, Bool.and_true]
  have hreserved : ∀ v, v = false → false = (mm == 1#2 && v) := by
    rintro _ rfl
    rw [Bool.and_false]
  have hmode11 : mm = 3#2 → ∀ v, false = (mm == 1#2 && v) := by
    rintro rfl _
    rfl
  obtain rfl | rfl | rfl | rfl | rfl | rfl | rfl | rfl := rowField_cases b
  · exact .ite (fun h => ⟨rfl, hmode11 h true⟩) (fun _ => ⟨rfl, hlisted true rfl⟩)
  · exact .ite (fun h => ⟨rfl, hmode11 h true⟩) (fun _ => ⟨rfl, hlisted true rfl⟩)
  · refine .ite (fun h => ⟨rfl, hmode11 h (c != 0#2)⟩) fun h => .ite (fun hc => ?byte) (fun hc => ?wider)
    case byte => exact ⟨bne_iff_ne.2 h, hreserved (c != 0#2) (bne_eq_false_iff_eq.2 hc)⟩
    case wider => exact ⟨swap_wf_of_ne_zero _ hc, hlisted (c != 0#2) (bne_iff_ne.2 hc)⟩
  · refine .ite (fun h => ⟨rfl, hmode11 h (!c.getLsbD 1)⟩) fun h => .ite (fun hc => ?wider) (fun hc => ?byteOrWord)
    case wider => exact ⟨bne_iff_ne.2 h, hreserved (!c.getLsbD 1) (congrArg not hc)⟩
    case byteOrWord =>
      exact ⟨mirror_wf_of_getLsbD_one _ hc, hlisted (!c.getLsbD 1) (congrArg not (eq_false_of_ne_true hc))⟩
  · exact .ite (fun h => ⟨rfl, hmode11 h true⟩) (fun _ => ⟨rfl, hlisted true rfl⟩)
  · exact ⟨rfl, hreserved false rfl⟩
  · exact ⟨rfl, hreserved false rfl⟩
  · exact ⟨rfl, hreserved false rfl⟩

/-- The reserved tests 1101 and 1111 of opcode 1111, as the operand rule writes them (R118). -/
theorem reservedTest_eq (t mm : BitVec 2) :
    (t == 3#2 && mm.getLsbD 0) = decide ((t ++ mm).toNat = 13 ∨ (t ++ mm).toNat = 15) := by
  decide +revert

/-- The same tests, as `Instr.wf` writes them. -/
theorem mode_one_or_three_eq_getLsbD (mm : BitVec 2) : (mm == 1#2 || mm == 3#2) = mm.getLsbD 0 := by
  decide +revert

/-- Opcode 1111: a reserved test, then a branch where Extend is 1 (R115, R118). -/
theorem decodeBranch_fitsWord (mm : BitVec 2) (a b : BitVec 3) (c : BitVec 2) (o : Half) :
    (decodeBranch ⟨15, mm, a, b, c⟩ o).FitsWord (takesOperand ⟨15, mm, a, b, c⟩) := by
  have htakes : takesOperand ⟨15, mm, a, b, c⟩ =
      (b.getLsbD 2 && !decide ((a.extractLsb' 1 2 ++ mm).toNat = 13 ∨ (a.extractLsb' 1 2 ++ mm).toNat = 15)) := by
    rw [← reservedTest_eq]
    rfl
  rw [htakes]
  simp only [decodeBranch]
  split
  next h13 => exact ⟨rfl, by simp [h13, encodeFields, plainFields]⟩
  next h15 => exact ⟨rfl, by simp [h15, encodeFields, plainFields]⟩
  next h13 h15 =>
    have htest : decide ((a.extractLsb' 1 2 ++ mm).toNat = 13 ∨ (a.extractLsb' 1 2 ++ mm).toNat = 15) = false :=
      decide_eq_false (not_or.2 ⟨h13, h15⟩)
    rw [htest]
    refine .ite (fun hb => ?_) (fun hb => ⟨?_, ?_⟩)
    · rw [hb]
      split <;> exact ⟨rfl, rfl⟩
    · rw [Instr.WellFormed, Instr.wf, mode_one_or_three_eq_getLsbD, reservedTest_eq, htest]
      rfl
    · rw [eq_false_of_ne_true hb]
      rfl

/-- The decoder is total (R120): the fields of every word, with any operand word, are an instruction or a reserved
pattern whose encoding has an operand word exactly if the fields ask for one. -/
theorem decodeFields_fitsWord (f : Fields) (o : Half) : (decodeFields f o).FitsWord (takesOperand f) := by
  obtain ⟨op, mm, a, b, c⟩ := f
  have halu := aluSrcFields_aluSrcOf_isSome mm a o
  have hmem := memOpFields_memOpOf_isSome mm a o
  have hmov : ∀ e, (movSrcFields e (movSrcOf (mm.getLsbD 0) a o)).2.2.isSome = mm.getLsbD 0 := fun e =>
    movSrcFields_movSrcOf_isSome e (mm.getLsbD 0) a o
  obtain rfl | rfl | rfl | rfl | rfl | rfl | rfl | rfl | rfl | rfl | rfl | rfl | rfl | rfl | rfl | rfl :=
    opField_cases op
  · exact ⟨rfl, halu⟩
  · exact ⟨rfl, halu⟩
  · exact ⟨rfl, halu⟩
  · exact ⟨rfl, halu⟩
  · exact ⟨rfl, halu⟩
  · exact ⟨rfl, halu⟩
  · exact ⟨rfl, halu⟩
  · exact ⟨rfl, halu⟩
  · exact ⟨rfl, hmem⟩
  · exact ⟨rfl, hmem⟩
  · exact .ite (fun _ => ⟨rfl, hmov 1⟩) (fun _ => ⟨rfl, hmov 0⟩)
  · exact decodeSystem_fitsWord mm a b c o
  · exact .ite (fun h => ⟨rfl, by subst h; rfl⟩) (fun _ => decodeShift_fitsWord ⟨12, mm, a, b, c⟩ o)
  · exact .ite (fun h => ⟨rfl, by subst h; rfl⟩) (fun _ => decodeShift_fitsWord ⟨13, mm, a, b, c⟩ o)
  · exact decodeUnary_fitsWord mm a b c o
  · exact decodeBranch_fitsWord mm a b c o

/-! ### Instructions whose fields are split or partly ignored -/

/-- CFLAG and SFLAG: `hw[11]` chooses, and the number is `hw[7:5]` and `hw[10]` (R103). -/
theorem decodeFields_flagNumber (e : BitVec 1) (k : BitVec 4) (c : BitVec 2) (o : Half) :
    decodeFields ⟨11, e ++ k.extractLsb' 0 1, k.extractLsb' 1 3, 5, c⟩ o =
      if e.getLsbD 0 then .sflag k else .cflag k := by
  have hchoice : (e ++ k.extractLsb' 0 1 : BitVec 2).getLsbD 1 = e.getLsbD 0 := by decide +revert
  have hnumber : (k.extractLsb' 1 3 ++ (e ++ k.extractLsb' 0 1 : BitVec 2).extractLsb' 0 1 : BitVec 4) = k := by
    decide +revert
  change (if (e ++ k.extractLsb' 0 1 : BitVec 2).getLsbD 1 then Instr.sflag _ else Instr.cflag _) = _
  rw [hchoice, hnumber]

/-- MOV and MOVX with an immediate: `hw[11]` chooses, and the register field is not read (R103, R117). -/
theorem decodeFields_moveImm (e : Bool) (a b : BitVec 3) (c : BitVec 2) (o : Half) :
    decodeFields ⟨10, bits2 e true, a, b, c⟩ o =
      if e then .movx (.imm o) (regOfBits b) (widthOfBits c) else .mov (.imm o) (regOfBits b) (widthOfBits c) := by
  change (if (bits2 e true).getLsbD 1 then Instr.movx (movSrcOf ((bits2 e true).getLsbD 0) a o) _ _
    else Instr.mov (movSrcOf ((bits2 e true).getLsbD 0) a o) _ _) = _
  rw [bits2_getLsbD_one, bits2_getLsbD_zero]
  rfl

/-! ### The obligations -/

/-- Settles O3: `decodeFields_fitsWord` for a first byte that ends in 11, by whether its word asks for an operand. -/
theorem everyWordDecodes : Obligations.EveryWordDecodes := by
  refine ⟨fun b0 b1 b2 b3 hext => ?_, fun b0 rest hext => ?_⟩
  · cases hop : takesOperand (fieldsOf (b0 ++ b1)) with
    | true =>
      have hfit := decodeFields_fitsWord (fieldsOf (b0 ++ b1)) (b3 ++ b2)
      exact ⟨_, [], by simp only [decode, hext, hop, if_true], hfit.1, by rw [hfit.len_eq, hop]; rfl⟩
    | false =>
      have hfit := decodeFields_fitsWord (fieldsOf (b0 ++ b1)) 0
      exact ⟨_, [b2, b3], by simp only [decode, hext, hop, if_true, if_false, Bool.false_eq_true], hfit.1,
        by rw [hfit.len_eq, hop]; rfl⟩
  · simp only [decode, hext, if_false, Bool.false_eq_true]

/-- Settles O2, by evaluating the decoder on each string. -/
theorem specWordsDecode : Obligations.SpecWordsDecode := by
  unfold Obligations.SpecWordsDecode
  decide

/-- Settles O4: `decode_fieldBytes_short` and `decode_fieldBytes_long` give the instruction of the fields, which
`decodeFields` reads without the ignored ones. -/
theorem dontCareBitsIgnored : Obligations.DontCareBitsIgnored := by
  intro mm a b c x w k lo hi rest first imm rd width
  have hw : transferOfBit ((bits2 x w).getLsbD 0) = transferOfBit w := congrArg transferOfBit (bits2_getLsbD_zero x w)
  have himm : ∀ e, takesOperand ⟨10, bits2 e true, a, b, c⟩ = true := fun e => bits2_getLsbD_zero e true
  rw [← hw]
  refine ⟨?ret, ?reti, ?jsrIndirect, ?jsrIndexed, ?jsrReg, ?jsrImm, ?cflag, ?sflag,
    ?or, ?and, ?eor, ?add, ?addc, ?sub, ?subc, ?cmp, ?mov, ?movx⟩
  case ret | reti | jsrIndirect | jsrReg => exact decode_fieldBytes_short rest rfl rfl
  case jsrIndexed | jsrImm => exact decode_fieldBytes_long lo hi rest rfl rfl
  case cflag => exact decode_fieldBytes_short rest rfl (decodeFields_flagNumber 0 k c 0)
  case sflag => exact decode_fieldBytes_short rest rfl (decodeFields_flagNumber 1 k c 0)
  case or | and | eor | add | addc | sub | subc | cmp => exact decode_fieldBytes_long lo hi rest rfl rfl
  case mov => exact decode_fieldBytes_long lo hi rest (himm false) (decodeFields_moveImm false a b c (hi ++ lo))
  case movx => exact decode_fieldBytes_long lo hi rest (himm true) (decodeFields_moveImm true a b c (hi ++ lo))

end Sys2Proof
end

section
/-! CFLAG (43_control_system.md R188) and the encodings that are refused (30_encoding.md R118, R119). -/

namespace Sys2Proof.Machine

/-! ### CFLAG -/

/-- CFLAG completes from every state: it makes no access that could trap (R188). -/
theorem exec_cflag (k : BitVec 4) (s : State) :
    exec (.cflag k) s = .next ((s.startInstr 2).withFlags (setBit s.flags k.toNat false)).endInstr :=
  rfl

/-- An instruction that writes Flags only, with no flush requested, keeps both memories and what stands behind fetches,
translations and interrupts. -/
theorem memoryKept_withFlags (s : State) (len : Word) (f : Half) :
    MemoryKept s ((s.startInstr len).withFlags f).endInstr :=
  memoryKept_of_eq rfl rfl rfl rfl rfl

/-- Such an instruction keeps M0 and M1. -/
theorem mmuRegsKept_withFlags (s : State) (len : Word) (f : Half) :
    MmuRegsKept s ((s.startInstr len).withFlags f).endInstr :=
  ⟨rfl, rfl⟩

/-- CFLAG and SFLAG as bytes: `e` chooses, the flag number `k` is split over both bytes, and `c` is not read (R103). -/
theorem decode_flagNumber (e : BitVec 1) (k : BitVec 4) (c : BitVec 2) (rest : List Byte) :
    decode ((0xB#4 ++ e ++ k.extractLsb' 0 1 ++ 3#2) :: (k.extractLsb' 1 3 ++ 5#3 ++ c) :: rest) =
      .instr (if e.getLsbD 0 then .sflag k else .cflag k) rest := by
  have hfirst : (0xB#4 ++ e ++ k.extractLsb' 0 1 ++ 3#2 : Byte) = 0xB#4 ++ (e ++ k.extractLsb' 0 1) ++ 3#2 := by
    rw [BitVec.append_assoc', BitVec.cast_eq]
  rw [hfirst]
  exact decode_fieldBytes_short rest rfl (decodeFields_flagNumber e k c 0)

/-- Settles O28: the bytes are CFLAG's whatever `c`, and its next state differs from the old one by `setBit` alone. -/
theorem clearFlag : Obligations.ClearFlag := by
  intro k c rest s
  have hbits : ∀ j, j < 16 →
      (setBit s.flags k.toNat false).getLsbD j = if j = k.toNat then false else s.flags.getLsbD j :=
    fun j hj => getLsbD_setBit s.flags k.toNat j false hj
  exact ⟨decode_flagNumber 0 k c rest, _, exec_cflag k s, regsAfter_none s 2 _, hbits, memoryKept_withFlags s 2 _,
    mmuRegsKept_withFlags s 2 _⟩

/-! ### Refused encodings -/

/-- SWAP lists no `.B` (R118 item 7). -/
theorem exec_swap_byte (op : UnOp) (s : State) : exec (.swap op .byte) s = .refused .reservedWidth :=
  rfl

/-- MIRROR lists neither `.H` nor `.L` (R118 item 8). -/
theorem exec_mirror_of_unlisted (op : UnOp) {w : Width} (h : w = .high ∨ w = .long) (s : State) :
    exec (.mirror op w) s = .refused .reservedWidth :=
  if_pos h

/-- Settles O40: a reserved row means its refusal, and SWAP and MIRROR refuse the widths they do not list. -/
theorem reservedEncodingsRefused : Obligations.ReservedEncodingsRefused := by
  intro mm c d a b x op s
  refine ⟨?expansion1011x111, ?expansion1110x101, ?expansion1110x110, ?expansion1110x111,
    ?shlMode11, ?shrMode11, ?unaryMode11, ?swapB, ?mirrorHL, ?test1101, ?test1111, ?extend0,
    ?swapByte, ?mirrorHigh, ?mirrorLong⟩
  case expansion1011x111 | expansion1110x101 | expansion1110x110 | expansion1110x111 => rfl
  case shlMode11 | shrMode11 | unaryMode11 => rfl
  case swapB | mirrorHL => rfl
  case test1101 | test1111 | extend0 => rfl
  case swapByte => exact exec_swap_byte op s
  case mirrorHigh => exact exec_mirror_of_unlisted op (.inl rfl) s
  case mirrorLong => exact exec_mirror_of_unlisted op (.inr rfl) s

end Sys2Proof.Machine
end

section
/-! The branches (46_branch.md): the four bytes of a branch, read back by the decoder (30_encoding.md R115), and what
the common form of their meanings does (R230). -/

namespace Sys2Proof

/-! ### The bytes of a branch -/

/-- Table 2-7: the branch of a test code that is not reserved. -/
def branchOf (test : BitVec 4) : Bool → BitVec 20 → Instr :=
  match test.toNat with
  | 0 => .bpl
  | 1 => .bmi
  | 2 => .bvc
  | 3 => .bvs
  | 4 => .bcc
  | 5 => .bcs
  | 6 => .bne
  | 7 => .beq
  | 8 => .bge
  | 9 => .blt
  | 10 => .bgt
  | 11 => .ble
  | 12 => .bpo
  | _ => .bra

/-- With Extend = 1 and a test that is not reserved, the decoder reads a row of Table 2-7 (R115, R118). -/
theorem decodeBranch_of_extend {f : Fields} (o : Half)
    (htest : f.a.extractLsb' 1 2 ++ f.mm ≠ 13#4 ∧ f.a.extractLsb' 1 2 ++ f.mm ≠ 15#4) (hext : f.b.getLsbD 2 = true) :
    decodeBranch f o =
      branchOf (f.a.extractLsb' 1 2 ++ f.mm) (f.a.getLsbD 0) (f.b.extractLsb' 0 2 ++ f.c ++ o) := by
  simp only [decodeBranch, hext, if_true]
  generalize f.a.extractLsb' 1 2 ++ f.mm = test at htest ⊢
  obtain ⟨h13, h15⟩ := htest
  obtain rfl | rfl | rfl | rfl | rfl | rfl | rfl | rfl | rfl | rfl | rfl | rfl | rfl | rfl | rfl | rfl :=
    opField_cases test
  · exact rfl
  · exact rfl
  · exact rfl
  · exact rfl
  · exact rfl
  · exact rfl
  · exact rfl
  · exact rfl
  · exact rfl
  · exact rfl
  · exact rfl
  · exact rfl
  · exact rfl
  · exact absurd rfl h13
  · exact rfl
  · exact absurd rfl h15

/-- The test code of a branch is split over both bytes of `hw` (R115). -/
theorem branchFields_test (test : BitVec 4) (taken : Bool) (disp : BitVec 20) :
    (branchFields test taken disp).1.a.extractLsb' 1 2 ++ (branchFields test taken disp).1.mm = test := by
  have key : ∀ (test : BitVec 4) (taken : Bool),
      (test.extractLsb' 2 2 ++ BitVec.ofBool taken : BitVec 3).extractLsb' 1 2 ++ test.extractLsb' 0 2 = test := by
    decide
  exact key test taken

/-- The Taken hint is `hw[5]` (R115). -/
theorem branchFields_taken (test : BitVec 4) (taken : Bool) (disp : BitVec 20) :
    (branchFields test taken disp).1.a.getLsbD 0 = taken := by
  have key : ∀ (test : BitVec 4) (taken : Bool),
      (test.extractLsb' 2 2 ++ BitVec.ofBool taken : BitVec 3).getLsbD 0 = taken := by decide
  exact key test taken

/-- Extend is written 1 (46_branch.md R247). -/
theorem branchFields_extend (test : BitVec 4) (taken : Bool) (disp : BitVec 20) :
    (branchFields test taken disp).1.b.getLsbD 2 = true := by
  change (1#1 ++ disp.extractLsb' 18 2 : BitVec (1 + 2)).getLsbD 2 = true
  rw [BitVec.getLsbD_append]
  rfl

/-- The three pieces of disp20, put together again. -/
theorem branchFields_disp (test : BitVec 4) (taken : Bool) (disp : BitVec 20) :
    (branchFields test taken disp).1.b.extractLsb' 0 2 ++ (branchFields test taken disp).1.c ++
      disp.extractLsb' 0 16 = disp := by
  change (1#1 ++ disp.extractLsb' 18 2).extractLsb' 0 2 ++ disp.extractLsb' 16 2 ++ disp.extractLsb' 0 16 = disp
  rw [BitVec.extractLsb'_append_eq_right,
    BitVec.extractLsb'_append_extractLsb'_eq_extractLsb' (show 18 = 16 + 2 from rfl),
    BitVec.extractLsb'_append_extractLsb'_eq_extractLsb' (show 16 = 0 + 16 from rfl), BitVec.extractLsb'_eq_self]

/-- The second byte of a branch, as R115 draws it, is that of its fields. -/
theorem branch_secondByte (test : BitVec 4) (taken : Bool) (disp : BitVec 20) :
    (test.extractLsb' 2 2 ++ BitVec.ofBool taken ++ 1#1 ++ disp.extractLsb' 16 4 : Byte) =
      (test.extractLsb' 2 2 ++ BitVec.ofBool taken) ++ (1#1 ++ disp.extractLsb' 18 2) ++ disp.extractLsb' 16 2 := by
  have hdisp : disp.extractLsb' 18 2 ++ disp.extractLsb' 16 2 = disp.extractLsb' 16 4 :=
    BitVec.extractLsb'_append_extractLsb'_eq_extractLsb' rfl
  have hassoc : ∀ (x : BitVec 3) (h l : BitVec 2), x ++ 1#1 ++ (h ++ l) = x ++ (1#1 ++ h) ++ l := fun x h l => by
    simp only [BitVec.append_assoc', BitVec.cast_eq]
  rw [← hdisp]
  exact hassoc _ _ _

/-- The bytes of a branch whose test is not reserved are that branch, with its hint and displacement (R115). -/
theorem decode_branchBytes {test : BitVec 4} (htest : test ≠ 13#4 ∧ test ≠ 15#4) (taken : Bool) (disp : BitVec 20)
    (rest : List Byte) :
    decode ((0xF#4 ++ test.extractLsb' 0 2 ++ 3#2) ::
      (test.extractLsb' 2 2 ++ BitVec.ofBool taken ++ 1#1 ++ disp.extractLsb' 16 4) ::
      disp.extractLsb' 0 8 :: disp.extractLsb' 8 8 :: rest) = .instr (branchOf test taken disp) rest := by
  have hopnd : disp.extractLsb' 8 8 ++ disp.extractLsb' 0 8 = disp.extractLsb' 0 16 :=
    BitVec.extractLsb'_append_extractLsb'_eq_extractLsb' rfl
  have hrow := decodeBranch_of_extend (f := (branchFields test taken disp).1) (disp.extractLsb' 0 16)
    (by rwa [branchFields_test]) (branchFields_extend test taken disp)
  rw [branchFields_test, branchFields_taken, branchFields_disp, ← hopnd] at hrow
  rw [branch_secondByte]
  exact decode_fieldBytes_long _ _ rest (takesOperand_branchFields test taken disp htest) hrow

end Sys2Proof

namespace Sys2Proof.Machine

/-! ### The meaning of a branch -/

/-- A branch completes from every state, with `next_pc` set and nothing else (R230). -/
theorem execBranch_eq (test : Half → Bool) (disp : BitVec 20) (s : State) :
    execBranch test disp s =
      .next ((s.startInstr 4).withNextPc
        (if test s.flags then s.pc + 2 + disp.signExtend 32 else s.pc + 4)).endInstr := by
  change Host.Outcome.next (State.endInstr (if test s.flags then _ else _)) = _
  cases test s.flags with
  | true => rfl
  | false => rfl

/-- An instruction that sets `next_pc` only runs as claims say. -/
theorem runsTo_withNextPc {i : Instr} {s : State} {len next : Word}
    (h : exec i s = .next ((s.startInstr len).withNextPc next).endInstr) : RunsTo i s noRegs next noFlags := by
  have hregs : RegsAfter s ((s.startInstr len).withNextPc next).endInstr noRegs next := by
    apply regsAfter_endInstr <;> simp [noRegs]
  exact ⟨_, h, hregs, flagsAfter_same s.flags, memoryKept_of_eq rfl rfl rfl rfl rfl, ⟨rfl, rfl⟩⟩

/-- A row of Table 2-7: the branch of `test`, whose meaning is the common form with the condition `cond`. -/
theorem branchesIf_branchOf {test : BitVec 4} (holds : Half → Bool) {cond : State → Bool}
    (htest : test ≠ 13#4 ∧ test ≠ 15#4)
    (hexec : ∀ taken disp s, exec (branchOf test taken disp) s = execBranch holds disp s)
    (hcond : ∀ s, holds s.flags = cond s) : BranchesIf test (branchOf test) cond := by
  intro taken disp rest s
  have hnext := (hexec taken disp s).trans (execBranch_eq holds disp s)
  rw [hcond] at hnext
  exact ⟨decode_branchBytes htest taken disp rest, runsTo_withNextPc hnext⟩

/-! ### The tests of the relations -/

/-- The model's test of BGE, that N xor V does not hold, is the spec's N = V (R241). -/
theorem not_lessThan (f : Half) : (!lessThan f) = (getFlag f .n == getFlag f .v) :=
  Bool.not_not _

/-- The model's test of BGT is the spec's Z = 0 and N = V (R243). -/
theorem not_zero_or_lessThan (f : Half) :
    (!(getFlag f .z || lessThan f)) = (!getFlag f .z && getFlag f .n == getFlag f .v) := by
  rw [Bool.not_or, not_lessThan]

/-! ### The obligations -/

/-- Settles O38: each meaning tests the flag that its condition names. -/
theorem singleFlagBranches : Obligations.SingleFlagBranches := by
  refine ⟨?bpl, ?bmi, ?bvc, ?bvs, ?bcc, ?bcs, ?bne, ?beq⟩
  case bpl => exact branchesIf_branchOf (fun f => !getFlag f .n) (by decide) (fun _ _ _ => rfl) (fun _ => rfl)
  case bmi => exact branchesIf_branchOf (fun f => getFlag f .n) (by decide) (fun _ _ _ => rfl) (fun _ => rfl)
  case bvc => exact branchesIf_branchOf (fun f => !getFlag f .v) (by decide) (fun _ _ _ => rfl) (fun _ => rfl)
  case bvs => exact branchesIf_branchOf (fun f => getFlag f .v) (by decide) (fun _ _ _ => rfl) (fun _ => rfl)
  case bcc => exact branchesIf_branchOf (fun f => !getFlag f .c) (by decide) (fun _ _ _ => rfl) (fun _ => rfl)
  case bcs => exact branchesIf_branchOf (fun f => getFlag f .c) (by decide) (fun _ _ _ => rfl) (fun _ => rfl)
  case bne => exact branchesIf_branchOf (fun f => !getFlag f .z) (by decide) (fun _ _ _ => rfl) (fun _ => rfl)
  case beq => exact branchesIf_branchOf (fun f => getFlag f .z) (by decide) (fun _ _ _ => rfl) (fun _ => rfl)

/-- Settles O39: BGE, BGT and BPO test a negation where their conditions write N = V or a conjunction; the others test
what their conditions say. -/
theorem relationBranches : Obligations.RelationBranches := by
  refine ⟨?bge, ?blt, ?bgt, ?ble, ?bpo, ?bra⟩
  case bge =>
    exact branchesIf_branchOf (fun f => !lessThan f) (by decide) (fun _ _ _ => rfl) (fun s => not_lessThan s.flags)
  case blt => exact branchesIf_branchOf lessThan (by decide) (fun _ _ _ => rfl) (fun _ => rfl)
  case bgt =>
    exact branchesIf_branchOf (fun f => !(getFlag f .z || lessThan f)) (by decide) (fun _ _ _ => rfl)
      (fun s => not_zero_or_lessThan s.flags)
  case ble =>
    exact branchesIf_branchOf (fun f => getFlag f .z || lessThan f) (by decide) (fun _ _ _ => rfl) (fun _ => rfl)
  case bpo =>
    exact branchesIf_branchOf (fun f => !(getFlag f .n || getFlag f .z)) (by decide) (fun _ _ _ => rfl)
      (fun s => Bool.not_or (s.flag .n) (s.flag .z))
  case bra => exact branchesIf_branchOf (fun _ => true) (by decide) (fun _ _ _ => rfl) (fun _ => rfl)

end Sys2Proof.Machine
end

section
/-! The encoder, read back by the decoder (30_encoding.md R100 to R118): the fields it writes for an instruction stand for
that instruction, one lemma per family of formats. -/

namespace Sys2Proof

/-! ### The families of formats -/

/-- OR to CMP: the ALU column, a register and a width (R103). -/
theorem aluRow_eq (row : AluSrc → Reg → Width → Instr) (src : AluSrc) (rd : Reg) (w : Width) :
    row (aluSrcOf (aluSrcFields src).1 (aluSrcFields src).2.1 ((aluSrcFields src).2.2.getD 0#16))
      (regOfBits (regBits rd)) (widthOfBits (widthBits w)) = row src rd w := by
  rw [aluSrcOf_aluSrcFields, regOfBits_regBits, widthOfBits_widthBits]

/-- LD and ST: the Load/Store column, a register and a width (R103). -/
theorem memRow_eq (row : MemOp → Reg → Width → Instr) (m : MemOp) (r : Reg) (w : Width) :
    row (memOpOf (memOpFields m).1 (memOpFields m).2.1 ((memOpFields m).2.2.getD 0#16))
      (regOfBits (regBits r)) (widthOfBits (widthBits w)) = row m r w := by
  rw [memOpOf_memOpFields, regOfBits_regBits, widthOfBits_widthBits]

/-- `hw[11]` of MOV and MOVX, and the one bit mode below it (R105). -/
theorem movSrcFields_mode (e : BitVec 1) (src : MovSrc) :
    (movSrcFields e src).1.getLsbD 1 = e.getLsbD 0 ∧
      movSrcOf ((movSrcFields e src).1.getLsbD 0) (movSrcFields e src).2.1 ((movSrcFields e src).2.2.getD 0#16) = src := by
  have hmode : ∀ (e b : BitVec 1), (e ++ b).getLsbD 1 = e.getLsbD 0 ∧ (e ++ b).getLsbD 0 = b.getLsbD 0 := by decide
  cases src with
  | reg r => exact ⟨(hmode e 0).1, (if_neg (Bool.eq_false_iff.1 (hmode e 0).2)).trans (congrArg MovSrc.reg (regOfBits_regBits r))⟩
  | imm v => exact ⟨(hmode e 1).1, if_pos (hmode e 1).2⟩

/-- A move's operand, a register and a width (R103). -/
theorem movRow_eq (row : MovSrc → Reg → Width → Instr) {src src' : MovSrc} (hsrc : src = src') (rd : Reg) (w : Width) :
    row src (regOfBits (regBits rd)) (widthOfBits (widthBits w)) = row src' rd w := by
  rw [hsrc, regOfBits_regBits, widthOfBits_widthBits]

/-- MOV and MOVX: `hw[11]` chooses (R103). -/
theorem decodeFields_movFields (e : BitVec 1) (src : MovSrc) (rd : Reg) (w : Width) :
    decodeFields (withMode 10 (movSrcFields e src) (regBits rd) (widthBits w)).1 ((movSrcFields e src).2.2.getD 0#16) =
      if e.getLsbD 0 then .movx src rd w else .mov src rd w := by
  obtain ⟨hchoice, hsrc⟩ := movSrcFields_mode e src
  change (if (movSrcFields e src).1.getLsbD 1 then Instr.movx _ _ _ else Instr.mov _ _ _) = _
  rw [hchoice]
  exact ite_congr rfl (fun _ => movRow_eq .movx hsrc rd w) (fun _ => movRow_eq .mov hsrc rd w)

/-- JSR, RET and RETI: the width bit is `hw[0]` (R110). -/
theorem transferOfBit_bits2 (x : Bool) (w : TransferWidth) :
    transferOfBit ((bits2 x (transferBit w)).getLsbD 0) = w := by
  rw [bits2_getLsbD_zero, transferOfBit_transferBit]

/-- TRAP and TRAPB: `hw[1]` chooses, and the trap number is split over both bytes (R103). -/
theorem decodeFields_trapFields (brk : Bool) (t : BitVec 5) (w : TransferWidth) (o : Half) :
    decodeFields (plainFields 11 (t.extractLsb' 0 2) (t.extractLsb' 2 3) 2 (bits2 brk (transferBit w))).1 o =
      if brk then .trapb t w else .trap t w := by
  have hnumber : (t.extractLsb' 2 3 ++ t.extractLsb' 0 2 : BitVec 5) = t := by decide +revert
  have hwidth := transferOfBit_bits2 brk w
  change (if (bits2 brk (transferBit w)).getLsbD 1 then Instr.trapb _ _ else Instr.trap _ _) = _
  rw [bits2_getLsbD_one]
  exact ite_congr rfl (fun _ => congr (congrArg Instr.trapb hnumber) hwidth)
    (fun _ => congr (congrArg Instr.trap hnumber) hwidth)

/-- LCNTR and SCNTR (R103): `hw[1]` chooses. -/
theorem decodeFields_cntrFields (store : Bool) (m : MemOp) (w : CntrWidth) :
    decodeFields (withMode 11 (memOpFields m) 4 (bits2 store (cntrBit w))).1 ((memOpFields m).2.2.getD 0#16) =
      if store then .scntr m w else .lcntr m w := by
  have hm := memOpOf_memOpFields m
  have hwidth : cntrOfBit ((bits2 store (cntrBit w)).getLsbD 0) = w := by rw [bits2_getLsbD_zero, cntrOfBit_cntrBit]
  change (if (bits2 store (cntrBit w)).getLsbD 1 then Instr.scntr _ _ else Instr.lcntr _ _) = _
  rw [bits2_getLsbD_one]
  exact ite_congr rfl (fun _ => congr (congrArg Instr.scntr hm) hwidth) (fun _ => congr (congrArg Instr.lcntr hm) hwidth)

/-- LMMU and SMMU (R103): `hw[1]` chooses. -/
theorem decodeFields_mmuFields (store : Bool) (m : MemOp) (n : MmuReg) :
    decodeFields (withMode 11 (memOpFields m) 6 (bits2 store (mmuRegBit n))).1 ((memOpFields m).2.2.getD 0#16) =
      if store then .smmu m n else .lmmu m n := by
  have hm := memOpOf_memOpFields m
  have hreg : mmuRegOfBit ((bits2 store (mmuRegBit n)).getLsbD 0) = n := by
    rw [bits2_getLsbD_zero, mmuRegOfBit_mmuRegBit]
  change (if (bits2 store (mmuRegBit n)).getLsbD 1 then Instr.smmu _ _ else Instr.lmmu _ _) = _
  rw [bits2_getLsbD_one]
  exact ite_congr rfl (fun _ => congr (congrArg Instr.smmu hm) hreg) (fun _ => congr (congrArg Instr.lmmu hm) hreg)

/-- The four shifts, by direction and by what enters the vacated bits (44_shift.md R210). -/
def shiftRow (right carry : Bool) : UnOp → Amount → Width → Instr :=
  match right, carry with
  | false, false => .shl
  | false, true => .shlc
  | true, false => .shr
  | true, true => .shrc

/-- The fields of a shift: `hw[4]` chooses the carry form, the amount lies below it (R112). -/
theorem decodeShift_fields {op : BitVec 4} (carry : BitVec 1) (src : UnOp) (k : Amount) (w : Width) :
    decodeShift (withMode op (unOpFields src) (carry ++ amountBits k) (widthBits w)).1 ((unOpFields src).2.2.getD 0#16) =
      shiftRow (op.getLsbD 0) (carry.getLsbD 0) src k w := by
  have hcarry : ∀ (c : BitVec 1) (a : BitVec 2), (c ++ a : BitVec 3).getLsbD 2 = c.getLsbD 0 := by decide
  have hk : (carry ++ amountBits k : BitVec 3).extractLsb' 0 2 = amountBits k := BitVec.extractLsb'_append_eq_right
  simp only [decodeShift, withMode, hcarry, hk, amountOfBits_amountBits, widthOfBits_widthBits]
  rw [unOpOf_unOpFields]
  cases op.getLsbD 0 <;> cases carry.getLsbD 0 <;> rfl

/-- SHL and SHLC are no mode 11 row (R118 item 5), nor are SHR and SHRC. -/
theorem decodeFields_shiftFields (right : Bool) (carry : BitVec 1) (src : UnOp) (k : Amount) (w : Width) :
    decodeFields (withMode (if right then 13 else 12) (unOpFields src) (carry ++ amountBits k) (widthBits w)).1
        ((unOpFields src).2.2.getD 0#16) =
      shiftRow right (carry.getLsbD 0) src k w := by
  cases right with
  | false => exact (if_neg (unOpFields_mode src)).trans (decodeShift_fields (op := 12) carry src k w)
  | true => exact (if_neg (unOpFields_mode src)).trans (decodeShift_fields (op := 13) carry src k w)

/-- INC to BIT: an operand with a listed mode and a width (R103). -/
theorem unRow_eq (row : UnOp → Width → Instr) (src : UnOp) (w : Width) :
    row (unOpOf (unOpFields src).1 (unOpFields src).2.1 ((unOpFields src).2.2.getD 0#16)) (widthOfBits (widthBits w)) =
      row src w := by
  rw [unOpOf_unOpFields, widthOfBits_widthBits]

/-- The widths of SWAP (R118 item 7). -/
theorem widthBits_ne_zero {w : Width} (h : w ≠ .byte) : widthBits w ≠ 0#2 := fun h0 =>
  h ((widthOfBits_widthBits w).symm.trans (congrArg widthOfBits h0))

/-- The widths of MIRROR (R118 item 8). -/
theorem widthBits_getLsbD_one_of_mirror_wf {src : UnOp} {w : Width} (h : (Instr.mirror src w).WellFormed) :
    ¬ (widthBits w).getLsbD 1 = true := by
  have hw : w = .byte ∨ w = .word := by simpa [Instr.WellFormed, Instr.wf] using h
  obtain rfl | rfl := hw
  · decide
  · decide

/-- Mode 11 of the one-operand rows that are listed at other modes (R118 item 6). -/
theorem decodeUnary_mode11 (a b : BitVec 3) (c : BitVec 2) (o : Half) (hb : b ≠ 5#3 ∧ b ≠ 6#3 ∧ b ≠ 7#3) :
    decodeUnary ⟨14, 3, a, b, c⟩ o = .reservedUnaryMode11 a b c := by
  obtain ⟨h5, h6, h7⟩ := hb
  obtain rfl | rfl | rfl | rfl | rfl | rfl | rfl | rfl := rowField_cases b
  · rfl
  · rfl
  · rfl
  · rfl
  · rfl
  · exact absurd rfl h5
  · exact absurd rfl h6
  · exact absurd rfl h7

/-- A branch whose test is not reserved (R115). -/
theorem decodeFields_branchFields {test : BitVec 4} (htest : test ≠ 13#4 ∧ test ≠ 15#4) (taken : Bool)
    (disp : BitVec 20) :
    decodeFields (branchFields test taken disp).1 (disp.extractLsb' 0 16) = branchOf test taken disp := by
  have hrow := decodeBranch_of_extend (f := (branchFields test taken disp).1) (disp.extractLsb' 0 16)
    (by rwa [branchFields_test]) (branchFields_extend test taken disp)
  rwa [branchFields_test, branchFields_taken, branchFields_disp] at hrow

/-- The reserved tests 1101 and 1111 are refused before Extend is looked at (R118 item 9). -/
theorem decodeBranch_reservedTest (taken : Bool) (b : BitVec 3) (c : BitVec 2) (o : Half) :
    decodeBranch ⟨15, 1, 3#2 ++ BitVec.ofBool taken, b, c⟩ o = .reservedBranchTest1101 taken b c ∧
      decodeBranch ⟨15, 3, 3#2 ++ BitVec.ofBool taken, b, c⟩ o = .reservedBranchTest1111 taken b c := by
  cases taken with
  | false => exact ⟨by simp [decodeBranch], by simp [decodeBranch]⟩
  | true => exact ⟨by simp [decodeBranch], by simp [decodeBranch]⟩

/-- Extend = 0 with a test that is not reserved (R118 item 10). -/
theorem decodeBranch_extend0 (mm : BitVec 2) (a : BitVec 3) (d c : BitVec 2) (o : Half)
    (hwf : (Instr.reservedBranchExtend0 mm a d c).WellFormed) :
    decodeBranch ⟨15, mm, a, 0#1 ++ d, c⟩ o = .reservedBranchExtend0 mm a d c := by
  have hext : (0#1 ++ d : BitVec 3).getLsbD 2 = false := by decide +revert
  have hd : (0#1 ++ d : BitVec 3).extractLsb' 0 2 = d := BitVec.extractLsb'_append_eq_right
  rw [Instr.WellFormed, Instr.wf, mode_one_or_three_eq_getLsbD, reservedTest_eq, Bool.not_eq_true',
    decide_eq_false_iff_not, not_or] at hwf
  simp only [decodeBranch, hext, hd]
  split
  next h13 => exact absurd h13 hwf.1
  next h15 => exact absurd h15 hwf.2
  next => rfl

/-! ### Every instruction -/

/-- The fields and the operand word that the encoder writes for an instruction stand for it. -/
theorem decodeFields_encodeFields (i : Instr) (hwf : i.WellFormed) :
    decodeFields (encodeFields i).1 ((encodeFields i).2.getD 0#16) = i := by
  cases i with
  | or src rd w => exact aluRow_eq .or src rd w
  | and src rd w => exact aluRow_eq .and src rd w
  | eor src rd w => exact aluRow_eq .eor src rd w
  | add src rd w => exact aluRow_eq .add src rd w
  | addc src rd w => exact aluRow_eq .addc src rd w
  | sub src rd w => exact aluRow_eq .sub src rd w
  | subc src rd w => exact aluRow_eq .subc src rd w
  | cmp src rd w => exact aluRow_eq .cmp src rd w
  | ld m rd w => exact memRow_eq .ld m rd w
  | st m data w => exact memRow_eq .st m data w
  | mov src rd w => exact decodeFields_movFields 0 src rd w
  | movx src rd w => exact decodeFields_movFields 1 src rd w
  | jsr src w => exact congr (congrArg Instr.jsr (aluSrcOf_aluSrcFields src)) (transferOfBit_bits2 false w)
  | ret w => exact congrArg Instr.ret (transferOfBit_bits2 false w)
  | trap t w => exact decodeFields_trapFields false t w 0
  | trapb t w => exact decodeFields_trapFields true t w 0
  | reti w => exact congrArg Instr.reti (transferOfBit_bits2 false w)
  | lcntr m w => exact decodeFields_cntrFields false m w
  | scntr m w => exact decodeFields_cntrFields true m w
  | cflag k => exact decodeFields_flagNumber 0 k 0 0
  | sflag k => exact decodeFields_flagNumber 1 k 0 0
  | lmmu m n => exact decodeFields_mmuFields false m n
  | smmu m n => exact decodeFields_mmuFields true m n
  | shl src k w => exact decodeFields_shiftFields false 0 src k w
  | shlc src k w => exact decodeFields_shiftFields false 1 src k w
  | shr src k w => exact decodeFields_shiftFields true 0 src k w
  | shrc src k w => exact decodeFields_shiftFields true 1 src k w
  | inc src w => exact (if_neg (unOpFields_mode src)).trans (unRow_eq .inc src w)
  | dec src w => exact (if_neg (unOpFields_mode src)).trans (unRow_eq .dec src w)
  | swap src w =>
    exact (if_neg (unOpFields_mode src)).trans ((if_neg (widthBits_ne_zero (bne_iff_ne.1 hwf))).trans (unRow_eq .swap src w))
  | mirror src w =>
    exact (if_neg (unOpFields_mode src)).trans ((if_neg (widthBits_getLsbD_one_of_mirror_wf hwf)).trans (unRow_eq .mirror src w))
  | bit src w => exact (if_neg (unOpFields_mode src)).trans (unRow_eq .bit src w)
  | bpl taken disp | bmi taken disp | bvc taken disp | bvs taken disp | bcc taken disp | bcs taken disp
  | bne taken disp | beq taken disp | bge taken disp | blt taken disp | bgt taken disp | ble taken disp
  | bpo taken disp | bra taken disp => exact decodeFields_branchFields (by decide) taken disp
  | reserved1011x111 mm a c | reserved1110x101 mm a c | reserved1110x110 mm a c | reserved1110x111 mm a c => rfl
  | reservedShlMode11 a b c | reservedShrMode11 a b c => rfl
  | reservedUnaryMode11 a b c =>
    simp only [Instr.WellFormed, Instr.wf, Bool.and_eq_true, bne_iff_ne] at hwf
    exact decodeUnary_mode11 a b c 0 ⟨hwf.1.1, hwf.1.2, hwf.2⟩
  | reservedSwapB mm a =>
    have hmm : mm ≠ 3#2 := bne_iff_ne.1 hwf
    exact if_neg hmm
  | reservedMirrorHL mm a c0 =>
    have hmm : mm ≠ 3#2 := bne_iff_ne.1 hwf
    exact (if_neg hmm).trans ((if_pos (bits2_getLsbD_one true c0)).trans
      (congrArg (Instr.reservedMirrorHL mm a) (bits2_getLsbD_zero true c0)))
  | reservedBranchTest1101 taken b c =>
    exact (decodeBranch_reservedTest taken b c 0).1
  | reservedBranchTest1111 taken b c =>
    exact (decodeBranch_reservedTest taken b c 0).2
  | reservedBranchExtend0 mm a d c => exact decodeBranch_extend0 mm a d c 0 hwf

/-- Settles O1: the encoding is a word whose fields stand for the instruction, and `decodeFields_fitsWord` says that those
fields ask for an operand word exactly if the encoder wrote one. -/
theorem decodeEncodeAgree : Obligations.DecodeEncodeAgree := by
  intro i rest hwf
  have hfields := decodeFields_encodeFields i hwf
  have hoperand := (decodeFields_fitsWord (encodeFields i).1 ((encodeFields i).2.getD 0#16)).2
  rw [hfields] at hoperand
  rw [encode, decode_wordBytes _ _ rest hoperand.symm]
  exact congrArg (Decoded.instr · rest) hfields

end Sys2Proof
end

section
/-! The instructions that share a common form, by that form: the two-operand instructions (40_alu2op.md R140), the shifts
(44_shift.md R210), the one-operand instructions (45_unary.md R220) and the branches (46_branch.md R230). -/

namespace Sys2Proof.Machine

theorem exec_or (src : AluSrc) (rd : Reg) (w : Width) (s : State) :
    exec (.or src rd w) s = execAlu2 (fun _ a b f => (a ||| b, setZN (a ||| b) f)) src rd w s := rfl

theorem exec_and (src : AluSrc) (rd : Reg) (w : Width) (s : State) :
    exec (.and src rd w) s = execAlu2 (fun _ a b f => (a &&& b, setZN (a &&& b) f)) src rd w s := rfl

theorem exec_eor (src : AluSrc) (rd : Reg) (w : Width) (s : State) :
    exec (.eor src rd w) s = execAlu2 (fun _ a b f => (a ^^^ b, setZN (a ^^^ b) f)) src rd w s := rfl

theorem exec_add (src : AluSrc) (rd : Reg) (w : Width) (s : State) :
    exec (.add src rd w) s =
      execAlu2 (fun _ a b f => ((addLaw a b false).r, setCZVN (addLaw a b false) f)) src rd w s := rfl

theorem exec_addc (src : AluSrc) (rd : Reg) (w : Width) (s : State) :
    exec (.addc src rd w) s =
      execAlu2 (fun _ a b f => ((addLaw a b (getFlag f .c)).r, setCZVN (addLaw a b (getFlag f .c)) f)) src rd w s := rfl

theorem exec_sub (src : AluSrc) (rd : Reg) (w : Width) (s : State) :
    exec (.sub src rd w) s =
      execAlu2 (fun _ a b f => ((subLaw a b false).r, setCZVN (subLaw a b false) f)) src rd w s := rfl

theorem exec_subc (src : AluSrc) (rd : Reg) (w : Width) (s : State) :
    exec (.subc src rd w) s =
      execAlu2 (fun _ a b f => ((subLaw a b (borrowIn f)).r, setCZVN (subLaw a b (borrowIn f)) f)) src rd w s := rfl

theorem exec_shl (op : UnOp) (k : Amount) (w : Width) (s : State) :
    exec (.shl op k w) s = execShift (fun _ v k _ => shlLaw v k false) op k w s := rfl

theorem exec_shlc (op : UnOp) (k : Amount) (w : Width) (s : State) :
    exec (.shlc op k w) s = execShift (fun _ v k c => shlLaw v k c) op k w s := rfl

theorem exec_shr (op : UnOp) (k : Amount) (w : Width) (s : State) :
    exec (.shr op k w) s = execShift (fun _ v k _ => shrLaw v k false) op k w s := rfl

theorem exec_shrc (op : UnOp) (k : Amount) (w : Width) (s : State) :
    exec (.shrc op k w) s = execShift (fun _ v k c => shrLaw v k c) op k w s := rfl

theorem exec_inc (op : UnOp) (w : Width) (s : State) :
    exec (.inc op w) s = execUnary (fun _ v => v + 1) op w s := rfl

theorem exec_dec (op : UnOp) (w : Width) (s : State) :
    exec (.dec op w) s = execUnary (fun _ v => v - 1) op w s := rfl

/-- SWAP at a width it lists (R223). -/
theorem exec_swap {w : Width} (hw : w ≠ .byte) (op : UnOp) (s : State) :
    exec (.swap op w) s = execUnary swapHalves op w s := if_neg hw

/-- MIRROR at a width it lists (R224). -/
theorem exec_mirror {w : Width} (hw : ¬ (w = .high ∨ w = .long)) (op : UnOp) (s : State) :
    exec (.mirror op w) s = execUnary mirrorImage op w s := if_neg hw

theorem exec_bpl (taken : Bool) (disp : BitVec 20) (s : State) :
    exec (.bpl taken disp) s = execBranch (fun f => !getFlag f .n) disp s := rfl

theorem exec_bmi (taken : Bool) (disp : BitVec 20) (s : State) :
    exec (.bmi taken disp) s = execBranch (fun f => getFlag f .n) disp s := rfl

theorem exec_bvc (taken : Bool) (disp : BitVec 20) (s : State) :
    exec (.bvc taken disp) s = execBranch (fun f => !getFlag f .v) disp s := rfl

theorem exec_bvs (taken : Bool) (disp : BitVec 20) (s : State) :
    exec (.bvs taken disp) s = execBranch (fun f => getFlag f .v) disp s := rfl

theorem exec_bcc (taken : Bool) (disp : BitVec 20) (s : State) :
    exec (.bcc taken disp) s = execBranch (fun f => !getFlag f .c) disp s := rfl

theorem exec_bcs (taken : Bool) (disp : BitVec 20) (s : State) :
    exec (.bcs taken disp) s = execBranch (fun f => getFlag f .c) disp s := rfl

theorem exec_bne (taken : Bool) (disp : BitVec 20) (s : State) :
    exec (.bne taken disp) s = execBranch (fun f => !getFlag f .z) disp s := rfl

theorem exec_beq (taken : Bool) (disp : BitVec 20) (s : State) :
    exec (.beq taken disp) s = execBranch (fun f => getFlag f .z) disp s := rfl

theorem exec_bge (taken : Bool) (disp : BitVec 20) (s : State) :
    exec (.bge taken disp) s = execBranch (fun f => !lessThan f) disp s := rfl

theorem exec_blt (taken : Bool) (disp : BitVec 20) (s : State) :
    exec (.blt taken disp) s = execBranch (fun f => lessThan f) disp s := rfl

theorem exec_bgt (taken : Bool) (disp : BitVec 20) (s : State) :
    exec (.bgt taken disp) s = execBranch (fun f => !(getFlag f .z || lessThan f)) disp s := rfl

theorem exec_ble (taken : Bool) (disp : BitVec 20) (s : State) :
    exec (.ble taken disp) s = execBranch (fun f => getFlag f .z || lessThan f) disp s := rfl

theorem exec_bpo (taken : Bool) (disp : BitVec 20) (s : State) :
    exec (.bpo taken disp) s = execBranch (fun f => !(getFlag f .n || getFlag f .z)) disp s := rfl

theorem exec_bra (taken : Bool) (disp : BitVec 20) (s : State) :
    exec (.bra taken disp) s = execBranch (fun _ => true) disp s := rfl

end Sys2Proof.Machine
end

section
/-! What every instruction keeps, an access trap taken or not: one case split over the instructions, for any property of
the state that the updates an instruction is made of keep. From it the invariant of every step, the frame of M0 and M1
(10_state.md R49) and that of the flags (R42 to R48). -/

namespace Sys2Proof.Machine

/-! ### The flags that are not written -/

/-- Every flag that `p` does not list is the same in `f` and `g`. -/
def FlagsKeptBut (p : Flag → Bool) (f g : Half) : Prop := ∀ k, p k = false → getFlag g k = getFlag f k

theorem FlagsAfter.keptBut {f g : Half} {w : FlagWrites} {p : Flag → Bool} (h : FlagsAfter f g w)
    (hw : ∀ k, p k = false → w k = none) : FlagsKeptBut p f g := fun k hk => by
  rw [h k, hw k hk, Option.getD_none]

theorem znOf_of_not_isZN {n : Nat} (r : BitVec n) {k : Flag} (h : isZN k = false) : znOf r k = none := by
  cases k with
  | z | n => exact absurd h (by decide)
  | _ => rfl

theorem alsoFlag_of_ne {j k : Flag} (v : Bool) (w : FlagWrites) (h : j ≠ k) : alsoFlag k v w j = w j := if_neg h

theorem keptBut_setZN {n : Nat} (r : BitVec n) (f : Half) : FlagsKeptBut isZN f (setZN r f) :=
  (flagsAfter_setZN r f).keptBut fun _ => znOf_of_not_isZN r

theorem keptBut_setCZN {n : Nat} (r : BitVec n) (c : Bool) (f : Half) : FlagsKeptBut isCZN f (setCZN r c f) :=
  (flagsAfter_setCZN r c f).keptBut fun k hk => by
    simp only [isCZN, Bool.or_eq_false_iff, decide_eq_false_iff_not] at hk
    rw [alsoFlag_of_ne _ _ hk.1, znOf_of_not_isZN r hk.2]

theorem keptBut_setCZVN {n : Nat} (t : ArithResult n) (f : Half) : FlagsKeptBut isCZVN f (setCZVN t f) :=
  (flagsAfter_setCZVN t f).keptBut fun k hk => by
    simp only [isCZVN, isCZN, Bool.or_eq_false_iff, decide_eq_false_iff_not] at hk
    rw [alsoFlag_of_ne _ _ hk.2.1, alsoFlag_of_ne _ _ hk.1, znOf_of_not_isZN t.r hk.2.2]

theorem keptBut_setBit {n : BitVec 4} (v : Bool) (f : Half) :
    FlagsKeptBut (fun k => flagIndex k = n.toNat) f (setBit f n.toNat v) := fun k hk => by
  rw [getFlag, getLsbD_setBit _ _ _ _ (flagIndex_lt k), if_neg (of_decide_eq_false hk)]
  rfl

/-- BIT writes Z, N and V (45_unary.md R226). -/
theorem flagsAfter_bit (f : Half) (z n v : Bool) :
    FlagsAfter f (setFlag (setFlag (setFlag f .z z) .n n) .v v)
      (alsoFlag .z z (alsoFlag .n n (alsoFlag .v v noFlags))) := fun k => by
  simp only [getFlag_setFlag, alsoFlag, noFlags]
  cases k <;> rfl

theorem keptBut_bit (f : Half) (z n v : Bool) :
    FlagsKeptBut (fun k => k = .v || isZN k) f (setFlag (setFlag (setFlag f .z z) .n n) .v v) :=
  (flagsAfter_bit f z n v).keptBut fun k hk => by
    simp only [isZN, Bool.or_eq_false_iff, decide_eq_false_iff_not] at hk
    rw [alsoFlag_of_ne _ _ hk.2.1, alsoFlag_of_ne _ _ hk.2.2, alsoFlag_of_ne _ _ hk.1]
    rfl

/-- LCNTR.B replaces bits 7:0 (43_control_system.md R185). -/
theorem lowByteLoaded_eq (f : Half) {v : Word} (hv : v.toNat < 2 ^ 8) :
    (f &&& 0xFF00) ||| v.setWidth 16 = f.extractLsb' 8 8 ++ v.setWidth 8 := by
  have hmask : ∀ j < 16, (0xFF00 : Half).getLsbD j = decide (8 ≤ j) := by decide
  apply BitVec.eq_of_getLsbD_eq
  intro j hj
  rw [BitVec.getLsbD_or, BitVec.getLsbD_and, hmask j hj, BitVec.getLsbD_append, BitVec.getLsbD_setWidth,
    BitVec.getLsbD_setWidth, BitVec.getLsbD_extractLsb']
  by_cases h8 : j < 8
  · rw [if_pos h8, decide_eq_false (show ¬ 8 ≤ j by omega), Bool.and_false, Bool.false_or,
      decide_eq_true (show j < 16 from hj), decide_eq_true h8]
  · have hhigh : v.getLsbD j = false :=
      Nat.testBit_lt_two_pow (Nat.lt_of_lt_of_le hv (Nat.pow_le_pow_right (by omega) (by omega)))
    rw [if_neg h8, hhigh, Bool.and_false, Bool.or_false, decide_eq_true (show 8 ≤ j by omega), Bool.and_true,
      decide_eq_true (show j - 8 < 8 by omega), Bool.true_and, show 8 + (j - 8) = j by omega]

theorem keptBut_lowByteLoaded (f : Half) {v : Word} (hv : v.toNat < 2 ^ 8) :
    FlagsKeptBut (fun k => flagIndex k < 8) f ((f &&& 0xFF00) ||| v.setWidth 16) := fun k hk => by
  have h8 : ¬ flagIndex k < 8 := of_decide_eq_false hk
  have hlt := flagIndex_lt k
  rw [lowByteLoaded_eq f hv, getFlag, BitVec.getLsbD_append, BitVec.getLsbD_extractLsb']
  simp [h8, getFlag, show flagIndex k - 8 < 8 by omega, show 8 + (flagIndex k - 8) = flagIndex k by omega]

/-! ### The updates of an instruction -/

/-- The updates that the instruction `i` is made of keep `P`: accesses, registers, the entry of an access trap, the flags
that the entry of `i` lists, and the MMU registers if `i` is LMMU. -/
structure ExecStable (i : Instr) (P : State → Prop) : Prop extends Stable P where
  entered : ∀ s b, P s → P (s.withFlags (enteredFlags b s.flags))
  withFlags : ∀ s f, FlagsKeptBut (mayWriteFlag i) s.flags f → P s → P (s.withFlags f)
  writeFlags : ∀ s f req, FlagsKeptBut (mayWriteFlag i) s.flags f → P s → P (s.writeFlags f req)
  cmpR0 : ∀ s, P s → P s.afterCmpR0
  mmuReg : isLmmu i = true → ∀ s n v, P s → P (s.withMmuReg n v)

/-- `P` holds where an instruction begins in `s`, of whatever length, and where an access trap undoes it (log 7). -/
def HoldsAtStart (P : State → Prop) (s : State) : Prop :=
  ∀ (len : Word) n l, P { s.startInstr len with tlb := l, draws := n }

/-- A value that `MemRead` answers is as wide as the access. -/
theorem memRead_bind_all {P : State → Prop} {β : Type} (h : MemStable P) (n : Size) (a : Word) {s : State} (hs : P s)
    {k : Word → State → Res β} (hk : ∀ v t, v.toNat < 2 ^ (8 * Size.bytes n) → P t → (k v t).All P) :
    ((memRead n a s).bind k).All P := by
  have hall := memRead_all h n a hs
  rcases memRead_cases n a s with ⟨v, t, e, _, _, hv⟩ | ⟨v, u, va, _, _, e⟩
  · rw [e] at hall ⊢
    exact hk v t hv hall
  · rw [e] at hall ⊢
    exact hall

/-! ### The common forms -/

section

variable {i : Instr} {P Q : State → Prop} {s : State}

theorem ExecStable.run (h : ExecStable i P) (hend : ∀ t, P t → Q t.endInstr) (hs : HoldsAtStart P s) {len : Word}
    {body : State → Res Unit} (hbody : ∀ t, P t → (body t).All P) : NextAll Q (run len body s) :=
  run_all h.toStable h.entered hend (hs len) (hbody _ (hs len s.draws s.tlb))

theorem execAlu2_all (h : ExecStable i P) (hend : ∀ t, P t → Q t.endInstr) (hs : HoldsAtStart P s)
    (op : (n : Nat) → BitVec n → BitVec n → Half → BitVec n × Half) (src : AluSrc) (rd : Reg) (w : Width)
    (hop : ∀ n a b f, FlagsKeptBut (mayWriteFlag i) f (op n a b f).2) : NextAll Q (execAlu2 op src rd w s) :=
  h.run hend hs fun _ ht => (aluOperand_all h.toStable src w ht).bind_same fun a u hu =>
    h.withFlags _ _ (by rw [State.laneWrite_flags]; exact hop _ a _ _) (laneWrite_all h.toStable rd w _ hu)

theorem execBranch_all (h : ExecStable i P) (hend : ∀ t, P t → Q t.endInstr) (hs : HoldsAtStart P s)
    (test : Half → Bool) (disp : BitVec 20) : NextAll Q (execBranch test disp s) :=
  h.run hend hs fun t ht => by
    change P (if test t.flags then _ else _)
    split
    · exact h.nextPc _ _ ht
    · exact ht

theorem execShift_all (h : ExecStable i P) (hend : ∀ t, P t → Q t.endInstr) (hs : HoldsAtStart P s)
    (law : (n : Nat) → BitVec n → Nat → Bool → BitVec n × Bool) (op : UnOp) (k : Amount) (w : Width)
    (hflags : ∀ j, mayWriteFlag i j = isCZN j) : NextAll Q (execShift law op k w s) :=
  h.run hend hs fun _ ht => (unOperand_all h.toStable op w ht).bind_same fun v u hu =>
    shiftResult_all h.toStable op w _ (h.withFlags u _ (by rw [funext hflags]; exact keptBut_setCZN _ _ _) hu)

theorem execUnary_all (h : ExecStable i P) (hend : ∀ t, P t → Q t.endInstr) (hs : HoldsAtStart P s)
    (f : (w : Width) → BitVec (widthBitCount w) → BitVec (widthBitCount w)) (op : UnOp) (w : Width)
    (hflags : ∀ j, mayWriteFlag i j = isZN j) : NextAll Q (execUnary f op w s) :=
  h.run hend hs fun _ ht => (unOperand_all h.toStable op w ht).bind_same fun v u hu =>
    h.withFlags _ _ (by rw [funext hflags, State.unResult_flags]; exact keptBut_setZN _ _)
      (laneWrite_all h.toStable _ w _ hu)

/-- LCNTR (43_control_system.md R185). -/
theorem execLcntr_all {src : MemOp} {w : CntrWidth} (h : ExecStable (.lcntr src w) P)
    (hend : ∀ t, P t → Q t.endInstr) (hs : HoldsAtStart P s) : NextAll Q (execLcntr src w s) :=
  h.run hend hs fun _ ht => (effAddr_all h.toStable src _ ht).bind_same fun addr _ hu =>
    memRead_bind_all h.toMemStable _ addr hu fun v u hv hu => by
      cases w with
      | byte =>
        refine h.withFlags u _ (fun k hk => keptBut_lowByteLoaded u.flags hv k ?_) hu
        simpa [mayWriteFlag] using hk
      | word => exact h.writeFlags u _ _ (fun k hk => absurd hk (by simp [mayWriteFlag])) hu

/-- ST (41_load_store.md R163). -/
theorem execSt_all {dst : MemOp} {data : Reg} {w : Width} (h : ExecStable (.st dst data w) P)
    (hend : ∀ t, P t → Q t.endInstr) (hs : HoldsAtStart P s) : NextAll Q (execSt dst data w s) :=
  h.run hend hs fun _ ht => (stAddr_all h.toStable dst data _ ht).bind_same fun addr _ hu => by
    split
    · trivial
    · exact (memWrite_all h.toMemStable _ addr _ hu).bind_same fun _ u hu =>
        h.withFlags u _ (keptBut_setZN _ _) hu

/-- LD (R161). -/
theorem execLd_all {src : MemOp} {rd : Reg} {w : Width} (h : ExecStable (.ld src rd w) P)
    (hend : ∀ t, P t → Q t.endInstr) (hs : HoldsAtStart P s) : NextAll Q (execLd src rd w s) :=
  h.run hend hs fun _ ht => (effAddr_all h.toStable src _ ht).bind_same fun addr _ hu => by
    split
    · trivial
    · exact (memRead_all h.toMemStable _ addr hu).bind_same fun _ u hu =>
        h.withFlags _ _ (by rw [State.laneWrite_flags]; exact keptBut_setZN _ _) (laneWrite_all h.toStable rd w _ hu)

/-- CMP (40_alu2op.md R152). -/
theorem execCmp_all {src : AluSrc} {rd : Reg} {w : Width} (h : ExecStable (.cmp src rd w) P)
    (hend : ∀ t, P t → Q t.endInstr) (hs : HoldsAtStart P s) : NextAll Q (execCmp src rd w s) :=
  h.run hend hs fun _ ht => (aluOperand_all h.toStable src w ht).bind_same fun a u hu => by
    change P (if rd = .r0 then _ else _)
    split
    · exact h.cmpR0 _ (h.withFlags u _ (keptBut_setCZN _ _ _) hu)
    · exact h.withFlags u _ (keptBut_setCZN _ _ _) hu

/-- MOV (42_move.md R171). -/
theorem execMov_all {src : MovSrc} {rd : Reg} {w : Width} (h : ExecStable (.mov src rd w) P) (hend : ∀ t, P t → Q t.endInstr)
    (hs : HoldsAtStart P s) : NextAll Q (execMov src rd w s) :=
  h.run hend hs fun _ ht =>
    h.withFlags _ _ (by rw [State.laneWrite_flags]; exact keptBut_setZN _ _) (laneWrite_all h.toStable rd w _ ht)


/-- MOVX (R172). -/
theorem execMovx_all {src : MovSrc} {rd : Reg} {w : Width} (h : ExecStable (.movx src rd w) P) (hend : ∀ t, P t → Q t.endInstr)
    (hs : HoldsAtStart P s) : NextAll Q (execMovx src rd w s) :=
  h.run hend hs fun t ht =>
    h.withFlags _ _ (by rw [State.regWrite_flags]; exact keptBut_setZN _ _) (h.regWrite t rd _ ht)


/-- JSR (43_control_system.md R181). -/
theorem execJsr_all {target : AluSrc} {w : TransferWidth} (h : ExecStable (.jsr target w) P) (hend : ∀ t, P t → Q t.endInstr)
    (hs : HoldsAtStart P s) : NextAll Q (execJsr target w s) :=
  h.run hend hs fun _ ht => (jsrTarget_all h.toStable target w ht).bind_same fun _ _ ht =>
    (push_all h.toStable _ _ ht).bind_same fun _ u hu => h.nextPc u _ hu


/-- RET (R182). -/
theorem execRet_all {w : TransferWidth} (h : ExecStable (.ret w) P) (hend : ∀ t, P t → Q t.endInstr)
    (hs : HoldsAtStart P s) : NextAll Q (execRet w s) :=
  h.run hend hs fun _ ht => (pop_all h.toStable _ ht).bind_same fun _ u hu => h.nextPc u _ hu


/-- TRAP (R183). -/
theorem execTrap_all {n : BitVec 5} {w : TransferWidth} (h : ExecStable (.trap n w) P) (hend : ∀ t, P t → Q t.endInstr)
    (hs : HoldsAtStart P s) : NextAll Q (execTrap n w s) :=
  h.run hend hs fun _ ht => takeException_all h.toStable h.entered w _ _ _ ht


/-- TRAPB (R184). -/
theorem execTrapb_all {n : BitVec 5} {w : TransferWidth} (h : ExecStable (.trapb n w) P) (hend : ∀ t, P t → Q t.endInstr)
    (hs : HoldsAtStart P s) : NextAll Q (execTrapb n w s) :=
  h.run hend hs fun _ ht => takeException_all h.toStable h.entered w _ _ _ ht


/-- RETI (R187): every flag is listed. -/
theorem execReti_all {w : TransferWidth} (h : ExecStable (.reti w) P) (hend : ∀ t, P t → Q t.endInstr)
    (hs : HoldsAtStart P s) : NextAll Q (execReti w s) :=
  h.run hend hs fun _ ht =>
    returnFromException_all h.toStable (fun t f r => h.writeFlags t f r fun _ hk => nomatch hk) w ht


/-- SCNTR (R186). -/
theorem execScntr_all {dst : MemOp} {w : CntrWidth} (h : ExecStable (.scntr dst w) P) (hend : ∀ t, P t → Q t.endInstr)
    (hs : HoldsAtStart P s) : NextAll Q (execScntr dst w s) :=
  h.run hend hs fun _ ht => (effAddr_all h.toStable dst _ ht).bind_same fun _ _ hu =>
    memWrite_all h.toMemStable _ _ _ (afterFlagsRead_all h.toStable hu)


/-- CFLAG (R188). -/
theorem execCflag_all {k : BitVec 4} (h : ExecStable (.cflag k) P) (hend : ∀ t, P t → Q t.endInstr)
    (hs : HoldsAtStart P s) : NextAll Q (execCflag k s) :=
  h.run hend hs fun t ht => h.withFlags t _ (keptBut_setBit false _) ht


/-- SFLAG (R189). -/
theorem execSflag_all {k : BitVec 4} (h : ExecStable (.sflag k) P) (hend : ∀ t, P t → Q t.endInstr)
    (hs : HoldsAtStart P s) : NextAll Q (execSflag k s) :=
  h.run hend hs fun t ht => h.writeFlags t _ _ (keptBut_setBit true _) ht


/-- LMMU (R190). -/
theorem execLmmu_all {src : MemOp} {n : MmuReg} (h : ExecStable (.lmmu src n) P) (hend : ∀ t, P t → Q t.endInstr)
    (hs : HoldsAtStart P s) : NextAll Q (execLmmu src n s) :=
  h.run hend hs fun _ ht => (effAddr_all h.toStable src _ ht).bind_same fun _ _ hu =>
    (memRead_all h.toMemStable _ _ hu).bind_same fun v u hu =>
      h.withFlags _ _ (by rw [State.withMmuReg_flags]; exact keptBut_setZN _ _) (h.mmuReg rfl u n v hu)


/-- SMMU (R191). -/
theorem execSmmu_all {dst : MemOp} {n : MmuReg} (h : ExecStable (.smmu dst n) P) (hend : ∀ t, P t → Q t.endInstr)
    (hs : HoldsAtStart P s) : NextAll Q (execSmmu dst n s) :=
  h.run hend hs fun _ ht => (effAddr_all h.toStable dst _ ht).bind_same fun _ _ hu =>
    (memWrite_all h.toMemStable _ _ _ hu).bind_same fun _ u hu => h.withFlags u _ (keptBut_setZN _ _) hu


/-- BIT (45_unary.md R226). -/
theorem execBit_all {op : UnOp} {w : Width} (h : ExecStable (.bit op w) P) (hend : ∀ t, P t → Q t.endInstr)
    (hs : HoldsAtStart P s) : NextAll Q (execBit op w s) :=
  h.run hend hs fun _ ht => (unOperand_all h.toStable op w ht).bind_same fun _ u hu =>
    h.withFlags u _ (keptBut_bit _ _ _ _) hu


/-! ### Every instruction -/

/-- An instruction whose updates keep `P` ends with it, an access trap taken or not. -/
theorem exec_all (h : ExecStable i P) (hend : ∀ t, P t → Q t.endInstr) (hs : HoldsAtStart P s) :
    NextAll Q (exec i s) := by
  have S := h.toStable
  have M := h.toMemStable
  cases i with
  | or src rd w =>
    rw [exec_or]
    exact execAlu2_all h hend hs _ src rd w fun _ _ _ f => keptBut_setZN _ f
  | and src rd w =>
    rw [exec_and]
    exact execAlu2_all h hend hs _ src rd w fun _ _ _ f => keptBut_setZN _ f
  | eor src rd w =>
    rw [exec_eor]
    exact execAlu2_all h hend hs _ src rd w fun _ _ _ f => keptBut_setZN _ f
  | add src rd w =>
    rw [exec_add]
    exact execAlu2_all h hend hs _ src rd w fun _ _ _ f => keptBut_setCZVN _ f
  | addc src rd w =>
    rw [exec_addc]
    exact execAlu2_all h hend hs _ src rd w fun _ _ _ f => keptBut_setCZVN _ f
  | sub src rd w =>
    rw [exec_sub]
    exact execAlu2_all h hend hs _ src rd w fun _ _ _ f => keptBut_setCZVN _ f
  | subc src rd w =>
    rw [exec_subc]
    exact execAlu2_all h hend hs _ src rd w fun _ _ _ f => keptBut_setCZVN _ f
  | cmp src rd w => exact execCmp_all h hend hs
  | ld src rd w => exact execLd_all h hend hs
  | st dst data w => exact execSt_all h hend hs
  | mov src rd w => exact execMov_all h hend hs
  | movx src rd w => exact execMovx_all h hend hs
  | jsr target w => exact execJsr_all h hend hs
  | ret w => exact execRet_all h hend hs
  | trap n w => exact execTrap_all h hend hs
  | trapb n w => exact execTrapb_all h hend hs
  | reti w => exact execReti_all h hend hs
  | lcntr src w => exact execLcntr_all h hend hs
  | scntr dst w => exact execScntr_all h hend hs
  | cflag k => exact execCflag_all h hend hs
  | sflag k => exact execSflag_all h hend hs
  | lmmu src n => exact execLmmu_all h hend hs
  | smmu dst n => exact execSmmu_all h hend hs
  | shl op k w =>
    rw [exec_shl]
    exact execShift_all h hend hs _ op k w fun _ => rfl
  | shlc op k w =>
    rw [exec_shlc]
    exact execShift_all h hend hs _ op k w fun _ => rfl
  | shr op k w =>
    rw [exec_shr]
    exact execShift_all h hend hs _ op k w fun _ => rfl
  | shrc op k w =>
    rw [exec_shrc]
    exact execShift_all h hend hs _ op k w fun _ => rfl
  | inc op w =>
    rw [exec_inc]
    exact execUnary_all h hend hs _ op w fun _ => rfl
  | dec op w =>
    rw [exec_dec]
    exact execUnary_all h hend hs _ op w fun _ => rfl
  | swap op w =>
    by_cases hw : w = .byte
    · rw [hw, exec_swap_byte]
      trivial
    · rw [exec_swap hw]
      exact execUnary_all h hend hs _ op w fun _ => rfl
  | mirror op w =>
    by_cases hw : w = .high ∨ w = .long
    · rw [exec_mirror_of_unlisted op hw]
      trivial
    · rw [exec_mirror hw]
      exact execUnary_all h hend hs _ op w fun _ => rfl
  | bit op w => exact execBit_all h hend hs
  | bpl taken disp =>
    rw [exec_bpl]
    exact execBranch_all h hend hs _ disp
  | bmi taken disp =>
    rw [exec_bmi]
    exact execBranch_all h hend hs _ disp
  | bvc taken disp =>
    rw [exec_bvc]
    exact execBranch_all h hend hs _ disp
  | bvs taken disp =>
    rw [exec_bvs]
    exact execBranch_all h hend hs _ disp
  | bcc taken disp =>
    rw [exec_bcc]
    exact execBranch_all h hend hs _ disp
  | bcs taken disp =>
    rw [exec_bcs]
    exact execBranch_all h hend hs _ disp
  | bne taken disp =>
    rw [exec_bne]
    exact execBranch_all h hend hs _ disp
  | beq taken disp =>
    rw [exec_beq]
    exact execBranch_all h hend hs _ disp
  | bge taken disp =>
    rw [exec_bge]
    exact execBranch_all h hend hs _ disp
  | blt taken disp =>
    rw [exec_blt]
    exact execBranch_all h hend hs _ disp
  | bgt taken disp =>
    rw [exec_bgt]
    exact execBranch_all h hend hs _ disp
  | ble taken disp =>
    rw [exec_ble]
    exact execBranch_all h hend hs _ disp
  | bpo taken disp =>
    rw [exec_bpo]
    exact execBranch_all h hend hs _ disp
  | bra taken disp =>
    rw [exec_bra]
    exact execBranch_all h hend hs _ disp
  | reserved1011x111 mm a c | reserved1110x101 mm a c | reserved1110x110 mm a c | reserved1110x111 mm a c
  | reservedShlMode11 a b c | reservedShrMode11 a b c | reservedUnaryMode11 a b c | reservedSwapB mm a
  | reservedMirrorHL mm a c0 | reservedBranchTest1101 taken b c | reservedBranchTest1111 taken b c
  | reservedBranchExtend0 mm a d c => trivial

end

/-- What a next state of an outcome has, read back. -/
theorem NextAll.of_next {P : State → Prop} {o : Host.Outcome State Fault Refusal} {t : State} (h : NextAll P o)
    (ht : o = .next t) : P t := by
  rw [ht] at h
  exact h

/-! ### The obligations -/

/-- Settles O46: M0 and M1 are written by `withMmuReg` only, which LMMU alone is made of. -/
theorem onlyLmmuWritesMmuRegisters : Obligations.OnlyLmmuWritesMmuRegisters := by
  intro i s t hi ht
  have hstable : ExecStable i (fun u => u.m0 = s.m0 ∧ u.m1 = s.m1) := {
    draw := fun _ h => h
    tlb := fun _ _ h => h
    write := fun _ bus _ _ h => by cases bus <;> exact h
    request := fun u src h => by rw [State.request_rest]; exact h
    regWrite := fun _ _ _ h => by rwa [State.regWrite_m0, State.regWrite_m1]
    nextPc := fun _ _ h => h
    entered := fun _ _ h => h
    withFlags := fun _ _ _ h => h
    writeFlags := fun _ _ _ _ h => h
    cmpR0 := fun _ h => h
    mmuReg := fun h => absurd h (by rw [hi]; decide) }
  exact (exec_all (Q := fun u => u.m0 = s.m0 ∧ u.m1 = s.m1) hstable (fun _ h => h) fun _ _ _ => ⟨rfl, rfl⟩).of_next ht

/-- Settles O47: the updates of flags that an instruction is made of keep the flags its entry does not list. -/
theorem flagsWrittenOnlyWhereListed : Obligations.FlagsWrittenOnlyWhereListed := by
  intro i k s t hI hB hk ht
  have hstable : ExecStable i (fun u => u.flag k = s.flag k) := {
    draw := fun _ h => h
    tlb := fun _ _ h => h
    write := fun _ bus _ _ h => by cases bus <;> exact h
    request := fun u src h => by rw [State.request_rest]; exact h
    regWrite := fun _ _ _ h => by rwa [State.flag_regWrite]
    nextPc := fun _ _ h => h
    entered := fun u b h => by
      refine Eq.trans ?_ h
      have hentered := flagsAfter_entered b u.flags k
      rwa [alsoFlag_of_ne _ _ hI, alsoFlag_of_ne _ _ hB] at hentered
    withFlags := fun _ _ hf h => (hf k hk).trans h
    writeFlags := fun _ _ _ hf h => (hf k hk).trans h
    cmpR0 := fun _ h => h
    mmuReg := fun _ u n v h => by cases n <;> exact h }
  exact (exec_all (Q := fun u => u.flag k = s.flag k) hstable (fun _ h => h) fun _ _ _ => rfl).of_next ht

/-! ### The invariant of every step -/

/-- What holds at every point inside an instruction, and makes the invariant at its end. -/
structure State.InnerInv (s : State) : Prop where
  memWf : s.mem.wf = true
  sdramWf : s.sdram.wf = true
  hold : s.riHoldNext = true → s.riWritten = true
  pendingOnce : s.pending.Nodup

theorem State.InnerInv.endInstr {s : State} (h : s.InnerInv) : s.endInstr.Inv where
  memWf := h.memWf
  sdramWf := h.sdramWf
  written := rfl
  holdNext := rfl
  next := rfl
  hold := h.hold
  pendingOnce := h.pendingOnce

theorem State.Inv.holdsAtStart {s : State} (h : s.Inv) : HoldsAtStart State.InnerInv s := fun _ _ _ =>
  ⟨h.memWf, h.sdramWf, fun hold => absurd hold Bool.false_ne_true, h.pendingOnce⟩

/-- A request of a source that is pending already changes nothing (60_exceptions.md R255). -/
theorem State.nodup_pending_request {s : State} (src : IntSource) (h : s.pending.Nodup) :
    (s.request src).pending.Nodup := by
  rw [State.pending_request]
  split
  · exact h
  next hnew =>
    refine List.nodup_append.2 ⟨h, List.nodup_cons.2 ⟨List.not_mem_nil, List.nodup_nil⟩, fun a ha b hb he => hnew ?_⟩
    rwa [← List.mem_singleton.1 hb, ← he]

theorem execStable_innerInv (i : Instr) : ExecStable i State.InnerInv where
  draw _ h := ⟨h.memWf, h.sdramWf, h.hold, h.pendingOnce⟩
  tlb _ _ h := ⟨h.memWf, h.sdramWf, h.hold, h.pendingOnce⟩
  write s bus a v h := by
    cases bus with
    | io => exact ⟨Memory.wf_write v h.memWf a.isLt, h.sdramWf, h.hold, h.pendingOnce⟩
    | sdram => exact ⟨h.memWf, Memory.wf_write v h.sdramWf a.isLt, h.hold, h.pendingOnce⟩
  request s src h := by
    have hpending := State.nodup_pending_request src h.pendingOnce
    rw [State.request_rest] at hpending ⊢
    exact ⟨h.memWf, h.sdramWf, h.hold, hpending⟩
  regWrite s r v h := by
    refine ⟨by simpa using h.memWf, by simpa using h.sdramWf, fun hold => ?_, by simpa using h.pendingOnce⟩
    rw [State.regWrite_riHoldNext] at hold
    rw [State.regWrite_riWritten]
    split
    · rfl
    next hr => exact h.hold (by rwa [if_neg hr] at hold)
  nextPc _ _ h := ⟨h.memWf, h.sdramWf, h.hold, h.pendingOnce⟩
  entered _ _ h := ⟨h.memWf, h.sdramWf, h.hold, h.pendingOnce⟩
  withFlags _ _ _ h := ⟨h.memWf, h.sdramWf, h.hold, h.pendingOnce⟩
  writeFlags _ _ _ _ h := ⟨h.memWf, h.sdramWf, h.hold, h.pendingOnce⟩
  cmpR0 _ h := ⟨h.memWf, h.sdramWf, fun _ => rfl, h.pendingOnce⟩
  mmuReg _ s n v h := by
    cases n with
    | m0 => exact ⟨h.memWf, h.sdramWf, h.hold, h.pendingOnce⟩
    | m1 => exact ⟨h.memWf, h.sdramWf, h.hold, h.pendingOnce⟩

theorem exec_inv (i : Instr) {s : State} (h : s.Inv) : NextAll State.Inv (exec i s) :=
  exec_all (execStable_innerInv i) (fun _ h => h.endInstr) h.holdsAtStart

/-- The invariant says nothing of the TLB, nor of free values. -/
theorem State.Inv.withTlbDraws {s : State} (h : s.Inv) (l : List TlbEntry) (n : Nat) :
    ({ s with tlb := l, draws := n } : State).Inv :=
  ⟨h.memWf, h.sdramWf, h.written, h.holdNext, h.next, h.hold, h.pendingOnce⟩

/-- An access trap met between two instructions: by a fetch, or by an interrupt's entry. -/
theorem takeMmuTrap_inv (va : Word) (kind : AccessKind) {s s1 : State} (h : s.Inv) (h1 : s1.InnerInv) :
    NextAll State.Inv (takeMmuTrap va kind (s.startInstr 0) s1) :=
  takeMmuTrap_all (execStable_innerInv (.ret .long)).toStable (execStable_innerInv (.ret .long)).entered
    (fun _ h => h.endInstr) va kind (h.holdsAtStart 0 _ _) h1

/-- What the instruction at `pc` can do (30_encoding.md R102, R121): it is fetched and run, or is a 6502 opcode and refused,
or its fetch meets an access trap. -/
theorem stepInstr_cases (s : State) :
    ∃ bs u, AccessesMade s u (byteAccesses .fetch s.pc bs) ∧ u = { s with tlb := u.tlb, draws := u.draws } ∧
      match decode bs with
      | .instr i rest => rest = [] ∧ stepInstr s = exec i u
      | .rejected (.sixFiveOhTwo b) => bs = [b] ∧ stepInstr s = .refused (.sixFiveOhTwoOpcode b)
      | .rejected .truncated =>
        u.answer .fetch (s.pc + BitVec.ofNat 32 bs.length) = .trap ∧
          stepInstr s = takeMmuTrap (s.pc + BitVec.ofNat 32 bs.length) .fetch (s.startInstr 0)
            ((u.translatedBy (s.pc + BitVec.ofNat 32 bs.length)).startInstr 0) := by
  obtain ⟨bs, u, hmade, hu, hfetch⟩ := fetch_cases s
  refine ⟨bs, u, hmade, hu, ?_⟩
  split
  next i rest hd =>
    rw [hd] at hfetch
    obtain ⟨hrest, e⟩ := hfetch
    exact ⟨hrest, by simp only [stepInstr, e, hd]⟩
  next b hd =>
    rw [hd] at hfetch
    obtain ⟨hbs, e⟩ := hfetch
    exact ⟨hbs, by simp only [stepInstr, e, hd, decodeRefusal]⟩
  next hd =>
    rw [hd] at hfetch
    obtain ⟨htrap, e⟩ := hfetch
    exact ⟨htrap, by simp only [stepInstr, e]⟩

theorem stepInstr_inv {s : State} (h : s.Inv) : NextAll State.Inv (stepInstr s) := by
  obtain ⟨bs, u, -, hu, hcase⟩ := stepInstr_cases s
  have hinv : u.Inv := hu ▸ h.withTlbDraws u.tlb u.draws
  split at hcase
  next i rest hd =>
    rw [hcase.2]
    exact exec_inv i hinv
  next b hd =>
    rw [hcase.2]
    trivial
  next hd =>
    rw [hcase.2]
    exact takeMmuTrap_inv _ _ h (hinv.holdsAtStart 0 _ _)

/-- The source of an interrupt leaves the pending set (60_exceptions.md R256). -/
theorem State.InnerInv.dropSource {s : State} (h : s.InnerInv) (src : IntSource) : (s.dropSource src).InnerInv :=
  ⟨h.memWf, h.sdramWf, h.hold, h.pendingOnce.erase src⟩

theorem takeInterrupt_inv (src : IntSource) {s : State} (h : s.Inv) : NextAll State.Inv (takeInterrupt src s) := by
  have hstable := execStable_innerInv (.ret .long)
  have hentry := takeException_all hstable.toStable hstable.entered (Config.intEntry src).width s.pc
    (Config.intEntry src).vector false (h.holdsAtStart 0 s.draws s.tlb)
  change (takeException _ _ _ false (s.startInstr 0)).All State.InnerInv at hentry
  simp only [takeInterrupt]
  split
  next t e =>
    rw [e] at hentry
    exact (State.InnerInv.dropSource hentry src).endInstr
  next va t e =>
    rw [e] at hentry
    exact takeMmuTrap_inv va .read h (State.InnerInv.dropSource hentry src)
  next va kind t _ e =>
    rw [e] at hentry
    exact takeMmuTrap_inv va kind h hentry
  next => trivial

/-- Settles O8: inside an instruction `InnerInv` is kept by every update, and each of the ways a step ends (an instruction,
an access trap, an interrupt) ends with `endInstr`. -/
theorem invariantKeptByStep : Obligations.InvariantKeptByStep := by
  intro s t h ht
  have hall : NextAll State.Inv (step s) := by
    unfold step
    split
    · split
      · exact takeInterrupt_inv _ (h.withTlbDraws s.tlb (s.draws + 1))
      · exact stepInstr_inv (h.withTlbDraws s.tlb (s.draws + 1))
    · exact stepInstr_inv h
  exact hall.of_next ht

/-- Settles O7, field by field. -/
theorem invariantAtReset : Obligations.InvariantAtReset where
  memWf := reset_memories_wf.1
  sdramWf := reset_memories_wf.2
  written := rfl
  holdNext := rfl
  next := rfl
  hold := fun h => h
  pendingOnce := List.nodup_nil

end Sys2Proof.Machine
end

section
/-! The two-operand instructions while Flags.MMU = 0 (40_alu2op.md): results, flags and frame, and what V, C and Z say of
the operands after a subtraction (46_branch.md R231). -/

namespace Sys2Proof.Machine

/-! ### The common form -/

/-- What the common form answers (R140). -/
theorem execAlu2_untranslated {s : State} (h : s.untranslated)
    (op : (n : Nat) → BitVec n → BitVec n → Half → BitVec n × Half) (src : AluSrc) (rd : Reg) (w : Width) :
    execAlu2 op src rd w s =
      .next (((s.startInstr (aluSrcLen src)).regWrite rd
        (laneMerge w (s.regRead rd) (op _ (s.aluValue src w) (s.laneRead rd w) s.flags).1)).withFlags
          (op _ (s.aluValue src w) (s.laneRead rd w) s.flags).2).endInstr := by
  refine run_ok ?_
  rw [aluOperand_untranslated (show (s.startInstr (aluSrcLen src)).untranslated from h), Res.bind_ok,
    State.aluValue_startInstr]
  dsimp only
  rw [State.laneRead_startInstr, State.laneWrite_eq, State.regRead_startInstr, State.startInstr_flags]

/-- An instruction of the common form runs as claims say, with the result and the flags its operation gives. -/
theorem runsTo_execAlu2 {s : State} (h : s.untranslated) {i : Instr} {src : AluSrc} {rd : Reg} {w : Width}
    {r : BitVec (widthBitCount w)} {g : Half} {f : FlagWrites}
    {op : (n : Nat) → BitVec n → BitVec n → Half → BitVec n × Half} (hi : exec i s = execAlu2 op src rd w s)
    (hop : op (widthBitCount w) (s.aluValue src w) (s.laneRead rd w) s.flags = (r, g))
    (hf : FlagsAfter s.flags g f) :
    RunsTo i s (onlyReg rd (laneMerge w (s.regRead rd) r)) (s.pc + aluSrcLen src) f := by
  have hnext := hi.trans (execAlu2_untranslated h op src rd w)
  rw [hop] at hnext
  exact runsTo_regWrite hnext hf

/-- Settles O12: each of the three is the common form, and Z and N are those of its result. -/
theorem logicResult : Obligations.LogicResult := by
  intro src rd w s h a b next
  exact ⟨runsTo_execAlu2 h (exec_or src rd w s) rfl (flagsAfter_setZN _ _),
    runsTo_execAlu2 h (exec_and src rd w s) rfl (flagsAfter_setZN _ _),
    runsTo_execAlu2 h (exec_eor src rd w s) rfl (flagsAfter_setZN _ _)⟩

/-! ### Addition and subtraction -/

/-- The flags of the law of addition, in the words of claims (R143). -/
theorem flagsAfter_addLaw {n : Nat} (a b : BitVec n) (cin : Bool) (f : Half) :
    FlagsAfter f (setCZVN (addLaw a b cin) f)
      (alsoFlag .c (decide (2 ^ n ≤ a.toNat + b.toNat + cin.toNat))
        (alsoFlag .v (a.getLsbD (n - 1) == b.getLsbD (n - 1) &&
            (BitVec.ofNat n (a.toNat + b.toNat + cin.toNat)).getLsbD (n - 1) != a.getLsbD (n - 1))
          (znOf (BitVec.ofNat n (a.toNat + b.toNat + cin.toNat))))) := by
  have hlaw := flagsAfter_setCZVN (addLaw a b cin) f
  simpa only [addLaw, BitVec.msb_eq_getLsbD_last] using hlaw

/-- The law of subtraction at the spec's choices (R144, D9, D10): the exact difference source minus destination. -/
theorem subLaw_eq {n : Nat} (a b : BitVec n) (borrow : Bool) : subLaw a b borrow = borrowLaw a b borrow := rfl

/-- The flags of the law of subtraction, in the words of claims (R144). -/
theorem flagsAfter_subLaw {n : Nat} (a b : BitVec n) (borrow : Bool) (f : Half) :
    FlagsAfter f (setCZVN (subLaw a b borrow) f)
      (alsoFlag .c (decide ((a.toNat : Int) - b.toNat - borrow.toNat < 0))
        (alsoFlag .v (a.getLsbD (n - 1) != b.getLsbD (n - 1) &&
            (BitVec.ofInt n ((a.toNat : Int) - b.toNat - borrow.toNat)).getLsbD (n - 1) != a.getLsbD (n - 1))
          (znOf (BitVec.ofInt n ((a.toNat : Int) - b.toNat - borrow.toNat))))) := by
  have hlaw := flagsAfter_setCZVN (subLaw a b borrow) f
  simpa only [subLaw_eq, borrowLaw, BitVec.msb_eq_getLsbD_last] using hlaw

/-- Settles O13: ADD and ADDC are the common form with the law of addition. -/
theorem addResult : Obligations.AddResult := by
  intro src rd w s h n a b next sum r flags
  exact ⟨runsTo_execAlu2 h (exec_add src rd w s) rfl (flagsAfter_addLaw a b false s.flags),
    runsTo_execAlu2 h (exec_addc src rd w s) rfl (flagsAfter_addLaw a b (s.flag .c) s.flags)⟩

/-- Settles O14: SUB and SUBC are the common form with the law of subtraction. -/
theorem subtractResult : Obligations.SubtractResult := by
  intro src rd w s h n a b next diff r flags
  exact ⟨runsTo_execAlu2 h (exec_sub src rd w s) rfl (flagsAfter_subLaw a b false s.flags),
    runsTo_execAlu2 h (exec_subc src rd w s) rfl (flagsAfter_subLaw a b (s.flag .c) s.flags)⟩

/-! ### What V means -/

/-- A word of `m + 1` bits as a signed number, by its sign bit. -/
theorem toInt_eq_of_msb {m : Nat} (x : BitVec (m + 1)) :
    (x.msb = true ↔ 2 ^ m ≤ x.toNat) ∧ x.toNat < 2 * 2 ^ m ∧
      (x.toInt = x.toNat ∧ x.toNat < 2 ^ m ∨ x.toInt = x.toNat - 2 * 2 ^ m ∧ 2 ^ m ≤ x.toNat) := by
  have hpow : 2 ^ (m + 1) = 2 * 2 ^ m := Nat.pow_succ'
  have hlt := x.isLt
  have hint := BitVec.toInt_eq_toNat_cond x
  rw [hpow] at hlt hint
  refine ⟨by simp [BitVec.msb_eq_decide], hlt, ?_⟩
  split at hint
  · exact .inl ⟨hint, by omega⟩
  · exact .inr ⟨by rw [hint]; push_cast; rfl, by omega⟩

/-- The wrapped sum of two words and a carry (40_alu2op.md R143). -/
theorem toNat_addLaw {m : Nat} (a b : BitVec (m + 1)) (cin : Bool) :
    (addLaw a b cin).r.toNat = a.toNat + b.toNat + cin.toNat ∨
      (addLaw a b cin).r.toNat + 2 * 2 ^ m = a.toNat + b.toNat + cin.toNat := by
  have hpow : 2 ^ (m + 1) = 2 * 2 ^ m := Nat.pow_succ'
  have ha := a.isLt
  have hb := b.isLt
  have hc : cin.toNat ≤ 1 := Bool.toNat_le cin
  rw [hpow] at ha hb
  rw [addLaw, BitVec.toNat_ofNat, hpow]
  by_cases ht : a.toNat + b.toNat + cin.toNat < 2 * 2 ^ m
  · exact .inl (Nat.mod_eq_of_lt ht)
  · refine .inr ?_
    rw [Nat.mod_eq_sub_mod (by omega), Nat.mod_eq_of_lt (by omega)]
    omega

/-- The wrapped difference of two words and a borrow (R144). -/
theorem toNat_borrowLaw {m : Nat} (a b : BitVec (m + 1)) (borrow : Bool) :
    (borrowLaw a b borrow).r.toNat + b.toNat + borrow.toNat = a.toNat ∨
      (borrowLaw a b borrow).r.toNat + b.toNat + borrow.toNat = a.toNat + 2 * 2 ^ m := by
  have hpow : 2 ^ (m + 1) = 2 * 2 ^ m := Nat.pow_succ'
  have ha := a.isLt
  have hb := b.isLt
  have hc : borrow.toNat ≤ 1 := Bool.toNat_le borrow
  rw [hpow] at ha hb
  have hr : ((borrowLaw a b borrow).r.toNat : Int) =
      ((a.toNat : Int) - b.toNat - borrow.toNat) % ((2 * 2 ^ m : Nat) : Int) := by
    rw [borrowLaw, BitVec.toNat_ofInt, hpow, Int.toNat_of_nonneg (Int.emod_nonneg _ (by omega))]
  by_cases ht : b.toNat + borrow.toNat ≤ a.toNat
  · rw [Int.emod_eq_of_lt (by omega) (by omega)] at hr
    exact .inl (by omega)
  · rw [← Int.add_emod_right, Int.emod_eq_of_lt (by omega) (by omega)] at hr
    exact .inr (by omega)

/-- V after an addition with carry is signed overflow (D11). -/
theorem addLaw_v_iff {n : Nat} (hn : 0 < n) (a b : BitVec n) (cin : Bool) :
    (addLaw a b cin).v = true ↔
      ¬ (-(2 ^ (n - 1) : Int) ≤ a.toInt + b.toInt + cin.toNat ∧ a.toInt + b.toInt + cin.toNat < 2 ^ (n - 1)) := by
  obtain ⟨m, rfl⟩ : ∃ m, n = m + 1 := ⟨n - 1, by omega⟩
  obtain ⟨ha, hal, hai⟩ := toInt_eq_of_msb a
  obtain ⟨hb, hbl, hbi⟩ := toInt_eq_of_msb b
  obtain ⟨hr, hrl, -⟩ := toInt_eq_of_msb (addLaw a b cin).r
  have hsum := toNat_addLaw a b cin
  have hc : cin.toNat ≤ 1 := Bool.toNat_le cin
  have hpow : ((2 ^ m : Nat) : Int) = 2 ^ m := by push_cast; rfl
  have hv : (addLaw a b cin).v = true ↔
      (2 ^ m ≤ a.toNat ↔ 2 ^ m ≤ b.toNat) ∧ ¬ (2 ^ m ≤ (addLaw a b cin).r.toNat ↔ 2 ^ m ≤ a.toNat) := by
    rw [← ha, ← hb, ← hr, ← Bool.eq_iff_iff, ← Bool.eq_iff_iff]
    change (a.msb == b.msb && (addLaw a b cin).r.msb != a.msb) = true ↔ _
    rw [Bool.and_eq_true, beq_iff_eq, bne_iff_ne]
  rw [hv, Nat.add_sub_cancel, ← hpow]
  generalize 2 ^ m = p at *
  omega

/-- V after a subtraction with borrow is signed overflow (D11). -/
theorem subLaw_v_iff {n : Nat} (hn : 0 < n) (a b : BitVec n) (borrow : Bool) :
    (subLaw a b borrow).v = true ↔
      ¬ (-(2 ^ (n - 1) : Int) ≤ a.toInt - b.toInt - borrow.toNat ∧
        a.toInt - b.toInt - borrow.toNat < 2 ^ (n - 1)) := by
  obtain ⟨m, rfl⟩ : ∃ m, n = m + 1 := ⟨n - 1, by omega⟩
  obtain ⟨ha, hal, hai⟩ := toInt_eq_of_msb a
  obtain ⟨hb, hbl, hbi⟩ := toInt_eq_of_msb b
  obtain ⟨hr, hrl, -⟩ := toInt_eq_of_msb (borrowLaw a b borrow).r
  have hdiff := toNat_borrowLaw a b borrow
  have hc : borrow.toNat ≤ 1 := Bool.toNat_le borrow
  have hpow : ((2 ^ m : Nat) : Int) = 2 ^ m := by push_cast; rfl
  have hv : (subLaw a b borrow).v = true ↔
      ¬ (2 ^ m ≤ a.toNat ↔ 2 ^ m ≤ b.toNat) ∧ ¬ (2 ^ m ≤ (borrowLaw a b borrow).r.toNat ↔ 2 ^ m ≤ a.toNat) := by
    rw [← ha, ← hb, ← hr, ← Bool.eq_iff_iff, ← Bool.eq_iff_iff]
    change (a.msb != b.msb && (borrowLaw a b borrow).r.msb != a.msb) = true ↔ _
    rw [Bool.and_eq_true, bne_iff_ne, bne_iff_ne]
  rw [hv, Nat.add_sub_cancel, ← hpow]
  generalize 2 ^ m = p at *
  omega

theorem widthBitCount_pos (w : Width) : 0 < widthBitCount w := by cases w <;> decide

/-- Settles O15: the wrapped result differs from the exact one by 0 or `2 ^ n`, and the sign bits tell which. -/
theorem overflowIsSignedOverflow : Obligations.OverflowIsSignedOverflow := fun w a b cin =>
  ⟨addLaw_v_iff (widthBitCount_pos w) a b cin, subLaw_v_iff (widthBitCount_pos w) a b cin⟩

/-! ### Comparison -/

/-- Flags after CMP of the operands (R152). -/
def State.compared (s : State) (src : AluSrc) (rd : Reg) (w : Width) : Half :=
  setCZN (borrowLaw (s.aluValue src w) (s.laneRead rd w) false).r
    (borrowLaw (s.aluValue src w) (s.laneRead rd w) false).c s.flags

/-- What CMP answers (R152); with R0 in the destination field free values come in (D31). -/
theorem exec_cmp_untranslated {s : State} (h : s.untranslated) (src : AluSrc) (rd : Reg) (w : Width) :
    exec (.cmp src rd w) s =
      .next (if rd = .r0 then ((s.startInstr (aluSrcLen src)).withFlags (s.compared src rd w)).afterCmpR0
        else (s.startInstr (aluSrcLen src)).withFlags (s.compared src rd w)).endInstr := by
  change execCmp src rd w s = _
  refine run_ok ?_
  rw [aluOperand_untranslated (show (s.startInstr (aluSrcLen src)).untranslated from h), Res.bind_ok,
    State.aluValue_startInstr]
  dsimp only
  rw [State.laneRead_startInstr, State.startInstr_flags]
  rfl

/-- The flags of CMP, in the words of claims. -/
theorem flagsAfter_compared (s : State) (src : AluSrc) (rd : Reg) (w : Width) :
    FlagsAfter s.flags (s.compared src rd w)
      (alsoFlag .c (decide ((s.aluValue src w).toNat < (s.laneRead rd w).toNat))
        (znOf (BitVec.ofInt (widthBitCount w) (((s.aluValue src w).toNat : Int) - (s.laneRead rd w).toNat)))) := by
  have hlaw := flagsAfter_setCZN (borrowLaw (s.aluValue src w) (s.laneRead rd w) false).r
    (borrowLaw (s.aluValue src w) (s.laneRead rd w) false).c s.flags
  have hc : (borrowLaw (s.aluValue src w) (s.laneRead rd w) false).c =
      decide ((s.aluValue src w).toNat < (s.laneRead rd w).toNat) := by
    simp only [borrowLaw, Bool.toNat_false, decide_eq_decide]
    omega
  have hr : (borrowLaw (s.aluValue src w) (s.laneRead rd w) false).r =
      BitVec.ofInt (widthBitCount w) (((s.aluValue src w).toNat : Int) - (s.laneRead rd w).toNat) := by
    simp [borrowLaw]
  rw [← hc, ← hr]
  exact hlaw

/-- CMP into R0 writes no other register. -/
theorem reg_afterCmpR0 (s : State) (len : Word) (f : Half) {q : Reg} (h0 : q ≠ .r0) (h7 : q ≠ .r7) :
    ((s.startInstr len).withFlags f).afterCmpR0.endInstr.reg q = s.reg q := by
  cases q with
  | r0 => exact absurd rfl h0
  | r7 => exact absurd rfl h7
  | _ => simp [State.reg]

theorem memoryKept_afterCmpR0 (s : State) (len : Word) (f : Half) :
    MemoryKept s ((s.startInstr len).withFlags f).afterCmpR0.endInstr :=
  memoryKept_of_eq (by simp) (by simp) (by simp) (by simp) (by simp)

theorem mmuRegsKept_afterCmpR0 (s : State) (len : Word) (f : Half) :
    MmuRegsKept s ((s.startInstr len).withFlags f).afterCmpR0.endInstr :=
  ⟨by simp, by simp⟩

/-- Settles O16, by whether R0 is in the destination field. -/
theorem compareResult : Obligations.CompareResult := by
  intro src rd w s h n a b r
  have hflags := flagsAfter_compared s src rd w
  refine ⟨_, exec_cmp_untranslated h src rd w, ?_⟩
  split
  next hrd =>
    rw [State.endInstr_flags, State.afterCmpR0_flags, State.withFlags_flags]
    exact ⟨fun q h0 h7 => reg_afterCmpR0 s _ _ h0 h7, rfl, hflags, memoryKept_afterCmpR0 s _ _,
      mmuRegsKept_afterCmpR0 s _ _, fun h0 => absurd hrd h0⟩
  next hrd =>
    obtain ⟨hgeneral, -, hvalid, hheld, hpc⟩ := regsAfter_none s (aluSrcLen src) (s.compared src rd w)
    rw [State.endInstr_flags, State.withFlags_flags]
    exact ⟨hgeneral, hpc, hflags, memoryKept_withFlags s _ _, mmuRegsKept_withFlags s _ _, fun _ => ⟨hvalid, hheld⟩⟩

/-! ### The order of the operands after a subtraction -/

/-- The difference of two numbers, taken modulo `2 ^ n`. -/
theorem ofInt_toNat_sub_toNat {n : Nat} (a b : BitVec n) : BitVec.ofInt n ((a.toNat : Int) - b.toNat) = a - b := by
  apply BitVec.eq_of_toInt_eq
  rw [BitVec.toInt_ofInt, BitVec.toInt_sub, BitVec.toInt_eq_toNat_bmod, BitVec.toInt_eq_toNat_bmod, Int.bmod_sub_bmod,
    Int.sub_bmod_bmod]

theorem borrowLaw_r {n : Nat} (a b : BitVec n) : (borrowLaw a b false).r = a - b := by
  rw [← ofInt_toNat_sub_toNat]
  simp [borrowLaw]

/-- The difference is zero exactly for equal operands. -/
theorem sub_eq_zero_iff {n : Nat} (a b : BitVec n) : a - b = 0#n ↔ a = b := by
  rw [BitVec.sub_eq_iff_eq_add, BitVec.zero_add]

/-- The borrow of a difference is the unsigned order. -/
theorem borrowLaw_c {n : Nat} (a b : BitVec n) : (borrowLaw a b false).c = true ↔ a.toNat < b.toNat := by
  simp only [borrowLaw, Bool.toNat_false, decide_eq_true_eq]
  omega

/-- The sign of a difference, corrected by V, is the signed order (46_branch.md R231). -/
theorem borrowLaw_lessThan {n : Nat} (hn : 0 < n) (a b : BitVec n) :
    ((borrowLaw a b false).r.msb != (borrowLaw a b false).v) = true ↔ a.toInt < b.toInt := by
  obtain ⟨m, rfl⟩ : ∃ m, n = m + 1 := ⟨n - 1, by omega⟩
  have hv := subLaw_v_iff hn a b false
  obtain ⟨-, -, hai⟩ := toInt_eq_of_msb a
  obtain ⟨-, -, hbi⟩ := toInt_eq_of_msb b
  obtain ⟨hr, hrl, -⟩ := toInt_eq_of_msb (borrowLaw a b false).r
  have hdiff := toNat_borrowLaw a b false
  have hpow : ((2 ^ m : Nat) : Int) = 2 ^ m := by push_cast; rfl
  rw [subLaw_eq, Nat.add_sub_cancel, ← hpow] at hv
  rw [bne_iff_ne, ne_eq, Bool.eq_iff_iff, hr, hv]
  rw [Bool.toNat_false] at hdiff ⊢
  generalize 2 ^ m = p at *
  omega

/-- Settles O17: the flags CMP and SUB leave are those of `borrowLaw`, which decides both orders. -/
theorem comparisonDecidesOrder : Obligations.ComparisonDecidesOrder := by
  intro src rd w s t u h ht hu a b
  have htf := flagsAfter_compared s src rd w
  have huf := flagsAfter_setCZVN (borrowLaw a b false) s.flags
  have ht' : t.flags = s.compared src rd w := by
    have hnext := ht.symm.trans (exec_cmp_untranslated h src rd w)
    injection hnext with hnext
    rw [hnext]
    split
    · rfl
    · rfl
  have hu' : u.flags = setCZVN (borrowLaw a b false) s.flags := by
    have hnext := hu.symm.trans ((exec_sub src rd w s).trans (execAlu2_untranslated h _ src rd w))
    injection hnext with hnext
    rw [hnext]
    rfl
  have hzero : ∀ x : BitVec (widthBitCount w), x = a - b → (decide (x = 0#_) = true ↔ a = b) := fun x hx => by
    rw [decide_eq_true_iff, hx, sub_eq_zero_iff]
  refine ⟨?_, ?_, ?_, ?_, ?_⟩
  · rw [State.flag, ht', htf .z]
    exact hzero _ (ofInt_toNat_sub_toNat a b)
  · rw [State.flag, ht', htf .c]
    exact decide_eq_true_iff
  · rw [State.flag, hu', huf .z]
    exact hzero _ (borrowLaw_r a b)
  · rw [State.flag, hu', huf .c]
    exact borrowLaw_c a b
  · rw [lessThan, hu', huf .n, huf .v, ← borrowLaw_lessThan (widthBitCount_pos w) a b, BitVec.msb_eq_getLsbD_last]
    rfl

end Sys2Proof.Machine
end

section
/-! The shifts (44_shift.md) and the one-operand instructions (45_unary.md) while Flags.MMU = 0: every bit of the result,
the flags and the frame. -/

namespace Sys2Proof.Machine

/-! ### The common forms -/

theorem State.regWrite_withFlags (s : State) (f : Half) (i : Reg) (v : Word) :
    (s.withFlags f).regWrite i v = (s.regWrite i v).withFlags f := by
  cases i with
  | _ => rfl

/-- What the common form of the shifts answers: the result of a memory operand goes to R0 only (44_shift.md R210, D14). -/
theorem execShift_untranslated {s : State} (h : s.untranslated)
    (law : (n : Nat) → BitVec n → Nat → Bool → BitVec n × Bool) (op : UnOp) (k : Amount) (w : Width) :
    execShift law op k w s =
      .next (((s.startInstr (unOpLen op)).regWrite (unOpTarget op) (laneMerge w (s.regRead (unOpTarget op))
        (law _ (s.unValue op w) (amountCount k) (s.flag .c)).1)).withFlags
          (setCZN (law _ (s.unValue op w) (amountCount k) (s.flag .c)).1
            (law _ (s.unValue op w) (amountCount k) (s.flag .c)).2 s.flags)).endInstr := by
  refine run_ok ?_
  rw [unOperand_untranslated (show (s.startInstr (unOpLen op)).untranslated from h), Res.bind_ok,
    State.unValue_startInstr]
  dsimp only
  rw [State.flag_startInstr, State.startInstr_flags]
  simp only [shiftResult, params, Bool.false_eq_true, if_false]
  rw [State.unResult_eq, State.regWrite_withFlags, State.regRead_withFlags, State.regRead_startInstr]
  rfl

/-- A shift runs as claims say, with the result and the carry its law gives. -/
theorem runsTo_execShift {s : State} (h : s.untranslated) {i : Instr} {op : UnOp} {k : Amount} {w : Width}
    {r : BitVec (widthBitCount w)} {c : Bool} {law : (n : Nat) → BitVec n → Nat → Bool → BitVec n × Bool}
    (hi : exec i s = execShift law op k w s)
    (hlaw : law (widthBitCount w) (s.unValue op w) (amountCount k) (s.flag .c) = (r, c)) :
    RunsTo i s (onlyReg (unOpTarget op) (laneMerge w (s.regRead (unOpTarget op)) r)) (s.pc + unOpLen op)
      (alsoFlag .c c (znOf r)) := by
  have hnext := hi.trans (execShift_untranslated h law op k w)
  rw [hlaw] at hnext
  exact runsTo_regWrite hnext (flagsAfter_setCZN r c s.flags)

/-- What the common form of the one-operand instructions answers (45_unary.md R220). -/
theorem execUnary_untranslated {s : State} (h : s.untranslated)
    (f : (w : Width) → BitVec (widthBitCount w) → BitVec (widthBitCount w)) (op : UnOp) (w : Width) :
    execUnary f op w s =
      .next (((s.startInstr (unOpLen op)).regWrite (unOpTarget op) (laneMerge w (s.regRead (unOpTarget op))
        (f w (s.unValue op w)))).withFlags (setZN (f w (s.unValue op w)) s.flags)).endInstr := by
  refine run_ok ?_
  rw [unOperand_untranslated (show (s.startInstr (unOpLen op)).untranslated from h), Res.bind_ok,
    State.unValue_startInstr, State.unResult_eq, State.regRead_startInstr, State.startInstr_flags]

/-- A one-operand instruction runs as claims say, with the result its function gives. -/
theorem runsTo_execUnary {s : State} (h : s.untranslated) {i : Instr} {op : UnOp} {w : Width}
    {r : BitVec (widthBitCount w)} {f : (w : Width) → BitVec (widthBitCount w) → BitVec (widthBitCount w)}
    (hi : exec i s = execUnary f op w s) (hr : f w (s.unValue op w) = r) :
    RunsTo i s (onlyReg (unOpTarget op) (laneMerge w (s.regRead (unOpTarget op)) r)) (s.pc + unOpLen op) (znOf r) := by
  have hnext := hi.trans (execUnary_untranslated h f op w)
  rw [hr] at hnext
  exact runsTo_regWrite hnext (flagsAfter_setZN r s.flags)

/-! ### The laws of the shifts, bit by bit -/

/-- A shift moves fewer positions than any lane has bits (30_encoding.md R112). -/
theorem amountCount_lt (k : Amount) (w : Width) : 0 < amountCount k ∧ amountCount k < widthBitCount w := by
  cases k <;> cases w <;> decide

theorem getLsbD_shlLaw {n : Nat} (v : BitVec n) (k : Nat) (fill : Bool) {j : Nat} (hj : j < n) :
    (shlLaw v k fill).1.getLsbD j = if j < k then fill else v.getLsbD (j - k) := by
  have hfill : (if fill then BitVec.ofNat n (2 ^ k - 1) else 0#n).getLsbD j = (fill && decide (j < k)) := by
    cases fill with
    | false => simp
    | true => rw [if_pos rfl, BitVec.getLsbD_ofNat, Nat.testBit_two_pow_sub_one, decide_eq_true hj]
  rw [shlLaw, BitVec.getLsbD_or, hfill, BitVec.getLsbD_shiftLeft]
  by_cases hk : j < k
  · simp [hk]
  · simp [hk, hj]

theorem getLsbD_shrLaw {n : Nat} (v : BitVec n) {k : Nat} (hk : k < n) (fill : Bool) {j : Nat} (hj : j < n) :
    (shrLaw v k fill).1.getLsbD j = if n ≤ j + k then fill else v.getLsbD (j + k) := by
  have hfill : (if fill then BitVec.allOnes n <<< (n - k) else 0#n).getLsbD j = (fill && decide (n ≤ j + k)) := by
    cases fill with
    | false => simp
    | true =>
      have hsub : j - (n - k) < n := by omega
      rw [if_pos rfl, BitVec.getLsbD_shiftLeft, BitVec.getLsbD_allOnes, decide_eq_true hj, decide_eq_true hsub,
        Bool.true_and, Bool.and_true, Bool.true_and, Bool.not_eq_eq_eq_not, ← decide_not, decide_eq_decide]
      omega
  rw [shrLaw, BitVec.getLsbD_or, hfill, BitVec.getLsbD_ushiftRight, Nat.add_comm k j]
  by_cases hn : n ≤ j + k
  · simp [hn]
  · simp [hn]

/-- Settles O33: SHL and SHLC are the common form with the law of the left shift. -/
theorem shiftLeftResult : Obligations.ShiftLeftResult := by
  intro op k w s h n v rd withCarry fill i
  refine ⟨(shlLaw v (amountCount k) fill).1, fun j hj => getLsbD_shlLaw v _ fill hj, ?_⟩
  cases withCarry with
  | false => exact runsTo_execShift h (exec_shl op k w s) rfl
  | true => exact runsTo_execShift h (exec_shlc op k w s) rfl

/-- Settles O34: SHR and SHRC are the common form with the law of the right shift. -/
theorem shiftRightResult : Obligations.ShiftRightResult := by
  intro op k w s h n v rd withCarry fill i
  refine ⟨(shrLaw v (amountCount k) fill).1, fun j hj => getLsbD_shrLaw v (amountCount_lt k w).2 fill hj, ?_⟩
  cases withCarry with
  | false => exact runsTo_execShift h (exec_shr op k w s) rfl
  | true => exact runsTo_execShift h (exec_shrc op k w s) rfl

/-! ### INC and DEC -/

theorem add_one_eq_ofNat {n : Nat} (v : BitVec n) : v + 1 = BitVec.ofNat n (v.toNat + 1) := by
  apply BitVec.eq_of_toNat_eq
  simp [BitVec.toNat_add]

theorem sub_one_eq_ofNat {n : Nat} (hn : 0 < n) (v : BitVec n) : v - 1 = BitVec.ofNat n (v.toNat + 2 ^ n - 1) := by
  apply BitVec.eq_of_toNat_eq
  have hpow : 1 < 2 ^ n := Nat.one_lt_two_pow (by omega)
  have hone : (1 : BitVec n).toNat = 1 := Nat.mod_eq_of_lt hpow
  rw [BitVec.toNat_sub, BitVec.toNat_ofNat, hone]
  congr 1
  omega

/-- Settles O35: INC and DEC are the common form with an addition and a subtraction of one. -/
theorem incrementResult : Obligations.IncrementResult := by
  intro op w s h n v rd up down
  exact ⟨runsTo_execUnary h (exec_inc op w s) (add_one_eq_ofNat v),
    runsTo_execUnary h (exec_dec op w s) (sub_one_eq_ofNat (widthBitCount_pos w) v)⟩

/-! ### SWAP and MIRROR -/

/-- The two halves of `2 * m` bits exchanged. -/
theorem getLsbD_append_halves {m : Nat} (hi lo : BitVec m) (v : BitVec (m + m)) (hlo : lo = v.extractLsb' m m)
    (hhi : hi = v.extractLsb' 0 m) {j : Nat} (hj : j < m + m) :
    (hi ++ lo).getLsbD j = v.getLsbD ((j + m) % (m + m)) := by
  rw [BitVec.getLsbD_append, hlo, hhi]
  by_cases h : j < m
  · rw [Nat.mod_eq_of_lt (by omega)]
    simp [h, Nat.add_comm]
  · rw [show j + m = (j - m) + (m + m) by omega, Nat.add_mod_right, Nat.mod_eq_of_lt (by omega)]
    simp [h]
    omega

/-- Bit by bit, SWAP exchanges the halves (R223). -/
theorem getLsbD_swapHalves {w : Width} (hw : w ≠ .byte) (v : BitVec (widthBitCount w)) {j : Nat}
    (hj : j < widthBitCount w) :
    (swapHalves w v).getLsbD j = v.getLsbD ((j + widthBitCount w / 2) % widthBitCount w) := by
  cases w with
  | byte => exact absurd rfl hw
  | word => exact getLsbD_append_halves (m := 8) _ _ v rfl rfl hj
  | high => exact getLsbD_append_halves (m := 8) _ _ v rfl rfl hj
  | long => exact getLsbD_append_halves (m := 16) _ _ v rfl rfl hj

/-- Bit `j` of the mirror image of the low `k` bits is bit `k - 1 - j` (R224). -/
theorem getLsbD_mirrorBits {n : Nat} (v : BitVec n) (k : Nat) (hk : k ≤ n) (j : Nat) :
    (mirrorBits v k).getLsbD j = (decide (j < k) && v.getLsbD (k - 1 - j)) := by
  induction k generalizing j with
  | zero => simp [mirrorBits]
  | succ k ih =>
    have hbit : (if v.getLsbD k then 1#n else 0#n).getLsbD j = (decide (j = 0) && v.getLsbD k) := by
      cases v.getLsbD k with
      | false => simp
      | true => simp [BitVec.getLsbD_one, show 0 < n by omega]
    rw [mirrorBits, BitVec.getLsbD_or, hbit, BitVec.getLsbD_shiftLeft, ih (by omega)]
    cases j with
    | zero => simp
    | succ j =>
      rw [show k + 1 - 1 - (j + 1) = k - 1 - j by omega]
      by_cases hj : j < k
      · simp [hj, show j + 1 < n by omega]
      · simp [hj]

/-- Settles O36: both are the common form, at the widths they list. -/
theorem swapMirrorResult : Obligations.SwapMirrorResult := by
  intro op w s h n v rd
  refine ⟨fun hw => ⟨swapHalves w v, fun j hj => getLsbD_swapHalves hw v hj, ?_⟩,
    fun hw => ⟨mirrorImage w v, fun j hj => ?_, ?_⟩⟩
  · exact runsTo_execUnary h (exec_swap hw op s) rfl
  · rw [mirrorImage, getLsbD_mirrorBits v n (Nat.le_refl n), decide_eq_true hj, Bool.true_and]
  · have hlisted : ¬ (w = .high ∨ w = .long) := by rcases hw with rfl | rfl <;> decide
    exact runsTo_execUnary h (exec_mirror hlisted op s) rfl

/-! ### BIT -/

/-- Settles O37: Z comes from the operand and R1, N and V from bits 7 and 6, and no register is written. -/
theorem bitTestResult : Obligations.BitTestResult := by
  intro op w s h v
  have hnext : exec (.bit op w) s = .next ((s.startInstr (unOpLen op)).withFlags
      (setFlag (setFlag (setFlag s.flags .z (v &&& s.laneRead .r1 w == 0)) .n (v.getLsbD 7)) .v
        (v.getLsbD 6))).endInstr := by
    change execBit op w s = _
    refine run_ok ?_
    rw [unOperand_untranslated (show (s.startInstr (unOpLen op)).untranslated from h), Res.bind_ok,
      State.unValue_startInstr, State.laneRead_startInstr, State.startInstr_flags]
  exact runsTo_none hnext (flagsAfter_bit s.flags _ _ _)

end Sys2Proof.Machine
end

section
/-! MOV, MOVX, LD and ST while Flags.MMU = 0 (42_move.md, 41_load_store.md), the refused auto modes (30_encoding.md R108),
and the idioms made of them. -/

namespace Sys2Proof.Machine

/-! ### Reading claims -/

/-- The register an instruction wrote, R0 and R7 included. -/
theorem RegsAfter.reg_of_some {s t : State} {w : RegWrites} {next v : Word} (h : RegsAfter s t w next) {r : Reg}
    (hw : w r = some v) : t.reg r = v := by
  by_cases h0 : r = .r0
  · subst h0
    rw [h.implicit, hw, Option.getD_some]
  by_cases h7 : r = .r7
  · subst h7
    exact h.pc.trans (by rw [hw, Option.getD_some])
  · rw [h.general r h0 h7, hw, Option.getD_some]

/-- Any other general register. -/
theorem RegsAfter.reg_of_none {s t : State} {w : RegWrites} {next : Word} (h : RegsAfter s t w next) {r : Reg}
    (h0 : r ≠ .r0) (h7 : r ≠ .r7) (hw : w r = none) : t.reg r = s.reg r := by
  rw [h.general r h0 h7, hw, Option.getD_none]

/-- A register but R7 reads between two instructions as it does inside the second. -/
theorem State.reg_eq_regRead (s : State) {r : Reg} (h : r ≠ .r7) : s.reg r = s.regRead r := by
  cases r with
  | r7 => exact absurd rfl h
  | _ => rfl

/-- An instruction that lists no MMU flag leaves the MMU off. -/
theorem untranslated_of_flagsAfter {s t : State} {w : FlagWrites} (h : s.untranslated)
    (hf : FlagsAfter s.flags t.flags w) (hw : w .mmu = none) : t.untranslated :=
  (hf .mmu).trans (by rw [hw]; exact h)

/-- After an instruction that wrote R0 no interrupt is taken (10_state.md R35). -/
theorem RegsAfter.not_interruptible {s t : State} {v : Word} {next : Word}
    (h : RegsAfter s t (onlyReg .r0 v) next) : t.interruptible = false := by
  rw [State.interruptible, h.held]
  exact Bool.and_false _

theorem laneOf_laneMerge (w : Width) (t : Word) (v : BitVec (widthBitCount w)) : laneOf w (laneMerge w t v) = v := by
  apply BitVec.eq_of_getLsbD_eq
  intro j hj
  rw [laneOf, BitVec.getLsbD_extractLsb', decide_eq_true hj, Bool.true_and,
    laneMerge_getLsbD_of_mem_lane w t v ⟨by omega, by omega⟩, Nat.add_sub_cancel_left]

theorem laneMerge_long (t v : Word) : laneMerge .long t v = v := by
  apply BitVec.eq_of_getLsbD_eq
  intro j hj
  exact laneMerge_getLsbD_of_mem_lane .long t v ⟨Nat.zero_le j, by simpa [laneLow, widthBitCount] using hj⟩

/-! ### MOV and MOVX -/

/-- MOV completes from every state, the MMU on or off: it makes no access (R171). -/
theorem runsTo_mov (src : MovSrc) (rd : Reg) (w : Width) (s : State) :
    RunsTo (.mov src rd w) s (onlyReg rd (laneMerge w (s.regRead rd) (s.movOperand src w))) (s.pc + movSrcLen src)
      (znOf (s.movOperand src w)) := by
  refine runsTo_regWrite (f := setZN (s.movOperand src w) s.flags) ?_ (flagsAfter_setZN _ _)
  change execMov src rd w s = _
  refine run_ok ?_
  rw [State.movOperand_startInstr, State.startInstr_flags]
  dsimp only
  rw [State.laneWrite_eq, State.regRead_startInstr]

/-- Settles O21: MOV and MOVX write one register and Z and N, from operands that need no access. -/
theorem moveResult : Obligations.MoveResult := by
  intro src rd w s v
  refine ⟨runsTo_mov src rd w s, runsTo_regWrite (f := setZN (v.signExtend 32) s.flags) ?_ (flagsAfter_setZN _ _)⟩
  change execMovx src rd w s = _
  refine run_ok ?_
  rw [State.movOperand_startInstr, State.startInstr_flags]
  rfl

/-- Settles O44: the first MOV leaves `hi` in the high half of R0, where the second reads it (30_encoding.md R111). -/
theorem longConstantIdiom : Obligations.LongConstantIdiom := by
  intro hi lo rd s
  obtain ⟨t, ht, hregs, -⟩ := runsTo_mov (.imm hi) .r0 .high s
  obtain ⟨u, hu, hregs', -⟩ := runsTo_mov (.imm lo) rd .long t
  refine ⟨t, u, ht, hregs.not_interruptible, hu, ?_⟩
  have hr0 : (t.regRead .r0).extractLsb' 16 16 = hi := by
    rw [← State.reg_eq_regRead t (by decide), hregs.reg_of_some (if_pos rfl)]
    exact laneOf_laneMerge .high _ hi
  rw [hregs'.reg_of_some (if_pos rfl)]
  exact (laneMerge_long _ _).trans (congrArg (· ++ lo) hr0)

/-! ### LD -/

/-- The registers after an instruction with a load/store operand that writes one more register. -/
theorem regsAfter_memOp_regWrite (s : State) {m : MemOp} (hm : autoBaseOk m) (n : Size) (rd : Reg) (v : Word)
    (f : Half) :
    RegsAfter s (((((s.startInstr (memOpLen m)).afterMemOp m n).regWrite rd v).withFlags f).endInstr)
      (fun q => if q = rd then some v else s.baseWrite m n q) (s.pc + memOpLen m) := by
  cases m with
  | indirect b => exact regsAfter_regWrite s 2 rd v f
  | indexed b o => exact regsAfter_regWrite s 4 rd v f
  | autoInc b =>
    have htwo := regsAfter_two s 2 (b := b) (rd := rd) (s.regRead b + BitVec.ofNat 32 (Size.bytes n)) v f (hm rfl)
    rwa [← State.regRead_startInstr s 2] at htwo
  | autoDec b =>
    have htwo := regsAfter_two s 2 (b := b) (rd := rd) (s.regRead b - BitVec.ofNat 32 (Size.bytes n)) v f (hm rfl)
    rwa [← State.regRead_startInstr s 2] at htwo

/-- LD with an accepted operand (R161): the memory access, then the lane and Z and N. -/
theorem execLd_eq {src : MemOp} {rd : Reg} (hm : autoBaseOk src) (hrd : isAuto src = true → memOpBase src ≠ rd)
    (w : Width) (s : State) :
    execLd src rd w s = run (memOpLen src) (fun s =>
      (memRead (widthSize w) (s.memOpAddr src (widthSize w)) (s.afterMemOp src (widthSize w))).bind fun v s =>
        .ok () ((s.laneWrite rd w (v.setWidth _)).withFlags (setZN (v.setWidth (widthBitCount w)) s.flags))) s := by
  have hbase : ¬ (isAuto src && memOpBase src == rd) = true := by simpa using hrd
  simp only [execLd, effAddr_ok hm, Res.bind_ok, if_neg hbase]

/-- Settles O18: the operand is read after the base update, which leaves the destination as it reads. -/
theorem loadResult : Obligations.LoadResult := by
  intro src rd w s h hm hrd v
  have hnext : exec (.ld src rd w) s =
      .next ((((s.startInstr (memOpLen src)).afterMemOp src (widthSize w)).regWrite rd
        (laneMerge w (s.regRead rd) v)).withFlags (setZN v s.flags)).endInstr := by
    refine (execLd_eq hm hrd w s).trans (run_ok ?_)
    rw [memRead_untranslated (untranslated_of_flags h (by simp)), Res.bind_ok, State.laneWrite_eq,
      State.regRead_afterMemOp _ _ _ _ hrd, State.regRead_startInstr, State.ioValue_afterMemOp,
      State.ioValue_startInstr, State.memOpAddr_startInstr, State.afterMemOp_flags, State.startInstr_flags]
  exact ⟨_, hnext, regsAfter_memOp_regWrite s hm _ rd _ _, flagsAfter_setZN v s.flags,
    memoryKept_of_eq (by simp) (by simp) (by simp) (by simp) (by simp), ⟨by simp, by simp⟩⟩

/-! ### ST -/

/-- The address and the base update of ST (R162, R163). -/
theorem stAddr_ok {dst : MemOp} (hm : autoBaseOk dst) (data : Reg) (n : Size) (s : State) :
    stAddr dst data n s = .ok (s.storeAddr dst data n) (s.afterMemOp dst n) := by
  unfold stAddr State.storeAddr
  split
  next hzero =>
    obtain ⟨-, -, hauto⟩ := hzero
    cases dst with
    | indirect b => rfl
    | indexed b o => rfl
    | autoInc b => exact nomatch hauto
    | autoDec b => exact nomatch hauto
  next => exact effAddr_ok hm n s

/-- ST with an accepted operand (R163): the data is read first, then the memory access, then Z and N. -/
theorem execSt_eq {dst : MemOp} {data : Reg} (hm : autoBaseOk dst) (hdata : isAuto dst = true → memOpBase dst ≠ data)
    (w : Width) (s : State) :
    execSt dst data w s = run (memOpLen dst) (fun s =>
      (memWrite (widthSize w) (s.storeAddr dst data (widthSize w)) ((s.laneRead data w).setWidth 32)
        (s.afterMemOp dst (widthSize w))).bind fun _ t =>
          .ok () (t.withFlags (setZN (s.laneRead data w) t.flags))) s := by
  have hbase : ¬ (isAuto dst && memOpBase dst == data) = true := by simpa using hdata
  simp only [execSt, stAddr_ok hm, Res.bind_ok, if_neg hbase, params, if_true]

@[simp] theorem State.storeAddr_startInstr (s : State) (len : Word) (dst : MemOp) (data : Reg) (n : Size) :
    (s.startInstr len).storeAddr dst data n = s.storeAddr dst data n := by
  simp only [State.storeAddr, State.memOpAddr_startInstr]

/-- An instruction that updates the base of its operand, stores, and then writes Flags runs as claims say; `t` is where it
stores from, with free values used up at most. -/
theorem runsStoring_memOp {i : Instr} {s t : State} {m : MemOp} {n k : Size} {addr v : Word} {f : Half} {w : FlagWrites}
    (h : s.untranslated) (hm : autoBaseOk m)
    (ht : t = { (s.startInstr (memOpLen m)).afterMemOp m n with draws := t.draws })
    (hnext : exec i s = .next ((t.ioStore addr (littleBytes (Size.bytes k) v)).withFlags f).endInstr)
    (hf : FlagsAfter s.flags f w) :
    RunsStoring i s (s.baseWrite m n) (s.pc + memOpLen m) w addr (Size.bytes k) v := by
  have hflags : t.flags = s.flags := by rw [ht]; simp
  have hstored := stored_ioStore (untranslated_of_flags h hflags) k addr v
  refine ⟨_, hnext, regsAfter_base hm ?_, hf, stored_congr hstored ?_ ⟨rfl, rfl, rfl, rfl, rfl, rfl, rfl⟩, ?_⟩
  · rw [State.ioStore_rest, ht]
    rfl
  · rw [ht]
    simp
  · refine ⟨?_, ?_⟩
    · simp only [State.endInstr_m0, State.withFlags_m0, State.ioStore_m0]
      rw [ht]
      simp
    · simp only [State.endInstr_m1, State.withFlags_m1, State.ioStore_m1]
      rw [ht]
      simp

/-- Settles O19: the data's lane is read before the base update, and stored at the address the base had before it. -/
theorem storeResult : Obligations.StoreResult := by
  intro dst data w s h hm hdata
  refine runsStoring_memOp (t := (s.startInstr (memOpLen dst)).afterMemOp dst (widthSize w)) (k := widthSize w)
    (f := setZN (s.laneRead data w) s.flags) h hm rfl ?_ (flagsAfter_setZN _ _)
  refine (execSt_eq hm hdata w s).trans (run_ok ?_)
  rw [memWrite_untranslated (untranslated_of_flags h (by simp)), Res.bind_ok, State.ioStore_flags,
    State.afterMemOp_flags, State.startInstr_flags, State.storeAddr_startInstr, State.laneRead_startInstr]

/-! ### Refused auto modes -/

/-- Settles O41: an auto mode on R0 is refused where the address is formed; the base as data or destination after that. -/
theorem autoModeConflictsRefused : Obligations.AutoModeConflictsRefused := by
  intro m r w c n s hauto
  refine ⟨fun h0 => ?_, fun h0 hr => ?_⟩
  · have hst : ∀ k u, stAddr m r k u = .refused .autoModeBaseR0 := fun k u => by
      rw [stAddr, if_neg (fun h => by simp [hauto] at h), effAddr_refused hauto h0]
    refine ⟨?ld, ?st, ?lcntr, ?scntr, ?lmmu, ?smmu⟩
    case ld =>
      change execLd m r w s = _
      simp only [execLd, run, effAddr_refused hauto h0, Res.bind_refused]
    case st =>
      change execSt m r w s = _
      simp only [execSt, run, hst, Res.bind_refused]
    case lcntr =>
      change execLcntr m c s = _
      simp only [execLcntr, run, effAddr_refused hauto h0, Res.bind_refused]
    case scntr =>
      change execScntr m c s = _
      simp only [execScntr, run, effAddr_refused hauto h0, Res.bind_refused]
    case lmmu =>
      change execLmmu m n s = _
      simp only [execLmmu, run, effAddr_refused hauto h0, Res.bind_refused]
    case smmu =>
      change execSmmu m n s = _
      simp only [execSmmu, run, effAddr_refused hauto h0, Res.bind_refused]
  · have hm : autoBaseOk m := fun _ => h0
    have hbase : (isAuto m && memOpBase m == r) = true := by simp [hauto, hr]
    refine ⟨?_, ?_⟩
    · change execLd m r w s = _
      simp only [execLd, run, effAddr_ok hm, Res.bind_ok, hbase, if_true]
    · change execSt m r w s = _
      simp only [execSt, run, stAddr_ok hm, Res.bind_ok, hbase, if_true]

end Sys2Proof.Machine
end

section
/-! Idioms of two instructions while Flags.MMU = 0: a push by ST and a pop by LD (41_load_store.md R164), and INC of memory
with the ST of R0 after it (45_unary.md R225, 20_memory.md R90). -/

namespace Sys2Proof.Machine

/-! ### A push and a pop -/

/-- A lane has the bits of its access. -/
theorem widthBitCount_eq (w : Width) : 8 * Size.bytes (widthSize w) = widthBitCount w := by cases w <;> rfl

/-- A lane stored and read back. -/
theorem setWidth_extractLsb'_setWidth (w : Width) (v : BitVec (widthBitCount w)) :
    (((v.setWidth 32).extractLsb' 0 (8 * Size.bytes (widthSize w))).setWidth 32).setWidth (widthBitCount w) = v := by
  have h32 := laneLow_add_widthBitCount_le w
  apply BitVec.eq_of_getLsbD_eq
  intro j hj
  rw [BitVec.getLsbD_setWidth, BitVec.getLsbD_setWidth, BitVec.getLsbD_extractLsb', BitVec.getLsbD_setWidth,
    widthBitCount_eq]
  simp [hj, show j < 32 by omega]

/-- Settles O42: ST stores at SP and lowers it, LD raises SP to the same address and reads there. -/
theorem pushPopRoundTrip : Obligations.PushPopRoundTrip := by
  intro data rd w s h hdata hrd
  obtain ⟨t, ht, hregs, hflags, hstored, -⟩ :=
    storeResult (.autoDec .r6) data w s h (fun _ => by decide) (fun _ => Ne.symm hdata)
  have htu : t.untranslated := untranslated_of_flagsAfter h hflags rfl
  obtain ⟨u, hu, hregs', -⟩ := loadResult (.autoInc .r6) rd w t htu (fun _ => by decide) (fun _ => Ne.symm hrd)
  have hsp : t.r6 = s.r6 - BitVec.ofNat 32 (Size.bytes (widthSize w)) :=
    hregs.reg_of_some (r := .r6) rfl
  have hback : t.r6 + BitVec.ofNat 32 (Size.bytes (widthSize w)) = s.r6 := by rw [hsp, BitVec.sub_add_cancel]
  have hsp' : u.r6 = t.r6 + BitVec.ofNat 32 (Size.bytes (widthSize w)) :=
    hregs'.reg_of_some (r := .r6) ((if_neg (Ne.symm hrd)).trans rfl)
  refine ⟨t, u, ht, hu, hsp'.trans hback, ?_⟩
  have haddr : s.storeAddr (.autoDec .r6) data (widthSize w) = s.r6 :=
    (if_neg (by simp [memOpBase])).trans (memOpAddr_sp_push s _)
  rw [haddr] at hstored
  rw [hregs'.reg_of_some (if_pos rfl), laneOf_laneMerge, memOpAddr_sp_pop, hback, ioValue_of_stored hstored]
  exact setWidth_extractLsb'_setWidth w _

/-! ### Stores of the same bytes -/

/-- `Stored` reads the n low bytes of the value only. -/
theorem Stored.congr_value {s t : State} {a : Word} {n : Nat} {v v' : Word} (h : Stored s t a n v)
    (hv : ∀ k, k < n → v'.extractLsb' (8 * k) 8 = v.extractLsb' (8 * k) 8) : Stored s t a n v' := by
  have hafter : ∀ k, k < n → s.ioByteAfter a k v' = s.ioByteAfter a k v := fun k hk => by
    funext b
    unfold State.ioByteAfter
    split
    next hb => exact hv _ (by omega)
    next => rfl
  have hchange : ∀ k, k < n → s.romChange a v' k = s.romChange a v k := fun k hk => by
    simp only [State.romChange, hafter k hk, hv k hk]
  have hany : (List.range n).any (s.romChange a v') = (List.range n).any (s.romChange a v) := by
    refine Bool.eq_iff_iff.mpr ?_
    simp only [List.any_eq_true, List.mem_range]
    exact exists_congr fun k => and_congr_right fun hk => by rw [hchange k hk]
  refine ⟨fun k hk => (h.inside k hk).trans (hv k hk).symm, h.outside, h.sdram, h.stale, h.tlb, ?_, h.mmuRegs⟩
  rw [h.pending, State.pendingAfterStore, State.pendingAfterStore, hany]

/-- A store after an instruction that kept memory is a store from the state before it. -/
theorem Stored.of_memoryKept {s t u : State} {a : Word} {n : Nat} {v : Word} (hk : MemoryKept s t)
    (hm : MmuRegsKept s t) (h : Stored t u a n v) : Stored s u a n v := by
  have hio : t.ioByte = s.ioByte := funext (hk.bytes .io)
  have hsd : t.busByte .sdram = s.busByte .sdram := funext (hk.bytes .sdram)
  have hchange : t.romChange a v = s.romChange a v := by
    funext k
    have hafter : t.ioByteAfter a k v = s.ioByteAfter a k v := by
      funext b
      simp only [State.ioByteAfter, hio]
    simp only [State.romChange, hafter, hsd]
  refine ⟨h.inside, fun b hb => ?_, fun b => ?_, fun e => ?_, h.tlb.trans hk.tlb, ?_, ?_⟩
  · rw [h.outside b hb, hio]
  · rw [h.sdram, hsd]
  · rw [h.stale, hk.stale, hio]
  · rw [h.pending, State.pendingAfterStore, State.pendingAfterStore, hchange, hk.pending]
  · exact ⟨h.mmuRegs.m0.trans hm.m0, h.mmuRegs.m1.trans hm.m1⟩

/-! ### INC and ST -/

/-- Adding one to a lane read from memory, at the lane's width or at 32 bits, gives the same low bytes. -/
theorem extractLsb'_add_one (w : Width) (x : Word) {k : Nat} (hk : k < Size.bytes (widthSize w)) :
    (x + 1).extractLsb' (8 * k) 8 =
      ((x.setWidth (widthBitCount w) + 1).setWidth 32).extractLsb' (8 * k) 8 := by
  have h32 := laneLow_add_widthBitCount_le w
  have hn := widthBitCount_eq w
  have hlow : (x + 1).setWidth (widthBitCount w) = x.setWidth (widthBitCount w) + 1 := by
    rw [BitVec.setWidth_add _ _ (by omega)]
    cases w <;> rfl
  rw [← hlow]
  apply BitVec.eq_of_getLsbD_eq
  intro j hj
  simp only [BitVec.getLsbD_extractLsb', BitVec.getLsbD_setWidth, decide_eq_true hj, Bool.true_and,
    decide_eq_true (show 8 * k + j < 32 by omega), decide_eq_true (show 8 * k + j < widthBitCount w by omega)]

/-- INC of the memory operand `op` at `a`, then ST of R0 where `m` finds the same address: `a` holds the incremented
value. -/
theorem incrementsMemory_of_addr {op : UnOp} {m : MemOp} {w : Width} {a : Word} {s : State} (h : s.untranslated)
    (hop : unOpTarget op = .r0) (hvalue : s.unValue op w = (s.ioValue (widthSize w) a).setWidth _)
    (hauto : isAuto m = false)
    (haddr : ∀ t : State, t.pc = s.pc + unOpLen op → (∀ r, r ≠ .r0 → r ≠ .r7 → t.reg r = s.reg r) →
      t.storeAddr m .r0 (widthSize w) = a) : IncrementsMemory op m w a s := by
  obtain ⟨t, ht, hregs, hflags, hkept, hmmu⟩ := runsTo_execUnary h (exec_inc op w s) rfl
  rw [hop] at hregs
  have hother : ∀ r, r ≠ .r0 → r ≠ .r7 → t.reg r = s.reg r := fun r h0 h7 =>
    hregs.reg_of_none h0 h7 (if_neg h0)
  obtain ⟨u, hu, -, -, hstored, -⟩ := storeResult m .r0 w t (untranslated_of_flagsAfter h hflags rfl)
    (fun hm => absurd hm (by rw [hauto]; decide)) (fun hm => absurd hm (by rw [hauto]; decide))
  have hlane : t.laneRead .r0 w = s.unValue op w + 1 := by
    rw [State.laneRead, ← State.reg_eq_regRead t (by decide), hregs.reg_of_some (if_pos rfl), laneOf_laneMerge]
  rw [haddr t hregs.pc hother, hlane, hvalue] at hstored
  exact ⟨t, u, ht, hregs.not_interruptible, hu,
    .of_memoryKept hkept hmmu (hstored.congr_value fun k hk => extractLsb'_add_one w _ hk)⟩

/-- Settles O43: base R0 reads zero for INC and is taken as zero by ST, R7 has moved by the length of INC, and any other
base is the same register for both. -/
theorem memoryIncrementIdiom : Obligations.MemoryIncrementIdiom := by
  intro b o w s h
  have hsame : ∀ t : State, b ≠ .r7 → (b = .r0 → s.riValid = false) →
      (∀ r, r ≠ .r0 → r ≠ .r7 → t.reg r = s.reg r) →
      t.storeAddr (.indirect b) .r0 (widthSize w) = s.regRead b ∧
        t.storeAddr (.indexed b o) .r0 (widthSize w) = s.regRead b + o.setWidth 32 := by
    intro t h7 h0 hother
    by_cases hb : b = .r0
    · subst hb
      have hzero : s.regRead .r0 = 0 := by simp [State.regRead, h0 rfl]
      rw [hzero]
      exact ⟨if_pos ⟨rfl, rfl, rfl⟩, (if_pos ⟨rfl, rfl, rfl⟩).trans (BitVec.zero_add _).symm⟩
    · have hread : t.regRead b = s.regRead b := by
        rw [← t.reg_eq_regRead h7, hother b hb h7, s.reg_eq_regRead h7]
      rw [← hread]
      exact ⟨if_neg fun hc => hb hc.1, if_neg fun hc => hb hc.1⟩
  refine ⟨fun h7 h0 => ⟨?_, ?_⟩, fun ho => ?_⟩
  · exact incrementsMemory_of_addr h rfl rfl rfl fun t _ hother => (hsame t h7 h0 hother).1
  · exact incrementsMemory_of_addr h rfl rfl rfl fun t _ hother => (hsame t h7 h0 hother).2
  · refine incrementsMemory_of_addr h rfl rfl rfl fun t hpc _ => ?_
    have hoffset : (o - 4).setWidth 32 = o.setWidth 32 - 4 := by bv_omega
    refine (if_neg fun hc => nomatch hc.1).trans ?_
    change t.pc + 2 + (o - 4).setWidth 32 = _
    rw [hpc, hoffset]
    change s.pc + 4 + 2 + _ = _
    bv_omega

end Sys2Proof.Machine
end

section
/-! Calls, traps, returns and the instructions on Flags and the MMU registers while Flags.MMU = 0
(43_control_system.md). -/

namespace Sys2Proof.Machine

/-! ### Reading claims -/

/-- No flag written is the same Flags. -/
theorem FlagsAfter.eq_of_noFlags {f g : Half} (h : FlagsAfter f g noFlags) : g = f := flags_ext fun k => h k

/-- With no flush bit set, Flags reads back as it stands (10_state.md R46). -/
theorem FlagsReadAs.eq_of_noFlush {f v : Half} (h : FlagsReadAs f v) (hf : f &&& flushMask = 0) : v = f := by
  refine flags_ext fun k => (h k).resolve_right fun hk => ?_
  obtain ⟨hflush, hset⟩ := hk
  have hmask : flushMask.getLsbD (flagIndex k) = true := by
    cases k with
    | fdc | fic | ftl => decide
    | _ => exact nomatch hflush
  have hbit : (f &&& flushMask).getLsbD (flagIndex k) = true := by
    rw [BitVec.getLsbD_and, hmask, Bool.and_true]
    exact hset
  rw [hf] at hbit
  simp at hbit

/-- A value in memory is that of its bytes. -/
theorem ioValue_congr {s t : State} {n : Size} {a : Word}
    (h : ∀ k, k < Size.bytes n → t.ioByte (a + BitVec.ofNat 32 k) = s.ioByte (a + BitVec.ofNat 32 k)) :
    t.ioValue n a = s.ioValue n a := by
  have h0 : t.ioByte a = s.ioByte a := by
    have := h 0 (by cases n <;> decide)
    rwa [BitVec.add_zero] at this
  cases n with
  | one => simp only [State.ioValue, h0]
  | two =>
    have h1 : t.ioByte (a + 1) = s.ioByte (a + 1) := h 1 (by decide)
    simp only [State.ioValue, h0, h1]
  | four =>
    have h1 : t.ioByte (a + 1) = s.ioByte (a + 1) := h 1 (by decide)
    have h2 : t.ioByte (a + 2) = s.ioByte (a + 2) := h 2 (by decide)
    have h3 : t.ioByte (a + 3) = s.ioByte (a + 3) := h 3 (by decide)
    simp only [State.ioValue, h0, h1, h2, h3]

/-- A value that lies beside a store is kept: `d` bytes above where the store begins, modulo 2^32. -/
theorem Stored.ioValue_of_disjoint {s t : State} {addr v d : Word} {m : Nat} (h : Stored s t addr m v) {n : Size}
    (hd : m ≤ d.toNat) (hwrap : d.toNat + Size.bytes n ≤ 2 ^ 32) : t.ioValue n (addr + d) = s.ioValue n (addr + d) := by
  refine ioValue_congr fun k hk => h.outside _ ?_
  have hdist : (addr + d + BitVec.ofNat 32 k - addr).toNat = d.toNat + k := by bv_omega
  omega

/-! ### JSR and RET -/

/-- Settles O22: the target is found before the push, which stores the return address at SP. -/
theorem jsrResult : Obligations.JsrResult := by
  intro target w s h
  have hnext : exec (.jsr target w) s =
      .next ((((s.startInstr (aluSrcLen target)).ioStore s.r6
        (littleBytes (Size.bytes (transferSize w)) (s.pc + aluSrcLen target - 1))).regWrite .r6
          (s.r6 - BitVec.ofNat 32 (Size.bytes (transferSize w)))).withNextPc (s.jsrValue target w)).endInstr := by
    have hu : (s.startInstr (aluSrcLen target)).untranslated := h
    change execJsr target w s = _
    refine run_ok ?_
    rw [jsrTarget_untranslated hu, Res.bind_ok, push_untranslated hu, Res.bind_ok, State.jsrValue_startInstr]
    rfl
  refine ⟨_, hnext, ?_, flagsAfter_same _ |> fun hf => by simpa using hf,
    stored_congr (stored_ioStore (s := s.startInstr (aluSrcLen target)) h (transferSize w) _ _)
      ⟨rfl, rfl, rfl, rfl, rfl, rfl, rfl⟩ ⟨rfl, rfl, rfl, rfl, rfl, rfl, rfl⟩, ⟨by simp, by simp⟩⟩
  apply regsAfter_endInstr <;> simp [onlyReg]

/-- Settles O23: the address popped is the one read at the raised SP. -/
theorem retResult : Obligations.RetResult := by
  intro w s h sp
  have hnext : exec (.ret w) s =
      .next (((s.startInstr 2).regWrite .r6 sp).withNextPc (s.ioValue (transferSize w) sp + 1)).endInstr := by
    have hu : (s.startInstr 2).untranslated := h
    change execRet w s = _
    refine run_ok ?_
    rw [pop_untranslated hu, Res.bind_ok, State.ioValue_startInstr]
    rfl
  refine ⟨_, hnext, ?_, by simpa using flagsAfter_same s.flags,
    memoryKept_of_eq (by simp) (by simp) (by simp) (by simp) (by simp), ⟨by simp, by simp⟩⟩
  apply regsAfter_endInstr <;> simp [onlyReg]

/-- A JSR and a RET, of the same width or not: RET pops from the state JSR left (R193; log 41). -/
theorem jsr_ret {s : State} (h : s.untranslated) (target : AluSrc) (w w' : TransferWidth) :
    ∃ t u, exec (.jsr target w) s = .next t ∧ exec (.ret w') t = .next u ∧ u.flags = s.flags ∧
      Stored s t s.r6 (Size.bytes (transferSize w)) (s.pc + aluSrcLen target - 1) ∧
      u.r6 = s.r6 - BitVec.ofNat 32 (Size.bytes (transferSize w)) + BitVec.ofNat 32 (Size.bytes (transferSize w')) ∧
      u.pc = t.ioValue (transferSize w') u.r6 + 1 := by
  obtain ⟨t, ht, hregs, hflags, hstored, -⟩ := jsrResult target w s h
  obtain ⟨u, hu, hregs', hflags', -⟩ := retResult w' t (untranslated_of_flagsAfter h hflags rfl)
  have hsp : t.r6 = s.r6 - BitVec.ofNat 32 (Size.bytes (transferSize w)) := hregs.reg_of_some (r := .r6) rfl
  have hsp' : u.r6 = t.r6 + BitVec.ofNat 32 (Size.bytes (transferSize w')) := hregs'.reg_of_some (r := .r6) rfl
  exact ⟨t, u, ht, hu, hflags'.eq_of_noFlags.trans hflags.eq_of_noFlags, hstored, hsp'.trans (by rw [hsp]),
    hregs'.pc.trans (by rw [hsp']; rfl)⟩

/-- Settles O24: the matching RET pops from where JSR stored. -/
theorem callReturnRoundTrip : Obligations.CallReturnRoundTrip := by
  intro target w s h
  obtain ⟨t, u, ht, hu, hflags, hstored, hsp, hpc⟩ := jsr_ret h target w w
  rw [BitVec.sub_add_cancel] at hsp
  rw [hsp, ioValue_of_stored hstored] at hpc
  refine ⟨t, u, ht, hu, hsp, hflags, hpc.trans ?_⟩
  cases w with
  | word => rfl
  | long =>
    change ((s.pc + aluSrcLen target - 1).extractLsb' 0 32).setWidth 32 + 1 = s.pc + aluSrcLen target
    rw [BitVec.extractLsb'_eq_self, BitVec.setWidth_eq, BitVec.sub_add_cancel]

/-- Settles O59: RET of the other width pops bytes beside those JSR stored. -/
theorem mismatchedCallReturn : Obligations.MismatchedCallReturn := by
  intro target s h
  refine ⟨?_, ?_⟩
  · obtain ⟨t, u, ht, hu, hflags, hstored, hsp, hpc⟩ := jsr_ret h target .long .word
    have hr6 : u.r6 = s.r6 + (-2) := hsp.trans (by change s.r6 - 4 + 2 = _; bv_omega)
    have hbelow : t.ioValue .two (s.r6 + (-2)) = s.ioValue .two (s.r6 + (-2)) :=
      hstored.ioValue_of_disjoint (by decide) (by decide)
    rw [hr6] at hpc
    exact ⟨t, u, ht, hu, hr6.trans (BitVec.sub_eq_add_neg _ _).symm,
      hpc.trans (by rw [BitVec.sub_eq_add_neg s.r6 2]; exact congrArg (· + 1) hbelow), hflags⟩
  · obtain ⟨t, u, ht, hu, hflags, hstored, hsp, hpc⟩ := jsr_ret h target .word .long
    have hr6 : u.r6 = s.r6 + 2 := hsp.trans (by change s.r6 - 2 + 4 = _; bv_omega)
    have habove : t.ioValue .four (s.r6 + 2) = s.ioValue .four (s.r6 + 2) :=
      hstored.ioValue_of_disjoint (by decide) (by decide)
    rw [hr6] at hpc
    exact ⟨t, u, ht, hu, hr6, hpc.trans (congrArg (· + 1) habove), hflags⟩

/-! ### TRAP, TRAPB and RETI -/

/-- What TRAP and TRAPB answer (R183, R184). -/
theorem exec_trap_untranslated {s : State} (h : s.untranslated) (n : BitVec 5) (w : TransferWidth) (brk : Bool) :
    exec (if brk then Instr.trapb n w else Instr.trap n w) s =
      .next ((s.startInstr 2).entered w (s.pc + 2) (Config.trapVectorAddr n w) brk).endInstr := by
  have hentry := takeException_untranslated (s := s.startInstr 2) h w (s.pc + 2) (Config.trapVectorAddr n w) brk
  cases brk with
  | false =>
    change execTrap n w s = _
    exact run_ok hentry
  | true =>
    change execTrapb n w s = _
    exact run_ok hentry

/-- The entry of an exception sets I, so that no interrupt can be taken next (60_exceptions.md R257). -/
theorem not_interruptible_of_entered {s : State} {f : Half} {brk : Bool}
    (h : FlagsAfter f s.flags (alsoFlag .i true (alsoFlag .b brk noFlags))) : s.interruptible = false := by
  have hi : s.flag .i = true := h .i
  rw [State.interruptible, hi]
  simp

/-- Settles O25: the frame is stored below SP in two pieces, and the handler's address read after that. -/
theorem trapResult : Obligations.TrapResult := by
  intro n w s brk h size i
  obtain ⟨u, haddress, himage⟩ := stored_framed (s := s.startInstr 2) h w (s.pc + 2)
  have hflags : FlagsAfter s.flags ((s.startInstr 2).entered w (s.pc + 2) (Config.trapVectorAddr n w) brk).endInstr.flags
      (alsoFlag .i true (alsoFlag .b brk noFlags)) := flagsAfter_entered brk s.flags
  refine ⟨u, _, s.flagsImage, exec_trap_untranslated h n w brk, flagsReadAs_flagsImage s,
    stored_congr haddress (by simp) (by simp), stored_congr himage (by simp) (by simp [State.entered]),
    regsAfter_entered s 2 w _ _ brk _ (State.ioValue_entered ..), hflags, ?_, not_interruptible_of_entered hflags⟩
  exact ⟨by simp [State.entered], by simp [State.entered]⟩

/-- Settles O26: both items are read above SP, and all sixteen flags loaded with the flushes they request. -/
theorem retiResult : Obligations.RetiResult := by
  intro w s h sp
  have hnext : exec (.reti w) s =
      .next ((((s.startInstr 2).regWrite .r6 sp).writeFlags ((s.ioValue .two (s.r6 + 2)).setWidth 16)
        ((s.ioValue .two (s.r6 + 2)).setWidth 16)).withNextPc (s.ioValue (transferSize w) sp)).endInstr := by
    change execReti w s = _
    refine run_ok ?_
    rw [returnFromException_untranslated (show (s.startInstr 2).untranslated from h), State.ioValue_startInstr,
      State.ioValue_startInstr]
    rfl
  refine ⟨_, hnext, ?_, ?_, bytesKept_of_eq (by simp) (by simp), ⟨by simp, by simp⟩, by simp, ?_, ?_⟩
  · apply regsAfter_endInstr <;> simp [onlyReg]
  · change (s.ioValue .two (s.r6 + 2)).setWidth 16 = _
    rw [State.ioValue, BitVec.setWidth_setWidth_of_le _ (by decide), BitVec.setWidth_eq]
  · rw [State.endInstr_stale, State.withNextPc_stale, State.writeFlags_stale, State.regWrite_stale]
    rfl
  · rw [State.endInstr_tlb, State.withNextPc_tlb, State.writeFlags_tlb, State.regWrite_tlb]
    rfl

/-- Settles O27: RETI pops the two items TRAP stored, the second of which lies below the first. -/
theorem trapReturnRoundTrip : Obligations.TrapReturnRoundTrip := by
  intro n w s h hflush
  obtain ⟨v, t, image, ht, himage, haddress, hflagsAt, hregs, hflags, -⟩ := trapResult n w s false h
  have hv := himage.eq_of_noFlush hflush
  subst hv
  obtain ⟨u, hu, hregs', hflags', -⟩ := retiResult w t (untranslated_of_flagsAfter h hflags rfl)
  have hsp : t.r6 = s.r6 - BitVec.ofNat 32 (Size.bytes (transferSize w)) - 2 := hregs.reg_of_some (r := .r6) rfl
  have hat : t.r6 + 2 = s.r6 - BitVec.ofNat 32 (Size.bytes (transferSize w)) := by rw [hsp, BitVec.sub_add_cancel]
  have hback : t.r6 + 2 + BitVec.ofNat 32 (Size.bytes (transferSize w)) = s.r6 := by rw [hat, BitVec.sub_add_cancel]
  refine ⟨t, u, ht, hu, (hregs'.reg_of_some (r := .r6) rfl).trans hback, ?_, ?_⟩
  · have hread := congrArg (BitVec.setWidth 16) (ioValue_of_stored (n := .two) hflagsAt)
    rw [← hat, State.ioValue, BitVec.setWidth_setWidth_of_le _ (by decide), BitVec.setWidth_eq, ← hflags'] at hread
    rw [hread]
    apply BitVec.eq_of_getLsbD_eq
    intro j hj
    simp [Size.bytes, hj, show j < 32 by omega]
  · have hkept : t.ioValue (transferSize w) s.r6 = v.ioValue (transferSize w) s.r6 := by
      have hkept := hflagsAt.ioValue_of_disjoint (n := transferSize w)
        (d := BitVec.ofNat 32 (Size.bytes (transferSize w))) (by cases w <;> decide) (by cases w <;> decide)
      rwa [BitVec.sub_add_cancel] at hkept
    refine hregs'.pc.trans ?_
    change t.ioValue (transferSize w) (t.r6 + 2 + BitVec.ofNat 32 (Size.bytes (transferSize w))) = _
    rw [hback, hkept, ioValue_of_stored haddress]
    cases w with
    | word => rfl
    | long =>
      change ((s.pc + 2).extractLsb' 0 32).setWidth 32 = _
      rw [BitVec.extractLsb'_eq_self, BitVec.setWidth_eq]

end Sys2Proof.Machine
end

section
/-! SFLAG, LCNTR, SCNTR, LMMU and SMMU (43_control_system.md R185 to R191), and when the table is used after a flush of the
TLB (20_memory.md R85, R92). -/

namespace Sys2Proof.Machine

/-! ### SFLAG -/

/-- SFLAG completes from every state: it makes no access that could trap (R189). -/
theorem exec_sflag (k : BitVec 4) (s : State) :
    exec (.sflag k) s =
      .next ((s.startInstr 2).writeFlags (setBit s.flags k.toNat true) (setBit 0 k.toNat true)).endInstr :=
  rfl

/-- The flush that SFLAG requests is that of its own bit. -/
theorem getFlag_setBit_zero (k : BitVec 4) (f : Flag) :
    getFlag (setBit 0 k.toNat true) f = decide (flagIndex f = k.toNat) := by
  rw [getFlag, getLsbD_setBit _ _ _ _ (flagIndex_lt f)]
  by_cases h : flagIndex f = k.toNat
  · rw [if_pos h, decide_eq_true h]
  · rw [if_neg h, decide_eq_false h]
    exact BitVec.getLsbD_zero

/-- Settles O29: the bit is set, and bits 11 and 14 are the two whose request does more. -/
theorem setFlagResult : Obligations.SetFlag := by
  intro k c rest s
  have hfic : getFlag (setBit 0 k.toNat true) .fic = decide (k = 11) := by
    rw [getFlag_setBit_zero]
    decide +revert
  have hftl : getFlag (setBit 0 k.toNat true) .ftl = decide (k = 14) := by
    rw [getFlag_setBit_zero]
    decide +revert
  have hregs : RegsAfter s ((s.startInstr 2).writeFlags (setBit s.flags k.toNat true)
      (setBit 0 k.toNat true)).endInstr noRegs (s.pc + 2) := by
    apply regsAfter_endInstr <;> simp [noRegs]
  refine ⟨decode_flagNumber 1 k c rest, _, exec_sflag k s, hregs, fun j hj => getLsbD_setBit s.flags k.toNat j true hj,
    bytesKept_of_eq rfl rfl, ⟨rfl, rfl⟩, rfl, ?_, ?_⟩
  · rw [State.endInstr_stale, State.writeFlags_stale, hfic]
    simp
  · rw [State.endInstr_tlb, State.writeFlags_tlb, hftl]
    simp

/-- Settles O54: SFLAG 14 empties the TLB, so that no entry of it can be chosen. -/
theorem translationAfterFlush : Obligations.TranslationAfterFlush := by
  intro s t block kind ht
  injection (exec_sflag 14 s).symm.trans ht with hnext
  have htlb : t.tlb = [] := by
    rw [← hnext]
    rfl
  have hsetting : t.blockSetting block = s.tableSetting block := by
    rw [State.blockSetting, htlb, ← hnext]
    rfl
  rw [State.blockMapping, hsetting]
  cases kind with
  | fetch => rfl
  | read => rfl
  | write => rfl

/-! ### LCNTR and SCNTR -/

/-- LCNTR with an accepted operand (R185). -/
theorem exec_lcntr_untranslated {s : State} (h : s.untranslated) {src : MemOp} (hm : autoBaseOk src) (w : CntrWidth) :
    exec (.lcntr src w) s =
      .next (((s.startInstr (memOpLen src)).afterMemOp src (cntrSize w)).loadFlags (cntrSize w)
        (s.ioValue (cntrSize w) (s.memOpAddr src (cntrSize w)))).endInstr := by
  change execLcntr src w s = _
  refine run_ok ?_
  rw [effAddr_ok hm, Res.bind_ok, memRead_untranslated (untranslated_of_flags h (by simp)), Res.bind_ok,
    State.ioValue_afterMemOp, State.ioValue_startInstr, State.memOpAddr_startInstr]

/-- The byte that LCNTR.B loads is the one in memory. -/
theorem lowByteLoaded_ioValue (s : State) (f : Half) (a : Word) :
    (f &&& 0xFF00) ||| (s.ioValue .one a).setWidth 16 = f.extractLsb' 8 8 ++ s.ioByte a := by
  have hlt : (s.ioValue .one a).toNat < 2 ^ 8 := by
    rw [State.ioValue, BitVec.toNat_setWidth]
    exact Nat.lt_of_le_of_lt (Nat.mod_le _ _) (s.ioByte a).isLt
  rw [lowByteLoaded_eq f hlt, State.ioValue, BitVec.setWidth_setWidth_of_le _ (by decide), BitVec.setWidth_eq]

/-- Settles O30, for the byte that replaces bits 7:0 and the word that replaces all sixteen (D13). -/
theorem loadFlagsResult : Obligations.LoadFlagsResult := by
  intro src s h hm
  refine ⟨⟨_, exec_lcntr_untranslated h hm .byte, regsAfter_base hm rfl, ?_, ?_, ?_⟩,
    ⟨_, exec_lcntr_untranslated h hm .word, regsAfter_base hm rfl, rfl, ?_, ?_, ?_, ?_, ?_⟩⟩
  · change (((s.startInstr (memOpLen src)).afterMemOp src .one).flags &&& 0xFF00) ||| _ = _
    rw [State.afterMemOp_flags, State.startInstr_flags]
    exact lowByteLoaded_ioValue s s.flags _
  · exact memoryKept_of_eq (State.afterMemOp_mem _ src _) (State.afterMemOp_sdram _ src _)
      (State.afterMemOp_stale _ src _) (State.afterMemOp_tlb _ src _) (State.afterMemOp_pending _ src _)
  · exact ⟨State.afterMemOp_m0 _ src _, State.afterMemOp_m1 _ src _⟩
  · exact bytesKept_of_eq (State.afterMemOp_mem _ src _) (State.afterMemOp_sdram _ src _)
  · exact ⟨State.afterMemOp_m0 _ src _, State.afterMemOp_m1 _ src _⟩
  · exact State.afterMemOp_pending _ src _
  · exact ite_congr rfl (fun _ => rfl) fun _ => State.afterMemOp_stale _ src _
  · exact ite_congr rfl (fun _ => rfl) fun _ => State.afterMemOp_tlb _ src _

/-- What Flags reads as depends on Flags and the next free value only (R180). -/
theorem State.flagsImage_congr {s t : State} (hf : t.flags = s.flags) (hd : t.draws = s.draws) :
    t.flagsImage = s.flagsImage := by
  simp only [State.flagsImage, State.drawn, hf, hd]

/-- SCNTR with an accepted operand stores what Flags reads as (R186, R180). -/
theorem runsStoring_scntr {s : State} (h : s.untranslated) {dst : MemOp} (hm : autoBaseOk dst) (w : CntrWidth) :
    RunsStoring (.scntr dst w) s (s.baseWrite dst (cntrSize w)) (s.pc + memOpLen dst) noFlags
      (s.memOpAddr dst (cntrSize w)) (Size.bytes (cntrSize w)) (s.flagsImage.setWidth 32) := by
  let t := ((s.startInstr (memOpLen dst)).afterMemOp dst (cntrSize w)).afterFlagsRead
  have hflags : t.flags = s.flags := by simp [t]
  have himage : ((s.startInstr (memOpLen dst)).afterMemOp dst (cntrSize w)).flagsImage = s.flagsImage :=
    State.flagsImage_congr (by simp) (by simp)
  refine runsStoring_memOp (t := t) (f := s.flags) h hm (State.afterFlagsRead_rest _) ?_ (flagsAfter_same _)
  change execScntr dst w s = _
  refine run_ok ?_
  rw [effAddr_ok hm, Res.bind_ok, memWrite_untranslated (untranslated_of_flags h hflags), himage,
    State.memOpAddr_startInstr]
  exact congrArg (Res.ok ()) (by rw [← hflags, ← State.ioStore_flags]; rfl)

/-- Settles O31, in both widths (D13). -/
theorem storeFlagsResult : Obligations.StoreFlagsResult := by
  intro dst s h hm
  exact ⟨⟨s.flagsImage, flagsReadAs_flagsImage s, runsStoring_scntr h hm .byte⟩,
    ⟨s.flagsImage, flagsReadAs_flagsImage s, runsStoring_scntr h hm .word⟩⟩

/-! ### LMMU and SMMU -/

/-- Settles O32: LMMU reads where SMMU stores, and each keeps what the other moves. -/
theorem mmuRegisterTransfer : Obligations.MmuRegisterTransfer := by
  intro m n s h hm addr
  refine ⟨?_, ?_⟩
  · have hnext : exec (.lmmu m n) s =
        .next ((((s.startInstr (memOpLen m)).afterMemOp m .four).withMmuReg n (s.ioValue .four addr)).withFlags
          (setZN (s.ioValue .four addr) s.flags)).endInstr := by
      change execLmmu m n s = _
      refine run_ok ?_
      rw [effAddr_ok hm, Res.bind_ok, memRead_untranslated (untranslated_of_flags h (by simp)), Res.bind_ok,
        State.ioValue_afterMemOp, State.ioValue_startInstr, State.memOpAddr_startInstr, State.afterMemOp_flags,
        State.startInstr_flags]
    refine ⟨_, hnext, regsAfter_base hm ?_, fun k => ?_, flagsAfter_setZN _ _,
      memoryKept_of_eq (by simp) (by simp) (by simp) (by simp) (by simp)⟩
    · cases n <;> rfl
    · cases k <;> simp [State.mmuReg, eq_comm]
  · refine runsStoring_memOp (t := (s.startInstr (memOpLen m)).afterMemOp m .four) (k := .four)
      (f := setZN (s.mmuReg n) s.flags) h hm rfl ?_ (flagsAfter_setZN _ _)
    have hreg : ((s.startInstr (memOpLen m)).afterMemOp m .four).mmuReg n = s.mmuReg n := by
      cases n <;> simp [State.mmuReg]
    change execSmmu m n s = _
    refine run_ok ?_
    rw [effAddr_ok hm, Res.bind_ok]
    dsimp only
    rw [hreg, memWrite_untranslated (untranslated_of_flags h (by simp)), Res.bind_ok, State.ioStore_flags,
      State.afterMemOp_flags, State.startInstr_flags, State.memOpAddr_startInstr]

end Sys2Proof.Machine
end

section
/-! What every instruction does to memory, to the pending set and to R0 while Flags.MMU = 0: one case split over the
instructions, read off the statement of each. -/

namespace Sys2Proof.Machine

/-! ### The frame of one instruction -/

/-- From `s` to `t` the instruction `i` kept SDRAM (20_memory.md R80); unless it stores, every byte (R76) and the pending set
(60_exceptions.md R255); and left R0 readable and interrupts held off exactly if it writes R0 (10_state.md R34, R35). -/
structure UntranslatedFrame (i : Instr) (s t : State) : Prop where
  sdram : ∀ a, t.busByte .sdram a = s.busByte .sdram a
  kept : storesMemory i = false → BytesKept s t ∧ t.pending = s.pending
  valid : isCmpR0 i = false → t.riValid = writesR0 i
  held : isCmpR0 i = false → t.riHold = writesR0 i

/-- `i` executes normally from `s`, within that frame. -/
def RunsInFrame (i : Instr) (s : State) : Prop := ∃ t, exec i s = .next t ∧ UntranslatedFrame i s t

/-- What instructions with the MMU off can do: run within the frame, or be refused. -/
def RunsOrRefused (i : Instr) (s : State) : Prop := RunsInFrame i s ∨ ∃ r, exec i s = .refused r

section

variable {i : Instr} {s : State}

/-- An instruction that keeps all bytes and the pending set. -/
theorem runsInFrame_of_kept {t : State} {w : RegWrites} {next : Word} (ht : exec i s = .next t)
    (hregs : RegsAfter s t w next) (hbytes : BytesKept s t) (hpending : t.pending = s.pending)
    (hw : (w .r0).isSome = writesR0 i) : RunsInFrame i s :=
  ⟨t, ht, hbytes .sdram, fun _ => ⟨hbytes, hpending⟩, fun _ => hregs.valid.trans hw, fun _ => hregs.held.trans hw⟩

theorem RunsTo.inFrame {w : RegWrites} {next : Word} {f : FlagWrites} (h : RunsTo i s w next f)
    (hw : (w .r0).isSome = writesR0 i) : RunsInFrame i s := by
  obtain ⟨t, ht, hregs, -, hmem, -⟩ := h
  exact runsInFrame_of_kept ht hregs hmem.bytes hmem.pending hw

theorem RunsStoring.inFrame {w : RegWrites} {next addr v : Word} {f : FlagWrites} {n : Nat}
    (h : RunsStoring i s w next f addr n v) (hi : storesMemory i = true) (hw : (w .r0).isSome = writesR0 i) :
    RunsInFrame i s := by
  obtain ⟨t, ht, hregs, -, hstored, -⟩ := h
  exact ⟨t, ht, hstored.sdram, fun hn => absurd (hi.symm.trans hn) (by decide), fun _ => hregs.valid.trans hw,
    fun _ => hregs.held.trans hw⟩

theorem isSome_onlyReg_r0 (rd : Reg) (v : Word) : (onlyReg rd v .r0).isSome = decide (rd = .r0) := by
  cases rd <;> rfl

theorem isSome_onlyReg_unOpTarget (op : UnOp) (v : Word) : (onlyReg (unOpTarget op) v .r0).isSome = unOpToR0 op := by
  cases op with
  | indirect | indexed => rfl
  | reg r => exact isSome_onlyReg_r0 r v

/-- An accepted operand updates no R0 (30_encoding.md R108). -/
theorem State.baseWrite_r0 (s : State) {m : MemOp} (hm : autoBaseOk m) (n : Size) : s.baseWrite m n .r0 = none := by
  cases m with
  | indirect | indexed => rfl
  | autoInc b | autoDec b => exact if_neg (hm rfl).symm

/-- The operand of LD, ST, LCNTR, SCNTR, LMMU and SMMU is accepted, or the auto mode on R0 that is refused. -/
theorem autoBaseOk_or (m : MemOp) : autoBaseOk m ∨ isAuto m = true ∧ memOpBase m = .r0 := by
  by_cases hauto : isAuto m = true
  · by_cases h0 : memOpBase m = .r0
    · exact .inr ⟨hauto, h0⟩
    · exact .inl fun _ => h0
  · exact .inl fun h => absurd h hauto

/-- The same for the operand of LD and ST, whose base may not be the other register either. -/
theorem memOp_accepted_or (m : MemOp) (r : Reg) :
    autoBaseOk m ∧ (isAuto m = true → memOpBase m ≠ r) ∨
      isAuto m = true ∧ (memOpBase m = .r0 ∨ memOpBase m ≠ .r0 ∧ memOpBase m = r) := by
  rcases autoBaseOk_or m with hm | ⟨hauto, h0⟩
  · by_cases hr : isAuto m = true ∧ memOpBase m = r
    · exact .inr ⟨hr.1, .inr ⟨hm hr.1, hr.2⟩⟩
    · exact .inl ⟨hm, fun hauto he => hr ⟨hauto, he⟩⟩
  · exact .inr ⟨hauto, .inl h0⟩

end

/-! ### Every instruction -/

section

variable {s : State} (h : s.untranslated)

include h

theorem ld_runsOrRefused (src : MemOp) (rd : Reg) (w : Width) : RunsOrRefused (.ld src rd w) s := by
  rcases memOp_accepted_or src rd with ⟨hm, hrd⟩ | ⟨hauto, h0 | ⟨h0, hr⟩⟩
  · refine .inl ((loadResult src rd w s h hm hrd).inFrame ?_)
    rw [s.baseWrite_r0 hm]
    cases rd <;> rfl
  · exact .inr ⟨_, ((autoModeConflictsRefused src rd w .byte .m0 s hauto).1 h0).1⟩
  · exact .inr ⟨_, ((autoModeConflictsRefused src rd w .byte .m0 s hauto).2 h0 hr).1⟩

theorem st_runsOrRefused (dst : MemOp) (data : Reg) (w : Width) : RunsOrRefused (.st dst data w) s := by
  rcases memOp_accepted_or dst data with ⟨hm, hdata⟩ | ⟨hauto, h0 | ⟨h0, hr⟩⟩
  · exact .inl ((storeResult dst data w s h hm hdata).inFrame rfl (by rw [s.baseWrite_r0 hm]; rfl))
  · exact .inr ⟨_, ((autoModeConflictsRefused dst data w .byte .m0 s hauto).1 h0).2.1⟩
  · exact .inr ⟨_, ((autoModeConflictsRefused dst data w .byte .m0 s hauto).2 h0 hr).2⟩

theorem lcntr_runsOrRefused (src : MemOp) (w : CntrWidth) : RunsOrRefused (.lcntr src w) s := by
  rcases autoBaseOk_or src with hm | ⟨hauto, h0⟩
  · obtain ⟨⟨t, ht, hregs, -, hmem, -⟩, u, hu, hregs', -, hbytes, -, hpending, -⟩ := loadFlagsResult src s h hm
    refine .inl ?_
    cases w with
    | byte => exact runsInFrame_of_kept ht hregs hmem.bytes hmem.pending (by rw [s.baseWrite_r0 hm]; rfl)
    | word => exact runsInFrame_of_kept hu hregs' hbytes hpending (by rw [s.baseWrite_r0 hm]; rfl)
  · exact .inr ⟨_, ((autoModeConflictsRefused src .r0 .byte w .m0 s hauto).1 h0).2.2.1⟩

theorem scntr_runsOrRefused (dst : MemOp) (w : CntrWidth) : RunsOrRefused (.scntr dst w) s := by
  rcases autoBaseOk_or dst with hm | ⟨hauto, h0⟩
  · exact .inl ((runsStoring_scntr h hm w).inFrame rfl (by rw [s.baseWrite_r0 hm]; rfl))
  · exact .inr ⟨_, ((autoModeConflictsRefused dst .r0 .byte w .m0 s hauto).1 h0).2.2.2.1⟩

theorem lmmu_runsOrRefused (src : MemOp) (n : MmuReg) : RunsOrRefused (.lmmu src n) s := by
  rcases autoBaseOk_or src with hm | ⟨hauto, h0⟩
  · obtain ⟨⟨t, ht, hregs, -, -, hmem⟩, -⟩ := mmuRegisterTransfer src n s h hm
    exact .inl (runsInFrame_of_kept ht hregs hmem.bytes hmem.pending (by rw [s.baseWrite_r0 hm]; rfl))
  · exact .inr ⟨_, ((autoModeConflictsRefused src .r0 .byte .byte n s hauto).1 h0).2.2.2.2.1⟩

theorem smmu_runsOrRefused (dst : MemOp) (n : MmuReg) : RunsOrRefused (.smmu dst n) s := by
  rcases autoBaseOk_or dst with hm | ⟨hauto, h0⟩
  · exact .inl ((mmuRegisterTransfer dst n s h hm).2.inFrame rfl (by rw [s.baseWrite_r0 hm]; rfl))
  · exact .inr ⟨_, ((autoModeConflictsRefused dst .r0 .byte .byte n s hauto).1 h0).2.2.2.2.2⟩

theorem cmp_runsInFrame (src : AluSrc) (rd : Reg) (w : Width) : RunsInFrame (.cmp src rd w) s := by
  obtain ⟨t, ht, -, -, -, hmem, -, hr0⟩ := compareResult src rd w s h
  have hrd : isCmpR0 (.cmp src rd w) = false → rd ≠ .r0 := of_decide_eq_false
  exact ⟨t, ht, hmem.bytes .sdram, fun _ => ⟨hmem.bytes, hmem.pending⟩, fun hi => (hr0 (hrd hi)).1,
    fun hi => (hr0 (hrd hi)).2⟩

/-- TRAP and TRAPB store twice, and write SP only. -/
theorem trap_runsInFrame (n : BitVec 5) (w : TransferWidth) (brk : Bool) :
    RunsInFrame (if brk then .trapb n w else .trap n w) s := by
  obtain ⟨u, t, image, ht, -, haddress, himage, hregs, -⟩ := trapResult n w s brk h
  have hstores : storesMemory (if brk then .trapb n w else .trap n w) = true := by cases brk <;> rfl
  have hwrites : writesR0 (if brk then .trapb n w else .trap n w) = false := by cases brk <;> rfl
  exact ⟨t, ht, fun a => (himage.sdram a).trans (haddress.sdram a),
    fun hn => absurd (hstores.symm.trans hn) (by decide), fun _ => hregs.valid.trans hwrites.symm,
    fun _ => hregs.held.trans hwrites.symm⟩

theorem shift_runsInFrame (op : UnOp) (k : Amount) (w : Width) :
    RunsInFrame (.shl op k w) s ∧ RunsInFrame (.shlc op k w) s ∧ RunsInFrame (.shr op k w) s ∧
      RunsInFrame (.shrc op k w) s := by
  obtain ⟨_, -, hshl⟩ := shiftLeftResult op k w s h false
  obtain ⟨_, -, hshlc⟩ := shiftLeftResult op k w s h true
  obtain ⟨_, -, hshr⟩ := shiftRightResult op k w s h false
  obtain ⟨_, -, hshrc⟩ := shiftRightResult op k w s h true
  exact ⟨hshl.inFrame (isSome_onlyReg_unOpTarget op _), hshlc.inFrame (isSome_onlyReg_unOpTarget op _),
    hshr.inFrame (isSome_onlyReg_unOpTarget op _), hshrc.inFrame (isSome_onlyReg_unOpTarget op _)⟩

theorem swap_runsOrRefused (op : UnOp) (w : Width) : RunsOrRefused (.swap op w) s := by
  by_cases hw : w = .byte
  · exact .inr ⟨_, by rw [hw, exec_swap_byte]⟩
  · obtain ⟨_, -, hswap⟩ := (swapMirrorResult op w s h).1 hw
    exact .inl (hswap.inFrame (isSome_onlyReg_unOpTarget op _))

theorem mirror_runsOrRefused (op : UnOp) (w : Width) : RunsOrRefused (.mirror op w) s := by
  by_cases hw : w = .high ∨ w = .long
  · exact .inr ⟨_, exec_mirror_of_unlisted op hw s⟩
  · have hlisted : w = .byte ∨ w = .word := by
      cases w with
      | byte => exact .inl rfl
      | word => exact .inr rfl
      | high => exact absurd (.inl rfl) hw
      | long => exact absurd (.inr rfl) hw
    obtain ⟨_, -, hmirror⟩ := (swapMirrorResult op w s h).2 hlisted
    exact .inl (hmirror.inFrame (isSome_onlyReg_unOpTarget op _))

/-- With Flags.MMU = 0 every instruction runs within its frame, or is refused; none ends in an access trap or a fault. -/
theorem exec_runsOrRefused (i : Instr) : RunsOrRefused i s := by
  obtain ⟨hbpl, hbmi, hbvc, hbvs, hbcc, hbcs, hbne, hbeq⟩ := singleFlagBranches
  obtain ⟨hbge, hblt, hbgt, hble, hbpo, hbra⟩ := relationBranches
  have hbranch : ∀ {test i cond}, BranchesIf test i cond → (∀ taken disp, writesR0 (i taken disp) = false) →
      ∀ taken disp, RunsOrRefused (i taken disp) s := fun hb hw taken disp =>
    .inl ((hb taken disp [] s).2.inFrame (hw taken disp).symm)
  cases i with
  | or src rd w => exact .inl ((logicResult src rd w s h).1.inFrame (isSome_onlyReg_r0 rd _))
  | and src rd w => exact .inl ((logicResult src rd w s h).2.1.inFrame (isSome_onlyReg_r0 rd _))
  | eor src rd w => exact .inl ((logicResult src rd w s h).2.2.inFrame (isSome_onlyReg_r0 rd _))
  | add src rd w => exact .inl ((addResult src rd w s h).1.inFrame (isSome_onlyReg_r0 rd _))
  | addc src rd w => exact .inl ((addResult src rd w s h).2.inFrame (isSome_onlyReg_r0 rd _))
  | sub src rd w => exact .inl ((subtractResult src rd w s h).1.inFrame (isSome_onlyReg_r0 rd _))
  | subc src rd w => exact .inl ((subtractResult src rd w s h).2.inFrame (isSome_onlyReg_r0 rd _))
  | cmp src rd w => exact .inl (cmp_runsInFrame h src rd w)
  | ld src rd w => exact ld_runsOrRefused h src rd w
  | st dst data w => exact st_runsOrRefused h dst data w
  | mov src rd w => exact .inl ((moveResult src rd w s).1.inFrame (isSome_onlyReg_r0 rd _))
  | movx src rd w => exact .inl ((moveResult src rd w s).2.inFrame (isSome_onlyReg_r0 rd _))
  | jsr target w => exact .inl ((jsrResult target w s h).inFrame rfl rfl)
  | ret w => exact .inl ((retResult w s h).inFrame rfl)
  | trap n w => exact .inl (trap_runsInFrame h n w false)
  | trapb n w => exact .inl (trap_runsInFrame h n w true)
  | reti w =>
    obtain ⟨t, ht, hregs, -, hbytes, -, hpending, -⟩ := retiResult w s h
    exact .inl (runsInFrame_of_kept ht hregs hbytes hpending rfl)
  | lcntr src w => exact lcntr_runsOrRefused h src w
  | scntr dst w => exact scntr_runsOrRefused h dst w
  | cflag k =>
    obtain ⟨-, t, ht, hregs, -, hmem, -⟩ := clearFlag k 0 [] s
    exact .inl (runsInFrame_of_kept ht hregs hmem.bytes hmem.pending rfl)
  | sflag k =>
    obtain ⟨-, t, ht, hregs, -, hbytes, -, hpending, -⟩ := setFlagResult k 0 [] s
    exact .inl (runsInFrame_of_kept ht hregs hbytes hpending rfl)
  | lmmu src n => exact lmmu_runsOrRefused h src n
  | smmu dst n => exact smmu_runsOrRefused h dst n
  | shl op k w => exact .inl (shift_runsInFrame h op k w).1
  | shlc op k w => exact .inl (shift_runsInFrame h op k w).2.1
  | shr op k w => exact .inl (shift_runsInFrame h op k w).2.2.1
  | shrc op k w => exact .inl (shift_runsInFrame h op k w).2.2.2
  | inc op w => exact .inl ((incrementResult op w s h).1.inFrame (isSome_onlyReg_unOpTarget op _))
  | dec op w => exact .inl ((incrementResult op w s h).2.inFrame (isSome_onlyReg_unOpTarget op _))
  | swap op w => exact swap_runsOrRefused h op w
  | mirror op w => exact mirror_runsOrRefused h op w
  | bit op w => exact .inl ((bitTestResult op w s h).inFrame rfl)
  | bpl taken disp => exact hbranch hbpl (fun _ _ => rfl) taken disp
  | bmi taken disp => exact hbranch hbmi (fun _ _ => rfl) taken disp
  | bvc taken disp => exact hbranch hbvc (fun _ _ => rfl) taken disp
  | bvs taken disp => exact hbranch hbvs (fun _ _ => rfl) taken disp
  | bcc taken disp => exact hbranch hbcc (fun _ _ => rfl) taken disp
  | bcs taken disp => exact hbranch hbcs (fun _ _ => rfl) taken disp
  | bne taken disp => exact hbranch hbne (fun _ _ => rfl) taken disp
  | beq taken disp => exact hbranch hbeq (fun _ _ => rfl) taken disp
  | bge taken disp => exact hbranch hbge (fun _ _ => rfl) taken disp
  | blt taken disp => exact hbranch hblt (fun _ _ => rfl) taken disp
  | bgt taken disp => exact hbranch hbgt (fun _ _ => rfl) taken disp
  | ble taken disp => exact hbranch hble (fun _ _ => rfl) taken disp
  | bpo taken disp => exact hbranch hbpo (fun _ _ => rfl) taken disp
  | bra taken disp => exact hbranch hbra (fun _ _ => rfl) taken disp
  | reserved1011x111 mm a c | reserved1110x101 mm a c | reserved1110x110 mm a c | reserved1110x111 mm a c
  | reservedShlMode11 a b c | reservedShrMode11 a b c | reservedUnaryMode11 a b c | reservedSwapB mm a
  | reservedMirrorHL mm a c0 | reservedBranchTest1101 taken b c | reservedBranchTest1111 taken b c
  | reservedBranchExtend0 mm a d c => exact .inr ⟨_, rfl⟩

/-- The frame, of a state that an instruction is known to end in. -/
theorem untranslatedFrame_of_next {i : Instr} {t : State} (ht : exec i s = .next t) : UntranslatedFrame i s t := by
  rcases exec_runsOrRefused h i with ⟨u, hu, hframe⟩ | ⟨r, hr⟩
  · injection hu.symm.trans ht with he
    exact he ▸ hframe
  · exact nomatch hr.symm.trans ht

theorem exec_ne_fault (i : Instr) (r : Fault) : exec i s ≠ .fault r := by
  intro hf
  rcases exec_runsOrRefused h i with ⟨u, hu, -⟩ | ⟨r', hr⟩
  · exact nomatch hu.symm.trans hf
  · exact nomatch hr.symm.trans hf

/-- The instruction at `pc` does not fault: no block asks for a trap, so that its fetch completes. -/
theorem stepInstr_ne_fault (r : Fault) : stepInstr s ≠ .fault r := by
  intro hf
  obtain ⟨bs, u, -, hu, hcase⟩ := stepInstr_cases s
  have hoff : u.untranslated := untranslated_of_flags h (by rw [hu])
  split at hcase
  next i rest hd => exact exec_ne_fault hoff i r (hcase.2.symm.trans hf)
  next b hd => exact nomatch hcase.2.symm.trans hf
  next hd =>
    have hanswer := hcase.1
    rw [State.answer, if_neg (by rw [hoff]; decide)] at hanswer
    exact nomatch hanswer

theorem step_ne_fault (r : Fault) : step s ≠ .fault r := by
  have hdraw : s.afterDraw.untranslated := h
  intro hf
  unfold step at hf
  split at hf
  · split at hf
    next src _ => exact nomatch (takeInterrupt_untranslated hdraw src).symm.trans hf
    next => exact stepInstr_ne_fault hdraw r hf
  · exact stepInstr_ne_fault h r hf

end

/-! ### The obligations -/

/-- Settles O10: each of the ways a step can go completes or refuses, and each instruction keeps its frame. -/
theorem untranslatedStepsNeverFault : Obligations.UntranslatedStepsNeverFault := fun _ h =>
  ⟨step_ne_fault h, fun _ _ ht => (untranslatedFrame_of_next h ht).sdram⟩

/-- Settles O48. -/
theorem nonStoringInstructionsKeepMemory : Obligations.NonStoringInstructionsKeepMemory := fun _ _ _ h hi ht =>
  ((untranslatedFrame_of_next h ht).kept hi).1

/-- Settles O45: what is readable next and what holds interrupts off are written together. -/
theorem implicitRegisterLivesOneInstruction : Obligations.ImplicitRegisterLivesOneInstruction := by
  intro i s t h hi ht
  have hframe := untranslatedFrame_of_next h ht
  have hvalid := hframe.valid hi
  have hheld := hframe.held hi
  refine ⟨hvalid, hheld, fun hw => ?_, fun hw => ?_⟩
  · rw [State.interruptible, hheld, hw]
    exact Bool.and_false _
  · rw [State.regRead, hvalid, hw]
    rfl

/-- What a store leaves pending, of an instruction that makes one. -/
theorem RunsStoring.pending {i : Instr} {s : State} {w : RegWrites} {next addr v : Word} {f : FlagWrites} {n : Nat}
    (h : RunsStoring i s w next f addr n v) :
    ∃ t, exec i s = .next t ∧ t.pending = s.pendingAfterStore addr n v := by
  obtain ⟨t, ht, -, -, hstored, -⟩ := h
  exact ⟨t, ht, hstored.pending⟩

/-- Settles O20, from the statement of each storing instruction. -/
theorem romControlStoreRequestsInterrupt : Obligations.RomControlStoreRequestsInterrupt := by
  intro s h
  refine ⟨fun dst data w hm hdata => (storeResult dst data w s h hm hdata).pending, fun dst w hm => ?_,
    fun dst n hm => (mmuRegisterTransfer dst n s h hm).2.pending, fun target w => (jsrResult target w s h).pending,
    fun n w brk => ?_, fun i t hi ht => ((untranslatedFrame_of_next h ht).kept hi).2⟩
  · obtain ⟨t, ht, hpending⟩ := (runsStoring_scntr h hm w).pending
    exact ⟨t, s.flagsImage, ht, flagsReadAs_flagsImage s, hpending⟩
  · obtain ⟨u, t, image, ht, hread, haddress, himage, -⟩ := trapResult n w s brk h
    exact ⟨t, u, image, ht, hread, haddress, himage.pending⟩

end Sys2Proof.Machine
end

section
/-! The step: fetching an instruction (20_memory.md R80, R91), when an interrupt is taken and what its entry does
(60_exceptions.md R255 to R260). -/

namespace Sys2Proof.Machine

/-! ### Fetching -/

/-- Settles O9. -/
theorem resetIsUntranslated : Obligations.ResetIsUntranslated :=
  ⟨rfl, rfl, translate_untranslated rfl⟩

/-- With Flags.MMU = 0 a fetch goes to its own address on the I/O bus (20_memory.md R80). -/
theorem fetchByte_untranslated {s : State} (h : s.untranslated) (va : Word) :
    fetchByte va s = .ok (fetchFrom .io va s).1 (fetchFrom .io va s).2 := by
  rw [fetchByte, translate_untranslated h]
  rfl

/-- A fetch from a place sees memory if Flags.ICA = 0 or no older byte stands anywhere (R91). -/
theorem fetchFrom_of_current {s : State} (hcurrent : s.flag .ica = false ∨ s.stale = []) (bus : Bus) (addr : Word) :
    fetchFrom bus addr s = (s.busByte bus addr, s) := by
  unfold fetchFrom
  split
  next b bs hica hold =>
    rcases hcurrent with hoff | hnone
    · exact absurd hica (by rw [hoff]; decide)
    · rw [hnone] at hold
      exact nomatch hold
  next => rfl

/-- Settles O49: what `fetchFrom` can answer, at the address itself. -/
theorem instructionFetchCoherence : Obligations.InstructionFetchCoherence := by
  intro va s h
  rw [fetchByte_untranslated h]
  refine ⟨fun hica => by rw [fetchFrom_of_current (.inl hica)]; rfl, _, _, rfl, ?_⟩
  exact (fetchFrom_cases .io va s).2.imp id And.right

section

variable {s : State} (h : s.untranslated) (hcurrent : s.flag .ica = false ∨ s.stale = [])

include h hcurrent

theorem fetchByte_of_current (va : Word) : fetchByte va s = .ok (s.ioByte va) s := by
  rw [fetchByte_untranslated h, fetchFrom_of_current hcurrent]
  rfl

/-- The bytes fetched, as many as the first two ask for (30_encoding.md R102). -/
theorem fetch_of_current :
    fetch s = .ok (if isExtended (s.ioByte s.pc) then
        if takesOperand (fieldsOf (s.ioByte s.pc ++ s.ioByte (s.pc + 1))) then
          [s.ioByte s.pc, s.ioByte (s.pc + 1), s.ioByte (s.pc + 2), s.ioByte (s.pc + 3)]
        else [s.ioByte s.pc, s.ioByte (s.pc + 1)]
      else [s.ioByte s.pc]) s := by
  simp only [fetch, fetchByte_of_current h hcurrent, Res.bind_ok]
  split
  · split <;> rfl
  · rfl

end

/-- An instruction decoded from four bytes is the one that the bytes fetched for it decode to. -/
theorem decode_fetched {b0 b1 b2 b3 : Byte} {i : Instr} {rest : List Byte}
    (h : decode [b0, b1, b2, b3] = .instr i rest) :
    ∃ rest', decode (if isExtended b0 then if takesOperand (fieldsOf (b0 ++ b1)) then [b0, b1, b2, b3] else [b0, b1]
      else [b0]) = .instr i rest' := by
  by_cases hx : isExtended b0 = true
  · by_cases ho : takesOperand (fieldsOf (b0 ++ b1)) = true
    · rw [if_pos hx, if_pos ho]
      exact ⟨rest, h⟩
    · rw [if_pos hx, if_neg ho]
      simp only [decode, if_pos hx, if_neg ho, Decoded.instr.injEq] at h ⊢
      exact ⟨[], h.1, rfl⟩
  · simp only [decode, if_neg hx] at h
    exact nomatch h

/-- No interrupt may be taken: the step is the instruction at `pc`. -/
theorem step_of_not_interruptible {s : State} (h : s.interruptible = false) : step s = stepInstr s :=
  if_neg (by rw [h]; decide)

/-- Settles O5: the fetch answers the bytes in memory, which decode to the instruction. -/
theorem stepRunsDecodedInstruction : Obligations.StepRunsDecodedInstruction := by
  intro s i rest h hcurrent hopen hdecode
  obtain ⟨rest', hfetched⟩ := decode_fetched hdecode
  rw [step_of_not_interruptible hopen]
  simp only [stepInstr, fetch_of_current h hcurrent, hfetched]

/-- Settles O6: one byte is fetched, and the decoder rejects it. -/
theorem baseSetOpcodeRefused : Obligations.BaseSetOpcodeRefused := by
  intro s h hcurrent hopen hbase
  have hx : ¬ isExtended (s.ioByte s.pc) = true := by rw [hbase]; decide
  rw [step_of_not_interruptible hopen]
  simp only [stepInstr, fetch_of_current h hcurrent, if_neg hx, decode, decodeRefusal]

/-- Settles O55, from what the instruction at `pc` can do. -/
theorem translatedFetch : Obligations.TranslatedFetch := by
  intro s hopen
  rw [step_of_not_interruptible hopen]
  exact stepInstr_cases s

/-! ### Interrupts -/

/-- Settles O50: each of the three closes the boundary. -/
theorem interruptHeldOff : Obligations.InterruptHeldOff := by
  intro s hclosed
  refine step_of_not_interruptible ?_
  rcases hclosed with hpending | hi | hhold
  · simp [State.interruptible, hpending]
  · simp [State.interruptible, hi]
  · simp [State.interruptible, hhold]

/-- A free value used up is not seen in the registers. -/
theorem RegsAfter.of_afterDraw {s t : State} {w : RegWrites} {next : Word} (h : RegsAfter s.afterDraw t w next) :
    RegsAfter s t w next :=
  ⟨fun r h0 h7 => (h.general r h0 h7).trans (by cases r <;> rfl), h.implicit, h.valid, h.held, h.pc⟩

/-- What is pending and taken is a source that was pending (60_exceptions.md R255). -/
theorem mem_pending_of_chosen {s : State} {src : IntSource} (h : s.chosenInterrupt = some src) : src ∈ s.pending :=
  List.mem_of_getElem? h

/-- Reading the handler's address and setting the flags leaves the frame pushed as it stands. -/
theorem memoryKept_entered (s : State) (w : TransferWidth) (returnTo vector : Word) (brk : Bool) :
    MemoryKept (s.framed w returnTo) (s.entered w returnTo vector brk).endInstr :=
  memoryKept_of_eq (by simp [State.entered]) (by simp [State.entered]) (by simp [State.entered])
    (by simp [State.entered]) (by simp [State.entered])

theorem mmuRegsKept_entered (s : State) (w : TransferWidth) (returnTo vector : Word) (brk : Bool) :
    MmuRegsKept s (s.entered w returnTo vector brk).endInstr :=
  ⟨by simp [State.entered], by simp [State.entered]⟩

theorem State.busByte_dropSource (s : State) (src : IntSource) (bus : Bus) (a : Word) :
    (s.dropSource src).busByte bus a = s.busByte bus a := by cases bus <;> rfl

/-- Settles O51: the entry is that of every exception, with SP and Flags as before it and the source removed after. -/
theorem interruptEntry : Obligations.InterruptEntry := by
  intro s h hopen
  have hstep : step s = match s.chosenInterrupt with
      | some src => takeInterrupt src s.afterDraw
      | none => stepInstr s.afterDraw := if_pos hopen
  split
  next hnone =>
    rw [hnone] at hstep
    exact hstep
  next src hsome =>
    rw [hsome] at hstep
    intro e size
    have hstart : (s.afterDraw.startInstr 0).untranslated := h
    obtain ⟨u, haddress, himage⟩ := stored_framed hstart e.width s.pc
    have hkept := memoryKept_entered (s.afterDraw.startInstr 0) e.width s.pc e.vector false
    have hmmu := mmuRegsKept_entered (s.afterDraw.startInstr 0) e.width s.pc e.vector false
    have hflags : FlagsAfter s.flags (((s.afterDraw.startInstr 0).entered e.width s.pc e.vector
        false).endInstr.dropSource src).flags (alsoFlag .i true (alsoFlag .b false noFlags)) :=
      flagsAfter_entered false s.flags
    refine ⟨mem_pending_of_chosen hsome, u, (s.afterDraw.startInstr 0).framed e.width s.pc, _,
      (s.afterDraw.startInstr 0).flagsImage, hstep.trans (takeInterrupt_untranslated (s := s.afterDraw) h src),
      flagsReadAs_flagsImage (s.afterDraw.startInstr 0), ?_, himage,
      fun bus a => (State.busByte_dropSource _ src bus a).trans (hkept.bytes bus a), hkept.stale, hkept.tlb,
      congrArg (·.erase src) hkept.pending, ?_, hflags, ⟨hmmu.m0, hmmu.m1⟩, not_interruptible_of_entered hflags⟩
    · exact stored_congr haddress ⟨rfl, rfl, rfl, rfl, rfl, rfl, rfl⟩ ⟨rfl, rfl, rfl, rfl, rfl, rfl, rfl⟩
    · refine (regsAfter_dropSource (regsAfter_entered s.afterDraw 0 e.width s.pc e.vector false _ ?_) src).of_afterDraw
      exact (State.ioValue_dropSource _ src _ _).trans (State.ioValue_entered ..)

end Sys2Proof.Machine
end

section
/-! Accesses byte by byte, with the MMU on or off (20_memory.md R79 to R86): LD and ST, the entries of TRAP and of an MMU
access trap (60_exceptions.md R258 to R260), and what the TLB holds afterwards. -/

namespace Sys2Proof.Machine

/-! ### What accesses leave as it is -/

theorem run_trap {len : Word} {body : State → Res Unit} {s s' : State} {va : Word} {kind : AccessKind}
    (h : body (s.startInstr len) = .trap va kind s') :
    run len body s = takeMmuTrap va kind (s.startInstr len) s' := by simp only [run, h]

section

variable {s t : State} (h : OnlyAccessed s t)

include h

theorem OnlyAccessed.regRead (r : Reg) : t.regRead r = s.regRead r := by
  rw [h]
  cases r <;> rfl

theorem OnlyAccessed.regWrite (r : Reg) (v : Word) : OnlyAccessed (s.regWrite r v) (t.regWrite r v) := by
  unfold OnlyAccessed at *
  rw [h]
  cases r <;> rfl

theorem OnlyAccessed.withFlags (f : Half) : OnlyAccessed (s.withFlags f) (t.withFlags f) := by
  unfold OnlyAccessed at *
  rw [h]
  rfl

theorem OnlyAccessed.endInstr : OnlyAccessed s.endInstr t.endInstr := by
  unfold OnlyAccessed at *
  rw [h]
  rfl

theorem OnlyAccessed.reg (r : Reg) : t.reg r = s.reg r := by
  rw [h]
  cases r <;> rfl

end

/-- Accesses change none of the registers that a claim speaks of. -/
theorem RegsAfter.of_onlyAccessed {s t t' : State} {w : RegWrites} {next : Word} (h : RegsAfter s t w next)
    (k : OnlyAccessed t t') : RegsAfter s t' w next :=
  ⟨fun r h0 h7 => (k.reg r).trans (h.general r h0 h7), (k.reg .r0).trans h.implicit,
    (show t'.riValid = t.riValid by rw [k]).trans h.valid, (show t'.riHold = t.riHold by rw [k]).trans h.held,
    (k.reg .r7).trans h.pc⟩

/-- Before its first access an instruction has at most updated the base of its operand. -/
theorem sameMemory_afterMemOp (s : State) (len : Word) (m : MemOp) (n : Size) :
    SameMemory s ((s.startInstr len).afterMemOp m n) := by
  constructor <;> simp

/-- After its last access an instruction writes registers and flags but MMU and ICA. -/
theorem sameMemory_finish {t : State} {f g : Half} {w : FlagWrites} (ht : t.flags = g) (hf : FlagsAfter g f w)
    (hmmu : w .mmu = none) (hica : w .ica = none) : SameMemory t (t.withFlags f).endInstr := by
  subst ht
  exact ⟨rfl, rfl, rfl, rfl, rfl, rfl, rfl, rfl, (hf .mmu).trans (by rw [hmmu]; rfl), (hf .ica).trans (by rw [hica]; rfl)⟩

theorem sameMemory_regWrite (t : State) (r : Reg) (v : Word) : SameMemory t (t.regWrite r v) := by
  constructor <;> simp

/-! ### LD and ST -/

/-- Settles O52: the reads of `MemRead` begin where the base has been updated, and the lane and Z and N are written after
them. -/
theorem translatedLoad : Obligations.TranslatedLoad := by
  intro src rd w s hm hrd n reads
  have hstart := sameMemory_afterMemOp s (memOpLen src) src n
  have haddr : (s.startInstr (memOpLen src)).memOpAddr src n = s.memOpAddr src n := State.memOpAddr_startInstr ..
  rcases memRead_cases n (s.memOpAddr src n) ((s.startInstr (memOpLen src)).afterMemOp src n) with
    ⟨v, t, hread, hmade, honly, -⟩ | ⟨v, u, va, htraps, honly, hread⟩
  · have hflags : t.flags = s.flags := honly.flags.trans (by simp)
    have hold : t.regRead rd = s.regRead rd := (honly.regRead rd).trans
      ((State.regRead_afterMemOp _ _ _ _ hrd).trans (State.regRead_startInstr ..))
    have hzn := flagsAfter_setZN (v.setWidth (widthBitCount w)) s.flags
    have hnext : exec (.ld src rd w) s = .next ((t.regWrite rd (laneMerge w (s.regRead rd)
        (v.setWidth _))).withFlags (setZN (v.setWidth (widthBitCount w)) s.flags)).endInstr := by
      refine (execLd_eq hm hrd w s).trans (run_ok ?_)
      rw [haddr, hread, Res.bind_ok, State.laneWrite_eq, hold, hflags]
    refine .inl ⟨v, _, hnext, hmade.congr hstart ?_, ?_, hzn⟩
    · exact (sameMemory_regWrite t rd _).trans
        (sameMemory_finish ((State.regWrite_flags ..).trans hflags) hzn rfl rfl)
    · exact (regsAfter_memOp_regWrite s hm n rd _ _).of_onlyAccessed ((honly.regWrite rd _).withFlags _).endInstr
  · refine .inr ⟨v, u, va, htraps.congr hstart, honly, (execLd_eq hm hrd w s).trans (run_trap ?_)⟩
    rw [haddr, hread, Res.bind_trap]

/-- Settles O53: the data and the address are read before the base is updated, the writes of `MemWrite` follow, and Z and N
are written after them. -/
theorem translatedStore : Obligations.TranslatedStore := by
  intro dst data w s hm hdata n v writes
  have hstart := sameMemory_afterMemOp s (memOpLen dst) dst n
  have haddr : (s.startInstr (memOpLen dst)).storeAddr dst data n = s.storeAddr dst data n :=
    State.storeAddr_startInstr ..
  have hdata' : (s.startInstr (memOpLen dst)).laneRead data w = v := State.laneRead_startInstr ..
  rcases memWrite_cases n (s.storeAddr dst data n) (v.setWidth 32) ((s.startInstr (memOpLen dst)).afterMemOp dst n) with
    ⟨t, hwrite, hmade, honly⟩ | ⟨u, va, htraps, honly, hwrite⟩
  · have hflags : t.flags = s.flags := honly.flags.trans (by simp)
    have hzn := flagsAfter_setZN v s.flags
    have hnext : exec (.st dst data w) s = .next (t.withFlags (setZN v s.flags)).endInstr := by
      refine (execSt_eq hm hdata w s).trans (run_ok ?_)
      rw [hdata', haddr, hwrite, Res.bind_ok, hflags]
    refine .inl ⟨_, hnext, hmade.congr hstart (sameMemory_finish hflags hzn rfl rfl), regsAfter_base hm ?_, hzn⟩
    rw [honly]
    rfl
  · refine .inr ⟨u, va, htraps.congr hstart, honly, (execSt_eq hm hdata w s).trans (run_trap ?_)⟩
    rw [hdata', haddr, hwrite, Res.bind_trap]

/-! ### The TLB -/

/-- The settings that the TLB holds for a block are those of its entries. -/
theorem mem_tlbSettings {l : List TlbEntry} {block : BitVec 22} {b : BlockSetting} :
    b ∈ tlbSettings l block ↔ ∃ e ∈ l, e.block = block ∧ e.setting = b := by
  simp [tlbSettings, and_assoc]

theorem settingMapping_tableSetting (s : State) (block : BitVec 22) (kind : AccessKind) :
    settingMapping (s.tableSetting block) kind = Config.translate s.m0 s.m1 s.mem s.sdram block kind := by
  cases kind <;> rfl

/-- A mapping is the table's or that of an entry (R85). -/
theorem blockMapping_cases (s : State) (block : BitVec 22) (kind : AccessKind) :
    s.blockMapping block kind = Config.translate s.m0 s.m1 s.mem s.sdram block kind ∨
    ∃ e ∈ s.tlb, e.block = block ∧ s.blockMapping block kind = settingMapping e.setting kind := by
  rw [State.blockMapping, State.blockSetting]
  cases hchosen : (tlbSettings s.tlb block)[s.drawn.toNat]? with
  | none =>
    rw [Option.getD_none]
    exact .inl (settingMapping_tableSetting s block kind)
  | some b =>
    rw [Option.getD_some]
    obtain ⟨e, he, hblock, hsetting⟩ := mem_tlbSettings.1 (List.mem_of_getElem? hchosen)
    exact .inr ⟨e, he, hblock, by rw [hsetting]⟩

/-- `t` holds every TLB entry of `s`, and the setting that an access of `s` to `block` uses. -/
def HoldsUsed (s t : State) (block : BitVec 22) : Prop :=
  (∀ e, e ∈ s.tlb → e ∈ t.tlb) ∧
    ∃ e ∈ t.tlb, e.block = block ∧ ∀ kind, settingMapping e.setting kind = s.blockMapping block kind

/-- After a translation the TLB holds what it used, whether the access is then made or traps. -/
theorem holdsUsed_of_tlb {s t : State} {block : BitVec 22}
    (h : ∀ e, e ∈ t.tlb ↔ e ∈ s.tlb ∨ e = { block := block, setting := s.blockSetting block }) : HoldsUsed s t block :=
  ⟨fun e he => (h e).2 (.inl he), _, (h _).2 (.inr rfl), rfl, fun _ => rfl⟩

theorem TlbEntry.eq_iff (e : TlbEntry) (block : BitVec 22) (b : BlockSetting) :
    e = { block := block, setting := b } ↔ e.block = block ∧ e.setting = b := by
  cases e
  simp

/-- The trap of an access that is alone. -/
theorem TrapsAt.of_singleton {s u : State} {x : ByteAccess} {kind : AccessKind} {va : Word}
    (h : TrapsAt s u [x] kind va) : SameMemory s u ∧ va = x.va ∧ u.answer kind va = .trap := by
  obtain ⟨before, y, after, hsplit, -, hva, hmade, htrap⟩ := h
  cases before with
  | nil =>
    obtain ⟨rfl, -⟩ := List.cons.inj hsplit
    exact ⟨hmade, hva.symm, htrap⟩
  | cons z before => simp at hsplit

/-- Settles O57: a byte load is one access, which leaves its setting in the TLB when it is made and when it traps. -/
theorem translationIsTableOrTlb : Obligations.TranslationIsTableOrTlb := by
  refine ⟨blockMapping_cases, ?_⟩
  intro b rd s hmmu block used
  have hanswer : s.answer .read (s.regRead b) = s.blockMapping block .read := if_pos hmmu
  rcases translatedLoad (.indirect b) rd .byte s (fun h => nomatch h) (fun h => nomatch h) with
    ⟨v, t, hnext, ⟨u, ⟨blk, r, hmapped, hat⟩, hsame⟩, -⟩ | ⟨v, u, va, htraps, -, htrap⟩
  · have hused : used t := holdsUsed_of_tlb fun e => by
      rw [show t.tlb = u.tlb from hsame.tlb, hat.tlb, TlbEntry.eq_iff]
      simp only [hmmu, true_and]
      rfl
    rw [← hanswer, show s.answer .read (s.regRead b) = .mapped blk r from hmapped]
    exact ⟨t, hnext, hused⟩
  · obtain ⟨hsame, rfl, htrapped⟩ := htraps.of_singleton
    have hused : used (u.translatedBy (s.regRead b)) := holdsUsed_of_tlb fun e => by
      refine (mem_tlbAfterUse _ _ e).trans ?_
      rw [hsame.tlb, hsame.blockSetting]
    rw [← hanswer, ← hsame.answer, show u.answer .read (s.regRead b) = .trap from htrapped]
    exact ⟨_, htrap, hused⟩

/-! ### The entry of an exception -/

/-- Where the entry of an exception ends, its accesses having led from `s` to `t` (60_exceptions.md R260). -/
def State.entryEnd (s t : State) (sp handler : Word) (brk : Bool) : State :=
  (((t.regWrite .r6 sp).withFlags (enteredFlags brk s.flags)).withNextPc handler).endInstr

section

variable {s t : State} (honly : OnlyAccessed s t) (sp handler : Word) (brk : Bool)

include honly

theorem sameMemory_entryEnd : SameMemory t (s.entryEnd t sp handler brk) :=
  SameMemory.trans (t := (t.regWrite .r6 sp).withNextPc handler) ⟨rfl, rfl, rfl, rfl, rfl, rfl, rfl, rfl, rfl, rfl⟩
    (sameMemory_finish (t := (t.regWrite .r6 sp).withNextPc handler) honly.flags (flagsAfter_entered brk s.flags) rfl rfl)

theorem regsAfter_entryEnd (hwritten : s.riWritten = false) (hhold : s.riHoldNext = false) :
    RegsAfter s (s.entryEnd t sp handler brk) (onlyReg .r6 sp) handler := by
  rw [honly]
  apply regsAfter_endInstr <;> simp [onlyReg, hwritten, hhold]

end

theorem flagsAfter_entryEnd (s t : State) (sp handler : Word) (brk : Bool) :
    FlagsAfter s.flags (s.entryEnd t sp handler brk).flags (alsoFlag .i true (alsoFlag .b brk noFlags)) :=
  flagsAfter_entered brk s.flags

/-- Settles O56: the entry pushes and reads as every exception's does, from the state reached or the one undone to. -/
theorem mmuAccessTrapEntry : Obligations.MmuAccessTrapEntry := by
  intro va kind s0 s1 hwritten0 hhold0 hwritten1 hhold1 e s
  have hwritten : s.riWritten = false := by
    dsimp only [s]
    split
    · exact hwritten0
    · exact hwritten1
  have hhold : s.riHoldNext = false := by
    dsimp only [s]
    split
    · exact hhold0
    · exact hhold1
  have hentry : takeMmuTrap va kind s0 s1 = match takeException e.width e.returnTo e.vector false s with
      | .ok _ s => .next s.endInstr
      | .trap va kind _ => .fault (.mmuTrapWhileEntering va kind)
      | .refused r => .refused r := rfl
  obtain ⟨image, k, hread, ⟨t, handler, he, honly, hsize, hmade⟩ | ⟨u, kind', va', htraps, he⟩⟩ :=
    takeException_cases e.width e.returnTo e.vector false s
  · rw [he] at hentry
    have hflags := flagsAfter_entryEnd s t (s.r6 - BitVec.ofNat 32 (Size.bytes (transferSize e.width)) - 2) handler false
    exact .inl ⟨_, hentry, ⟨⟨image, k, hread, hmade.congr (.refl _) (sameMemory_entryEnd honly _ handler false)⟩, hsize,
      regsAfter_entryEnd honly _ handler false hwritten hhold, hflags⟩, not_interruptible_of_entered hflags⟩
  · rw [he] at hentry
    exact .inr ⟨image, k, u, kind', va', hread, htraps, hentry⟩

/-- TRAP and TRAPB are the entry of an exception (43_control_system.md R183, R184). -/
theorem exec_trap (n : BitVec 5) (w : TransferWidth) (brk : Bool) (s : State) :
    exec (if brk then Instr.trapb n w else Instr.trap n w) s =
      run 2 (fun t => takeException w (t.pc + 2) (Config.trapVectorAddr n w) brk t) s := by
  cases brk <;> rfl

/-- The start of an instruction is not seen in the registers. -/
theorem RegsAfter.of_startInstr {s t : State} {len next : Word} {w : RegWrites} (h : RegsAfter (s.startInstr len) t w next) :
    RegsAfter s t w next :=
  ⟨fun r h0 h7 => (h.general r h0 h7).trans (by cases r <;> rfl), h.implicit, h.valid, h.held, h.pc⟩

/-- Settles O58: the accesses are those of the entry, in their order. -/
theorem translatedTrap : Obligations.TranslatedTrap := by
  intro n w s brk size i entry
  obtain ⟨image, k, hread, ⟨t, handler, he, honly, hsize, hmade⟩ | ⟨u, kind, va, htraps, he⟩⟩ :=
    takeException_cases w (s.pc + 2) (Config.trapVectorAddr n w) brk (s.startInstr 2)
  · have hflags := flagsAfter_entryEnd (s.startInstr 2) t (s.r6 - BitVec.ofNat 32 size - 2) handler brk
    have hstart : SameMemory { s with draws := k } { s.startInstr 2 with draws := k } :=
      ⟨rfl, rfl, rfl, rfl, rfl, rfl, rfl, rfl, rfl, rfl⟩
    exact ⟨image, k, hread, .inl ⟨_, (exec_trap n w brk s).trans (run_ok he),
      hmade.congr hstart (sameMemory_entryEnd honly _ handler brk), hsize,
      (regsAfter_entryEnd honly _ handler brk rfl rfl).of_startInstr, hflags, not_interruptible_of_entered hflags⟩⟩
  · exact ⟨image, k, hread, .inr ⟨u, kind, va, htraps, (exec_trap n w brk s).trans (run_trap he)⟩⟩

end Sys2Proof.Machine
end
